-- ==== Sys2Proof/Word.lean ====
section
/-!
DEFINITION. The bit-vector types of the block: bytes, bus words, Keccak lanes, 16-byte blocks and
byte strings (`00_scope.md` R11, R12, R16; `10_state.md` section 4).
-/

namespace Sys2Proof

/-- One byte. -/
abbrev Byte := BitVec 8

/-- One 32-bit bus word: a register value, an unsigned integer below 2^32 (R11). -/
abbrev Word := BitVec 32

/-- One 64-bit Keccak lane (R16). -/
abbrev Lane := BitVec 64

/-- A byte string `b`: `b[0]` is its first element (R12). -/
abbrev Bytes := List Byte

/-- A 16-byte block, byte 0 first (`10_state.md` section 4). -/
abbrev Block := Vector Byte 16

/-- The 25 lanes of the Keccak state, lane `i = x + 5y` at index `i` (R16, R160). -/
abbrev Lanes := Vector Lane 25

end Sys2Proof
end

