-- ==== Sys2Proof/Syntax.lean ====
section
/-!
DEFINITION. The commands: one constructor for each row of the opcode table (`30_encoding.md` R133,
`opcode_table.json`).
-/

namespace Sys2Proof

/-- A command of KAGE command set version 1. The round index of KROUND is the only operand in a
command word (R131); every other operand is implicit (R132). -/
inductive Instr where
  /-- NOP, no operation (R330). -/
  | nop
  /-- KZERO, clear the Keccak state (R175). -/
  | kzero
  /-- KPERM, apply Keccak-f[1600] (R176). -/
  | kperm
  /-- KROUND, apply the round with index `ir` (R177). -/
  | kround (ir : Nat)
  /-- KSPONGE, one whole sponge computation (R180). -/
  | ksponge
  /-- AKEY, expand and load a key (R260). -/
  | akey
  /-- AENC, encrypt one block (R262). -/
  | aenc
  /-- GMUL, one field multiplication (R226). -/
  | gmul
  /-- GHASH, the GHASH function over a buffer range (R228). -/
  | ghash
  /-- GCMENC, authenticated encryption (R292). -/
  | gcmenc
  /-- GCMDEC, authenticated decryption (R302, R303). -/
  | gcmdec
  deriving DecidableEq, Repr

end Sys2Proof
end

