-- ==== Sys2Proof/WellFormed.lean ====
section
/-!
DEFINITION. Which commands a command word can carry (`30_encoding.md` R130, R131).
-/

namespace Sys2Proof

/-- The one check on a command as syntax: KROUND's round index fits the 8-bit field ARG. An index
of 24 to 255 is well formed: it decodes as KROUND and fails BAD_ROUND when it runs (R131, R134). -/
def Instr.wellFormed : Instr → Bool
  | .kround ir => decide (ir < 256)
  | .nop | .kzero | .kperm | .ksponge | .akey | .aenc | .gmul | .ghash | .gcmenc | .gcmdec => true

end Sys2Proof
end

