-- ==== Sys2Proof/Decode.lean ====
section
/-!
DEFINITION. Decoding and encoding of command words (`30_encoding.md` R130 to R135), and the host's
`decodeTableWord`.
-/

namespace Sys2Proof

/-- Why a word is no command (R134, R135). Each of them makes the engine complete the command with
ILLEGAL_CMD. -/
inductive DecodeError where
  /-- RSV, bits 31:16, is not 0. -/
  | reservedBits
  /-- OP is one of the 245 unallocated values. -/
  | unallocatedOp
  /-- ARG is not 0 and OP is not 0x03. -/
  | argNotZero
  deriving DecidableEq, Repr

/-- OP, bits 7:0 of a command word (R130). -/
def opField (w : Word) : Nat := (w.extractLsb' 0 8).toNat

/-- ARG, bits 15:8 of a command word (R130). -/
def argField (w : Word) : Nat := (w.extractLsb' 8 8).toNat

/-- RSV, bits 31:16 of a command word (R130). -/
def rsvField (w : Word) : Nat := (w.extractLsb' 16 16).toNat

/-- The opcode map (R133): the command that OP names, KROUND with the index ARG. -/
def instrOf (op arg : Nat) : Option Instr :=
  if op = 0x00 then some .nop
  else if op = 0x01 then some .kzero
  else if op = 0x02 then some .kperm
  else if op = 0x03 then some (.kround arg)
  else if op = 0x04 then some .ksponge
  else if op = 0x10 then some .akey
  else if op = 0x11 then some .aenc
  else if op = 0x20 then some .gmul
  else if op = 0x21 then some .ghash
  else if op = 0x30 then some .gcmenc
  else if op = 0x31 then some .gcmdec
  else none

/-- `decode(w)` of R134, total on every 32-bit word. -/
def decode (w : Word) : Except DecodeError Instr :=
  if rsvField w ≠ 0 then .error .reservedBits
  else match instrOf (opField w) (argField w) with
    | none => .error .unallocatedOp
    | some i => if opField w ≠ 0x03 ∧ argField w ≠ 0 then .error .argNotZero else .ok i

/-- The opcode of a command (R133). -/
def opcode : Instr → Nat
  | .nop => 0x00
  | .kzero => 0x01
  | .kperm => 0x02
  | .kround _ => 0x03
  | .ksponge => 0x04
  | .akey => 0x10
  | .aenc => 0x11
  | .gmul => 0x20
  | .ghash => 0x21
  | .gcmenc => 0x30
  | .gcmdec => 0x31

/-- The field ARG of a command: the round index of KROUND, 0 for every other command (R130, R131). -/
def argOf : Instr → Nat
  | .kround ir => ir
  | .nop | .kzero | .kperm | .ksponge | .akey | .aenc | .gmul | .ghash | .gcmenc | .gcmdec => 0

/-- The command word of a command: OP in bits 7:0, ARG in bits 15:8, RSV = 0 (R130, R133). -/
def encode (i : Instr) : Word := BitVec.ofNat 32 (opcode i + argOf i * 0x100)

/-- The command that `decode` reads from the word whose bits are `w`, the bits from `nbits` up
taken as 0. A command word is one 32-bit register value (R100, R130), so bit 0 is its least
significant bit. -/
def decodeTableWord (nbits w : Nat) : Option Instr :=
  if w % 2 ^ nbits < 2 ^ 32 then (decode (BitVec.ofNat 32 (w % 2 ^ nbits))).toOption else none

end Sys2Proof
end

