-- ==== Sys2Proof/Config.lean ====
section
/-!
DEFINITION. The parameters of the block: those the spec fixes, those it leaves OPEN
(`00_scope.md` R8), and the free values of `93_implementation_defined.md`. A constant declared
`opaque` has no value any proof can use.
-/

namespace Sys2Proof.Config

/-- `WINDOW`: the bytes of bus address space the block occupies (R8, R110). -/
def windowSize : Nat := 0x20000

/-- The offset of the first byte of BUF in the window (R103). -/
def bufOffset : Nat := 0x10000

/-- `BUF_SIZE`: the bytes of buffer memory (R8, R103). -/
def bufSize : Nat := 65536

/-- The first offset whose reads are unspecified while BUSY = 1 (R107). -/
def busyReadOffset : Nat := 0x080

/-- The number of rounds of Keccak-f[1600] (R8, R161). -/
def keccakRounds : Nat := 24

/-- Which multiple of `WINDOW` the OPEN parameter `BASE` is (R8, R110; U7). -/
opaque baseIndex : Nat

/-- `BASE`, OPEN: the bus address of offset 0, a multiple of 0x20000 (R8, R110; U7). -/
def base : Nat := baseIndex * windowSize

/-- `BUS_ERROR_RESPONSE`, OPEN: the platform's signal for a bus error (R8, R101; U6). -/
opaque busErrorResponse : Nat

/-- `IRQ_LINE`, OPEN: the platform interrupt input that the block's IRQ output drives (R8, R360; U8). -/
opaque irqLine : Nat

/-- `PLATFORM_DEVICE_ORDER`, OPEN: whether the interconnect keeps the host's program order (R113; U10). -/
opaque platformDeviceOrder : Bool

/-- FREE VALUE (U2, R381): what BUF byte `a` holds after the power-on reset that took draw `k`,
until it is written. -/
opaque powerOnByte (k a : Nat) : Byte

/-- FREE VALUE (U3, R383): what the soft reset that took draw `k` leaves in byte `a` of the output
range of the command it aborted. -/
opaque abortByte (k a : Nat) : Byte

/-- FREE VALUE (U1, R107): what the read that took draw `k`, at offset 0x080 or above while
BUSY = 1, returns. -/
opaque busyRead (k : Nat) : Word

end Sys2Proof.Config
end

