-- ==== Sys2Proof/Machine/State.lean ====
section
/-!
DEFINITION. The state of the block as the spec gives it (`10_state.md` R40 to R74), the model's own
fields around it (the bus events to come, the last bus response, the draw counters), the reasons a
step can stop, and the state after power-on reset (`70_reset_and_hazards.md` R380).
-/

namespace Sys2Proof.Machine

/-- The error codes of `60_exceptions.md` R340, by name. -/
inductive ErrCode where
  /-- Code 0, no error. -/
  | none
  /-- Code 1, the word is no command (R134). -/
  | illegalCmd
  /-- Code 2, KROUND with ARG above 23 (R177). -/
  | badRound
  /-- Code 3, an illegal sponge rate (R182). -/
  | badRate
  /-- Code 4, an illegal suffix (R182). -/
  | badSuffix
  /-- Code 5, OUT_LEN = 0 (R181). -/
  | badOutLen
  /-- Code 6, an invalid buffer range (R104). -/
  | badRange
  /-- Code 7, text ranges that overlap in part (R290). -/
  | overlap
  /-- Code 8, a key length other than 16, 24 or 32 (R260). -/
  | badKeyLen
  /-- Code 9, no key loaded (R262). -/
  | notKeyed
  /-- Code 10, IV_LEN = 0 (R289). -/
  | badIvLen
  /-- Code 11, an illegal tag length (R301). -/
  | badTagLen
  /-- Code 12, the computed tag is not the expected one (R302). -/
  | authFail
  deriving DecidableEq, Repr

/-- What `raise CmdError(code, param)` carries: the error code and the offset of the register that
holds the offending value (R340, R341). -/
structure CmdError where
  code : ErrCode
  param : Word
  deriving DecidableEq, Repr

/-- The hidden command latch: the pending word and the COMPAT bit sampled at acceptance (R72). -/
structure Latch where
  word : Word
  compat : Bool
  deriving DecidableEq, Repr

/-- A transition that the agents outside the block, or the scheduler, take next (R9, R320). An
offset is the bus address less `BASE` (R137), a width is in bytes. -/
inductive Event where
  /-- A bus read of `width` bytes at `BASE + off`. -/
  | read (off width : Nat)
  /-- A bus write of `width` bytes at `BASE + off`; `v` is the word written when `width` is 4. -/
  | write (off width : Nat) (v : Word)
  /-- The scheduler lets the engine act (R320, R401). -/
  | engine
  /-- Power is applied anew (R371, R380). -/
  | powerOn
  deriving DecidableEq, Repr

/-- What the bus carried back for the last access. -/
inductive Response where
  /-- No access yet since power-on. -/
  | none
  /-- The data of a read. -/
  | data (v : Word)
  /-- A write taken by the block. -/
  | written
  /-- The error response of R101: the platform's slave-error signal, and no data. -/
  | busError (signal : Nat)
  deriving DecidableEq, Repr

/-- Buffer memory as (offset in BUF, byte) pairs, offsets strictly rising. A byte is listed exactly
when it has a value the block's rules give it; an unlisted byte still holds the unspecified value
of power-on (R381). -/
abbrev Memory := List Host.Cell

/-- The state of the block (R40) and, at its end, the model's own fields. BUSY is not a field of
its own: the latch is valid exactly while BUSY = 1 (R72), see `State.busy`. -/
structure State where
  /-- CTRL bit 0, interrupt enable (R42). -/
  ie : Bool
  /-- CTRL bit 1, source-compatibility mode (R42). -/
  compat : Bool
  /-- STATUS bit 1 (R47). -/
  done : Bool
  /-- STATUS bit 2 (R48). -/
  err : Bool
  /-- STATUS bit 3, overrun (R49). -/
  ovr : Bool
  /-- STATUS bit 4 (R50). -/
  keyed : Bool
  /-- STATUS bit 5 (R51). -/
  authOk : Bool
  /-- STATUS bits 15:8, ERRCODE (R48, R340). -/
  errCode : ErrCode
  /-- ERRPARAM (R52). -/
  errParam : Word
  /-- LASTCMD (R53). -/
  lastCmd : Word
  /-- The command latch, empty while BUSY = 0 (R72). -/
  latch : Option Latch
  /-- SRC_ADDR (R54). -/
  srcAddr : Word
  /-- SRC_LEN (R54). -/
  srcLen : Word
  /-- DST_ADDR (R54). -/
  dstAddr : Word
  /-- OUT_LEN (R54). -/
  outLen : Word
  /-- AAD_ADDR (R54). -/
  aadAddr : Word
  /-- AAD_LEN (R54). -/
  aadLen : Word
  /-- IV_ADDR (R54). -/
  ivAddr : Word
  /-- IV_LEN (R54). -/
  ivLen : Word
  /-- SPONGE_CFG bits 7:0, RATE (R55). -/
  rate : Byte
  /-- SPONGE_CFG bits 15:8, SUFFIX (R55). -/
  suffix : Byte
  /-- AES_CFG bits 5:0, KEYLEN (R56). -/
  keyLen : BitVec 6
  /-- AES_NR bits 3:0, the round count of the loaded schedule (R57). -/
  nr : BitVec 4
  /-- GCM_CFG bits 4:0, TAG_LEN (R58). -/
  tagLen : BitVec 5
  /-- KEY (R59). -/
  key : Vector Byte 32
  /-- BLK_IN (R60). -/
  blkIn : Block
  /-- BLK_OUT (R61). -/
  blkOut : Block
  /-- GCM_H (R62). -/
  gcmH : Block
  /-- GCM_S (R63). -/
  gcmS : Block
  /-- GCM_J0 (R64). -/
  gcmJ0 : Block
  /-- GCM_CTR (R65). -/
  gcmCtr : Block
  /-- GCM_TAG (R66). -/
  gcmTag : Block
  /-- GCM_TAGX (R67). -/
  gcmTagx : Block
  /-- KS, the lane file (R68). -/
  ks : Lanes
  /-- RK, the round-key file (R70). -/
  rk : Vector Byte 240
  /-- BUF (R103). -/
  buf : Memory
  /-- MODEL'S OWN: the draw that BUF's unlisted bytes come from (R381). -/
  bufDraw : Nat
  /-- MODEL'S OWN: the free draws taken so far. -/
  draws : Nat
  /-- MODEL'S OWN: the transitions still to come, next first (R320). -/
  events : List Event
  /-- MODEL'S OWN: what the bus carried back for the last access. -/
  response : Response
  deriving DecidableEq, Repr

/-- STATUS.BUSY: 1 exactly while the latch holds a command (R46, R72). -/
def State.busy (s : State) : Bool := s.latch.isSome

/-- The reasons the machine stops with a fault: there is none. A command error is recorded in
STATUS and the block goes on (R341, R350), and so does it after a bus error (R101). -/
inductive Fault where
  deriving DecidableEq, Repr

/-- The reasons a step has no meaning. -/
inductive Refusal where
  /-- Raised by an arm of `exec` whose command has no meaning yet. Safe: nothing is claimed of it. -/
  | notModelled (mnemonic : String)
  /-- Raised by a bus access at or above 0x20000: it "does not reach the block" (R101; U5). Safe:
  the block has no such step. -/
  | outsideWindow (off : Nat)
  deriving DecidableEq, Repr

/-- The state after power-on reset (R380). Every unlisted byte of BUF is unspecified (R381). The
model's own fields: no draw taken but the power-on one, no event to come, no response. -/
def State.reset : State where
  ie := false
  compat := false
  done := false
  err := false
  ovr := false
  keyed := false
  authOk := false
  errCode := .none
  errParam := 0
  lastCmd := 0
  latch := none
  srcAddr := 0
  srcLen := 0
  dstAddr := 0
  outLen := 0
  aadAddr := 0
  aadLen := 0
  ivAddr := 0
  ivLen := 0
  rate := 0
  suffix := 0
  keyLen := 0
  nr := 0
  tagLen := 0
  key := Vector.replicate 32 0
  blkIn := Vector.replicate 16 0
  blkOut := Vector.replicate 16 0
  gcmH := Vector.replicate 16 0
  gcmS := Vector.replicate 16 0
  gcmJ0 := Vector.replicate 16 0
  gcmCtr := Vector.replicate 16 0
  gcmTag := Vector.replicate 16 0
  gcmTagx := Vector.replicate 16 0
  ks := Vector.replicate 25 0
  rk := Vector.replicate 240 0
  buf := []
  bufDraw := 0
  draws := 1
  events := []
  response := .none

end Sys2Proof.Machine
end

