-- ==== Sys2Proof/Machine/Ops.lean ====
section
/-!
DEFINITION. The operations every command and every bus access is built from: byte strings and
their integers, buffer memory, acceptance and completion of a command, error entry and its
acknowledgement, and the resets.
-/

namespace Sys2Proof.Machine

/-! ### Fixed-length registers and byte strings (`00_scope.md` R12, R13) -/

/-- The vector whose element `i` is `f i`. -/
def tabulate {α : Type} (n : Nat) (f : Nat → α) : Vector α n :=
  ⟨((List.range n).map f).toArray, by simp⟩

/-- Byte `i` of a byte register, 0 past its end. -/
def byteAt {n : Nat} (v : Vector Byte n) (i : Nat) : Byte := v[i]?.getD 0

/-- Element `i` of a vector of lanes, 0 past its end. -/
def laneAt {n : Nat} (a : Vector Lane n) (i : Nat) : Lane := a[i]?.getD 0

/-- The first `n` bytes of a byte string, zero bytes after its end. -/
def ofBytes (n : Nat) (bs : Bytes) : Vector Byte n := tabulate n fun i => bs.getD i 0

/-- The register with `bs` stored from byte `k` on. -/
def setBytes {n : Nat} (v : Vector Byte n) (k : Nat) (bs : Bytes) : Vector Byte n :=
  tabulate n fun i => if k ≤ i ∧ i < k + bs.length then bs.getD (i - k) 0 else byteAt v i

/-- `a ^ b` of two byte strings, as long as the shorter one. -/
def xorBytes (a b : Bytes) : Bytes := List.zipWith (· ^^^ ·) a b

/-- `a ^ b` of two blocks. -/
def xorBlock (a b : Block) : Block := tabulate 16 fun k => byteAt a k ^^^ byteAt b k

/-- The all-zero block `0^16`. -/
def zeroBlock : Block := Vector.replicate 16 0

/-- `int_le(b[k .. k+4))`: the bus word of four bytes (R100). -/
def leWord (b : Nat → Byte) (k : Nat) : Word := b (k + 3) ++ b (k + 2) ++ b (k + 1) ++ b k

/-- `le_32(v)`: the four bytes a bus word stores, byte 0 first (R100). -/
def wordBytes (v : Word) : Bytes :=
  [v.extractLsb' 0 8, v.extractLsb' 8 8, v.extractLsb' 16 8, v.extractLsb' 24 8]

/-- `be_64(n)`: eight bytes, the most significant first (R12). -/
def be64 (n : Nat) : Bytes := (List.range 8).map fun k => BitVec.ofNat 8 (n >>> (8 * (7 - k)))

/-- `int_be(b)` of a block: byte 0 is the most significant (R12, R13). -/
def blockInt (b : Block) : BitVec 128 :=
  BitVec.ofNat 128 (b.toList.foldl (fun n x => n * 256 + x.toNat) 0)

/-- `be_128(v)`: the block of an integer (R12, R13). -/
def intBlock (v : BitVec 128) : Block := tabulate 16 fun k => v.extractLsb' (8 * (15 - k)) 8

/-- Low(i), bits 31:0 of lane `i` (R16, R68). -/
def lowHalf (l : Lane) : Word := l.extractLsb' 0 32

/-- High(i), bits 63:32 of lane `i` (R16, R68). -/
def highHalf (l : Lane) : Word := l.extractLsb' 32 32

/-- The lane of a pair of halves, `hi·2^32 + lo` (R160, R163). -/
def joinHalves (lo hi : Word) : Lane := hi ++ lo

/-- `KS[k]`, byte `k` of the lane file: bits `8j+7 .. 8j` of lane `k div 8`, `j = k mod 8` (R68, R162). -/
def ksByte (a : Lanes) (k : Nat) : Byte := (laneAt a (k / 8)).extractLsb' (8 * (k % 8)) 8

/-- The 25 lanes whose byte view is `bs`, zero bytes after its end (R68, R162). -/
def lanesOfBytes (bs : Bytes) : Lanes :=
  tabulate 25 fun i => joinHalves (leWord (bs.getD · 0) (8 * i)) (leWord (bs.getD · 0) (8 * i + 4))

/-- The lane file `0^200`. -/
def zeroLanes : Lanes := Vector.replicate 25 0

/-- The lane file with its 32-bit word `w` set: the even words are the low halves, the odd words
the high halves (R68, R92). -/
def setKsWord (a : Lanes) (w : Nat) (v : Word) : Lanes :=
  tabulate 25 fun i =>
    if i = w / 2 then
      if w % 2 = 0 then joinHalves v (highHalf (laneAt a i)) else joinHalves (lowHalf (laneAt a i)) v
    else laneAt a i

/-- The 32-bit word `w` of the lane file (R68, R92). -/
def ksWord (a : Lanes) (w : Nat) : Word :=
  if w % 2 = 0 then lowHalf (laneAt a (w / 2)) else highHalf (laneAt a (w / 2))

/-! ### Buffer memory (`20_memory.md` R103, `00_scope.md` R15) -/

/-- The canonical form of buffer memory: offsets strictly rising, each of them inside BUF. -/
def Memory.wf (m : Memory) : Bool :=
  decide (m.Pairwise fun p q => p.1 < q.1) && m.all fun p => decide (p.1 < Config.bufSize)

/-- The byte listed at offset `a`, if one is. -/
def Memory.lookup (m : Memory) (a : Nat) : Option Byte := (m.find? fun p => p.1 == a).map (·.2)

/-- The cells of a byte string stored from offset `a` on. -/
def cellsFrom (a : Nat) (bs : Bytes) : Memory :=
  (List.range bs.length).map fun i => (a + i, bs.getD i 0)

/-- `MemWrite(a, n, v)`: memory with the byte string `bs` stored from offset `a` on (R15). -/
def Memory.store (m : Memory) (a : Nat) (bs : Bytes) : Memory :=
  m.filter (fun p => decide (p.1 < a)) ++ cellsFrom a bs
    ++ m.filter (fun p => decide (a + bs.length ≤ p.1))

/-- `BUF[a]`: the listed byte, or else the unspecified one of power-on, the same at every read (R381). -/
def bufByte (s : State) (a : Nat) : Byte := (s.buf.lookup a).getD (Config.powerOnByte s.bufDraw a)

/-- `MemRead(a, n)` (R15). -/
def memRead (s : State) (a n : Nat) : Bytes := (List.range n).map fun i => bufByte s (a + i)

/-- `MemWrite(a, n, bs)` (R15). -/
def memWrite (s : State) (a : Nat) (bs : Bytes) : State := { s with buf := s.buf.store a bs }

/-! ### The life cycle of a command (`44_control.md`) -/

/-- Acceptance of the word `w` (R321). It checks nothing. -/
def accept (w : Word) (s : State) : State :=
  { s with
    lastCmd := w
    latch := some ⟨w, s.compat⟩
    done := false
    err := false
    errCode := .none
    errParam := 0
    authOk := false }

/-- The COMPAT bit latched at acceptance (R72); 0 when no command is latched. -/
def latchedCompat (s : State) : Bool := (s.latch.map (·.compat)).getD false

/-- Completion, which ends every engine step: `BUSY <- 0; DONE <- 1` (R324). -/
def complete (s : State) : State := { s with latch := none, done := true }

/-- `complete_error(code, param)` (R325): what a failing command records (R350). Nothing else changes. -/
def completeError (e : CmdError) (s : State) : State :=
  complete { s with err := true, errCode := e.code, errParam := e.param }

/-- The host's acknowledgement of an error, W1C of STATUS.ERR (R48, R351): the return that R351
describes, with nothing to restore. -/
def acknowledgeError (s : State) : State := { s with err := false, errCode := .none, errParam := 0 }

/-- The first check, in order, that does not hold (R343, R346). -/
def firstFailure : List (Bool × CmdError) → Option CmdError
  | [] => none
  | (ok, e) :: rest => if ok then firstFailure rest else some e

/-- Checks before effects: `raise CmdError` at the first check that fails, else go on (R323, R341). -/
def guarded (checks : List (Bool × CmdError)) (k : State → Host.Outcome State Fault Refusal)
    (s : State) : Host.Outcome State Fault Refusal :=
  match firstFailure checks with
  | some e => .next (completeError e s)
  | none => k s

/-- `complete_ok()` after the effect of a command (R326). -/
def commit (effect : State → State) (s : State) : Host.Outcome State Fault Refusal :=
  .next (complete (effect s))

/-! ### Reset (`70_reset_and_hazards.md`) -/

/-- `addr + n` or the end of BUF, whichever comes first. -/
def clipEnd (addr n : Nat) : Nat := min (addr + n) Config.bufSize

/-- Memory after the abort that took draw `k` of a command with the output range `(addr, n)`: each
byte of the range that lies in BUF is drawn anew, every other byte keeps its value (R383). -/
def Memory.scramble (m : Memory) (k addr n : Nat) : Memory :=
  if addr < clipEnd addr n then
    m.store addr ((List.range (clipEnd addr n - addr)).map fun i => Config.abortByte k (addr + i))
  else m

end Sys2Proof.Machine
end

