-- ==== Sys2Proof/Machine/Operands.lean ====
section
/-!
DEFINITION. The implicit operands of the commands (`30_encoding.md` R132): buffer ranges and their
checks (`20_memory.md` R104, `43_gcm.md` R290), and the fields of the configuration registers.
-/

namespace Sys2Proof.Machine

/-- A buffer range `(addr, len)` as unbounded integers (R104). -/
structure BufRange where
  addr : Nat
  len : Nat
  deriving DecidableEq, Repr

/-- A range is valid exactly when `addr + len ≤ BUF_SIZE`, the sum not wrapping (R104). -/
def BufRange.valid (r : BufRange) : Bool := decide (r.addr + r.len ≤ Config.bufSize)

/-- Whether offset `a` is one of the bytes the range names (R104). -/
def BufRange.contains (r : BufRange) (a : Nat) : Bool := decide (r.addr ≤ a ∧ a < r.addr + r.len)

/-- (SRC_ADDR, SRC_LEN). -/
def srcRange (s : State) : BufRange := ⟨s.srcAddr.toNat, s.srcLen.toNat⟩

/-- (DST_ADDR, OUT_LEN), the output range of KSPONGE (R180). -/
def spongeOutRange (s : State) : BufRange := ⟨s.dstAddr.toNat, s.outLen.toNat⟩

/-- (DST_ADDR, SRC_LEN), the output range of GCMENC and GCMDEC (R289). -/
def textOutRange (s : State) : BufRange := ⟨s.dstAddr.toNat, s.srcLen.toNat⟩

/-- (AAD_ADDR, AAD_LEN). -/
def aadRange (s : State) : BufRange := ⟨s.aadAddr.toNat, s.aadLen.toNat⟩

/-- (IV_ADDR, IV_LEN). -/
def ivRange (s : State) : BufRange := ⟨s.ivAddr.toNat, s.ivLen.toNat⟩

/-- The bytes a range names. -/
def readRange (s : State) (r : BufRange) : Bytes := memRead s r.addr r.len

/-- The offset of SRC_ADDR, ERRPARAM of a bad source range (R340). -/
def offSrcAddr : Word := 0x020
/-- The offset of DST_ADDR (R340). -/
def offDstAddr : Word := 0x028
/-- The offset of OUT_LEN (R340). -/
def offOutLen : Word := 0x02C
/-- The offset of AAD_ADDR (R340). -/
def offAadAddr : Word := 0x030
/-- The offset of IV_ADDR (R340). -/
def offIvAddr : Word := 0x038
/-- The offset of IV_LEN (R340). -/
def offIvLen : Word := 0x03C
/-- The offset of SPONGE_CFG (R340). -/
def offSpongeCfg : Word := 0x040
/-- The offset of AES_CFG (R340). -/
def offAesCfg : Word := 0x044
/-- The offset of AES_NR (R340). -/
def offAesNr : Word := 0x048
/-- The offset of GCM_CFG (R340). -/
def offGcmCfg : Word := 0x04C
/-- The offset of CMD (R340). -/
def offCmd : Word := 0x008
/-- The offset of GCM_TAGX (R340). -/
def offGcmTagx : Word := 0x110

/-- The check of a range, failing BAD_RANGE with the offset of its `_ADDR` register (R104). -/
def rangeCheck (r : BufRange) (param : Word) : Bool × CmdError := (r.valid, ⟨.badRange, param⟩)

/-- The text ranges are identical or disjoint, or empty (R290). -/
def textRangesOk (s : State) : Bool :=
  decide (s.srcLen.toNat = 0 ∨ s.srcAddr = s.dstAddr
    ∨ s.srcAddr.toNat + s.srcLen.toNat ≤ s.dstAddr.toNat
    ∨ s.dstAddr.toNat + s.srcLen.toNat ≤ s.srcAddr.toNat)

/-- RATE is one of 8, 16, …, 192 (R182). -/
def rateLegal (s : State) : Bool :=
  decide (0 < s.rate.toNat ∧ s.rate.toNat < 200 ∧ s.rate.toNat % 8 = 0)

/-- SUFFIX is in 0x01 to 0x7F (R182). -/
def suffixLegal (s : State) : Bool := decide (0x01 ≤ s.suffix.toNat ∧ s.suffix.toNat ≤ 0x7F)

/-- KEYLEN is 16, 24 or 32 (R260). -/
def keyLenLegal (s : State) : Bool :=
  decide (s.keyLen.toNat = 16 ∨ s.keyLen.toNat = 24 ∨ s.keyLen.toNat = 32)

/-- TAG_LEN is 4, 8, 12, 13, 14, 15 or 16 (R301). -/
def tagLenLegal (s : State) : Bool :=
  decide (s.tagLen.toNat = 4 ∨ s.tagLen.toNat = 8 ∨ (12 ≤ s.tagLen.toNat ∧ s.tagLen.toNat ≤ 16))

/-- The key that AKEY reads, `KEY[0 .. KEYLEN)` (R59). -/
def keyBytes (s : State) : Bytes := s.key.toList.take s.keyLen.toNat

/-- The check of the commands that need a loaded key (R262, R291). -/
def keyedCheck (s : State) : Bool × CmdError := (s.keyed, ⟨.notKeyed, offAesNr⟩)

/-- The output range in BUF of the command a word names, if it has one: R383 gives it for KSPONGE,
GCMENC and GCMDEC. -/
def outputRange (w : Word) (s : State) : Option BufRange :=
  match decode w with
  | .ok .ksponge => some (spongeOutRange s)
  | .ok .gcmenc => some (textOutRange s)
  | .ok .gcmdec => some (textOutRange s)
  | .ok .nop => none
  | .ok .kzero => none
  | .ok .kperm => none
  | .ok (.kround _) => none
  | .ok .akey => none
  | .ok .aenc => none
  | .ok .gmul => none
  | .ok .ghash => none
  | .error _ => none

end Sys2Proof.Machine
end

