-- ==== Sys2Proof/Machine/Flags.lean ====
section
/-!
DEFINITION. STATUS as a word, its write-one-to-clear bits, and the interrupt output
(`10_state.md` R45 to R51, R90; `60_exceptions.md` R340, R360).
-/

namespace Sys2Proof.Machine

/-- The number of an error code, STATUS[15:8] (R340). -/
def ErrCode.toByte : ErrCode → Byte
  | .none => 0
  | .illegalCmd => 1
  | .badRound => 2
  | .badRate => 3
  | .badSuffix => 4
  | .badOutLen => 5
  | .badRange => 6
  | .overlap => 7
  | .badKeyLen => 8
  | .notKeyed => 9
  | .badIvLen => 10
  | .badTagLen => 11
  | .authFail => 12

/-- A flag as bit `k` of a word. -/
def flagBit (k : Nat) (b : Bool) : Word := if b then 1#32 <<< k else 0#32

/-- The STATUS word (R45). -/
def statusWord (s : State) : Word :=
  flagBit 0 s.busy ||| flagBit 1 s.done ||| flagBit 2 s.err ||| flagBit 3 s.ovr
    ||| flagBit 4 s.keyed ||| flagBit 5 s.authOk ||| (s.errCode.toByte.setWidth 32 <<< 8)

/-- The CTRL word; SRST reads 0 (R42, R43). -/
def ctrlWord (s : State) : Word := flagBit 0 s.ie ||| flagBit 1 s.compat

/-- A write of `v` to STATUS: 1 clears DONE (bit 1), ERR with ERRCODE and ERRPARAM (bit 2) and OVR
(bit 3), and nothing else is written (R45, R47, R48, R49). -/
def writeStatus (v : Word) (s : State) : State :=
  let s := if v.getLsbD 1 then { s with done := false } else s
  let s := if v.getLsbD 2 then acknowledgeError s else s
  if v.getLsbD 3 then { s with ovr := false } else s

/-- IRQ, level-sensitive and active high: `IE & (DONE | OVR)` (R360). -/
def irq (s : State) : Bool := s.ie && (s.done || s.ovr)

/-- The block's contribution to the platform's interrupt input `line` (R360; U8). -/
def irqOnLine (s : State) (line : Nat) : Bool := decide (line = Config.irqLine) && irq s

end Sys2Proof.Machine
end

