-- ==== Sys2Proof/Machine/Control.lean ====
section
/-!
DEFINITION. The control family: NOP (`44_control.md` R330), and soft and power-on reset
(`70_reset_and_hazards.md` R380 to R383).
-/

namespace Sys2Proof.Machine

/-- NOP: no effect, and a full completion (R330, R136). -/
def execNop (s : State) : Host.Outcome State Fault Refusal := commit (fun s => s) s

/-- BUF after a soft reset: kept, but for the output range of a command it aborts (R382, R383). -/
def bufAfterReset (s : State) : Memory :=
  match s.latch with
  | none => s.buf
  | some l =>
    match outputRange l.word s with
    | none => s.buf
    | some r => s.buf.scramble s.draws r.addr r.len

/-- Soft reset: every element but BUF takes its power-on value, a pending command is discarded
(R382, R383). The events to come and the last response are the bus's, not the block's. -/
def softReset (s : State) : State :=
  { State.reset with
    buf := bufAfterReset s
    bufDraw := s.bufDraw
    draws := s.draws + 1
    events := s.events
    response := s.response }

/-- Power-on reset after a loss of power (R371, R380): BUF is unspecified anew (R381). -/
def powerOnReset (s : State) : State :=
  { State.reset with bufDraw := s.draws, draws := s.draws + 1, events := s.events }

end Sys2Proof.Machine
end

