-- ==== Sys2Proof/Machine/Bus.lean ====
section
/-!
DEFINITION. The bus interface: the register map (`10_state.md`), reads and writes of the window
(`20_memory.md`), and the host's transitions (`44_control.md` R320).
-/

namespace Sys2Proof.Machine

/-- ID always reads 0x4B414745 (R41). -/
def idValue : Word := 0x4B414745

/-- The byte registers of the map, each a window of bytes (`10_state.md` section 4 and R70). -/
inductive ByteReg where
  | key | blkIn | blkOut | gcmH | gcmS | gcmJ0 | gcmCtr | gcmTag | gcmTagx | rk
  deriving DecidableEq, Repr

/-- What an aligned offset of the window names (the register map of `10_state.md`). -/
inductive Target where
  | id | ctrl | cmd | status | errParam | lastCmd
  | srcAddr | srcLen | dstAddr | outLen | aadAddr | aadLen | ivAddr | ivLen
  | spongeCfg | aesCfg | aesNr | gcmCfg
  /-- The word from byte `k` on of a byte register. -/
  | bytes (r : ByteReg) (k : Nat)
  /-- Word `w` of KSTATE. -/
  | kstate (w : Nat)
  /-- The word from byte `a` on of BUF. -/
  | buf (a : Nat)
  | reserved
  deriving DecidableEq, Repr

/-- The word registers of the map, with their offsets. -/
def wordRegisters : List (Nat × Target) :=
  [(0x000, .id), (0x004, .ctrl), (0x008, .cmd), (0x00C, .status), (0x010, .errParam),
    (0x014, .lastCmd)]
  ++ [(0x020, .srcAddr), (0x024, .srcLen), (0x028, .dstAddr), (0x02C, .outLen), (0x030, .aadAddr),
    (0x034, .aadLen), (0x038, .ivAddr), (0x03C, .ivLen)]
  ++ [(0x040, .spongeCfg), (0x044, .aesCfg), (0x048, .aesNr), (0x04C, .gcmCfg)]

/-- The windows of the byte registers: first offset, size in bytes, register. -/
def byteWindows : List (Nat × Nat × ByteReg) :=
  [(0x080, 32, .key), (0x0A0, 16, .blkIn), (0x0B0, 16, .blkOut), (0x0C0, 16, .gcmH),
    (0x0D0, 16, .gcmS), (0x0E0, 16, .gcmJ0), (0x0F0, 16, .gcmCtr), (0x100, 16, .gcmTag),
    (0x110, 16, .gcmTagx), (0x300, 240, .rk)]

/-- What the aligned offset `off` of the window names. -/
def target (off : Nat) : Target :=
  if Config.bufOffset ≤ off then .buf (off - Config.bufOffset)
  else if 0x200 ≤ off ∧ off < 0x2C8 then .kstate ((off - 0x200) / 4)
  else match wordRegisters.find? (fun p => p.1 == off) with
    | some p => p.2
    | none =>
      match byteWindows.find? (fun p => decide (p.1 ≤ off ∧ off < p.1 + p.2.1)) with
      | some p => .bytes p.2.2 (off - p.1)
      | none => .reserved

/-- Byte `k` of a byte register. -/
def regByte (s : State) (r : ByteReg) (k : Nat) : Byte :=
  match r with
  | .key => byteAt s.key k
  | .blkIn => byteAt s.blkIn k
  | .blkOut => byteAt s.blkOut k
  | .gcmH => byteAt s.gcmH k
  | .gcmS => byteAt s.gcmS k
  | .gcmJ0 => byteAt s.gcmJ0 k
  | .gcmCtr => byteAt s.gcmCtr k
  | .gcmTag => byteAt s.gcmTag k
  | .gcmTagx => byteAt s.gcmTagx k
  | .rk => byteAt s.rk k

/-- A write of `bs` from byte `k` on of a byte register; the read-only ones ignore it. -/
def writeByteReg (s : State) (r : ByteReg) (k : Nat) (bs : Bytes) : State :=
  match r with
  | .key => { s with key := setBytes s.key k bs }
  | .blkIn => { s with blkIn := setBytes s.blkIn k bs }
  | .gcmH => { s with gcmH := setBytes s.gcmH k bs }
  | .gcmS => { s with gcmS := setBytes s.gcmS k bs }
  | .gcmTagx => { s with gcmTagx := setBytes s.gcmTagx k bs }
  | .blkOut => s
  | .gcmJ0 => s
  | .gcmCtr => s
  | .gcmTag => s
  | .rk => s

/-- The word that a read of the target gives while the block is idle, and below 0x080 while it is
busy too (R100, R107, R108). -/
def readTarget (s : State) : Target → Word
  | .id => idValue
  | .ctrl => ctrlWord s
  | .cmd => 0
  | .status => statusWord s
  | .errParam => s.errParam
  | .lastCmd => s.lastCmd
  | .srcAddr => s.srcAddr
  | .srcLen => s.srcLen
  | .dstAddr => s.dstAddr
  | .outLen => s.outLen
  | .aadAddr => s.aadAddr
  | .aadLen => s.aadLen
  | .ivAddr => s.ivAddr
  | .ivLen => s.ivLen
  | .spongeCfg => s.rate.setWidth 32 ||| (s.suffix.setWidth 32 <<< 8)
  | .aesCfg => s.keyLen.setWidth 32
  | .aesNr => s.nr.setWidth 32
  | .gcmCfg => s.tagLen.setWidth 32
  | .bytes r k => leWord (regByte s r) k
  | .kstate w => ksWord s.ks w
  | .buf a => leWord (bufByte s) a
  | .reserved => 0

/-- A write of `v` to the target while the block is idle, "as the register map gives" (R320);
read-only registers and reserved offsets ignore it (R108). CTRL, STATUS and CMD are not stored to:
`hostWrite` takes their writes. -/
def writeTarget (s : State) (v : Word) : Target → State
  | .srcAddr => { s with srcAddr := v }
  | .srcLen => { s with srcLen := v }
  | .dstAddr => { s with dstAddr := v }
  | .outLen => { s with outLen := v }
  | .aadAddr => { s with aadAddr := v }
  | .aadLen => { s with aadLen := v }
  | .ivAddr => { s with ivAddr := v }
  | .ivLen => { s with ivLen := v }
  | .spongeCfg => { s with rate := v.extractLsb' 0 8, suffix := v.extractLsb' 8 8 }
  | .aesCfg => { s with keyLen := v.extractLsb' 0 6 }
  | .gcmCfg => { s with tagLen := v.extractLsb' 0 5 }
  | .bytes r k => writeByteReg s r k (wordBytes v)
  | .kstate w => { s with ks := setKsWord s.ks w v }
  | .buf a => memWrite s a (wordBytes v)
  | .id => s
  | .ctrl => s
  | .cmd => s
  | .status => s
  | .errParam => s
  | .lastCmd => s
  | .aesNr => s
  | .reserved => s

/-- A write to CTRL: the strobe SRST, or else IE and COMPAT (R42, R43). -/
def writeCtrl (v : Word) (s : State) : State :=
  if v.getLsbD 31 then softReset s else { s with ie := v.getLsbD 0, compat := v.getLsbD 1 }

/-- `host_write(off, v)` of R320, for an aligned offset of the window. -/
def hostWrite (off : Nat) (v : Word) (s : State) : State :=
  if off = 0x004 then writeCtrl v s
  else if off = 0x00C then writeStatus v s
  else if s.busy then { s with ovr := true }
  else if off = 0x008 then accept v s
  else writeTarget s v (target off)

/-- A read of an aligned offset of the window: the word and the state after it. Only the
unspecified read of R107 takes a draw; no read changes the block (R109). -/
def hostRead (off : Nat) (s : State) : Word × State :=
  if s.busy && decide (Config.busyReadOffset ≤ off) then
    (Config.busyRead s.draws, { s with draws := s.draws + 1 })
  else (readTarget s (target off), s)

/-- Whether an access is an aligned 32-bit one; any other is a bus error (R101). -/
def accessLegal (off width : Nat) : Bool := decide (width = 4 ∧ off % 4 = 0)

/-- A bus access: outside the window it does not reach the block; of a wrong width or misaligned
it gets the error response, the signal `BUS_ERROR_RESPONSE` (U6), and changes nothing; else it is
performed (R101). -/
def busAccess (off width : Nat) (perform : State → State) (s : State) :
    Host.Outcome State Fault Refusal :=
  if Config.windowSize ≤ off then .refused (.outsideWindow off)
  else if accessLegal off width then .next (perform s)
  else .next { s with response := .busError Config.busErrorResponse }

/-- A bus read (R101, R107). -/
def busRead (off width : Nat) : State → Host.Outcome State Fault Refusal :=
  busAccess off width fun s => { (hostRead off s).2 with response := .data (hostRead off s).1 }

/-- A bus write (R101, R320). -/
def busWrite (off width : Nat) (v : Word) : State → Host.Outcome State Fault Refusal :=
  busAccess off width fun s => { hostWrite off v s with response := .written }

/-- The offset of a bus address in the block's window, if it lies there (R110). -/
def windowOffset (addr : Nat) : Option Nat :=
  if Config.base ≤ addr ∧ addr < Config.base + Config.windowSize then some (addr - Config.base)
  else none

end Sys2Proof.Machine
end

