-- ==== Sys2Proof/Machine/Aes.lean ====
section
/-!
DEFINITION. The AES family (`42_aes.md`): GF(2^8), the key expansion, the forward cipher, and the
commands AKEY and AENC.
-/

namespace Sys2Proof.Machine

/-! ### Field and constants -/

/-- `xtime(a)`, multiplication by x in GF(2^8) (R240). -/
def xtime (a : Byte) : Byte := (a <<< 1) ^^^ (if a.getLsbD 7 then 0x1B else 0)

/-- `m • a` in GF(2^8): the sum of `a·x^k` over the bits `k` of `m` (R240). -/
def gf8Mul (m a : Byte) : Byte :=
  ((List.range 8).foldl
    (fun (p : Byte × Byte) k => (if m.getLsbD k then p.1 ^^^ p.2 else p.1, xtime p.2)) (0, a)).1

/-- The rows of the S-box table, a ROM constant (R241, R74). -/
def sboxRows : List (List Byte) :=
  [[0x63, 0x7C, 0x77, 0x7B, 0xF2, 0x6B, 0x6F, 0xC5, 0x30, 0x01, 0x67, 0x2B, 0xFE, 0xD7, 0xAB, 0x76],
   [0xCA, 0x82, 0xC9, 0x7D, 0xFA, 0x59, 0x47, 0xF0, 0xAD, 0xD4, 0xA2, 0xAF, 0x9C, 0xA4, 0x72, 0xC0],
   [0xB7, 0xFD, 0x93, 0x26, 0x36, 0x3F, 0xF7, 0xCC, 0x34, 0xA5, 0xE5, 0xF1, 0x71, 0xD8, 0x31, 0x15],
   [0x04, 0xC7, 0x23, 0xC3, 0x18, 0x96, 0x05, 0x9A, 0x07, 0x12, 0x80, 0xE2, 0xEB, 0x27, 0xB2, 0x75]]
  ++
  [[0x09, 0x83, 0x2C, 0x1A, 0x1B, 0x6E, 0x5A, 0xA0, 0x52, 0x3B, 0xD6, 0xB3, 0x29, 0xE3, 0x2F, 0x84],
   [0x53, 0xD1, 0x00, 0xED, 0x20, 0xFC, 0xB1, 0x5B, 0x6A, 0xCB, 0xBE, 0x39, 0x4A, 0x4C, 0x58, 0xCF],
   [0xD0, 0xEF, 0xAA, 0xFB, 0x43, 0x4D, 0x33, 0x85, 0x45, 0xF9, 0x02, 0x7F, 0x50, 0x3C, 0x9F, 0xA8],
   [0x51, 0xA3, 0x40, 0x8F, 0x92, 0x9D, 0x38, 0xF5, 0xBC, 0xB6, 0xDA, 0x21, 0x10, 0xFF, 0xF3, 0xD2]]
  ++
  [[0xCD, 0x0C, 0x13, 0xEC, 0x5F, 0x97, 0x44, 0x17, 0xC4, 0xA7, 0x7E, 0x3D, 0x64, 0x5D, 0x19, 0x73],
   [0x60, 0x81, 0x4F, 0xDC, 0x22, 0x2A, 0x90, 0x88, 0x46, 0xEE, 0xB8, 0x14, 0xDE, 0x5E, 0x0B, 0xDB],
   [0xE0, 0x32, 0x3A, 0x0A, 0x49, 0x06, 0x24, 0x5C, 0xC2, 0xD3, 0xAC, 0x62, 0x91, 0x95, 0xE4, 0x79],
   [0xE7, 0xC8, 0x37, 0x6D, 0x8D, 0xD5, 0x4E, 0xA9, 0x6C, 0x56, 0xF4, 0xEA, 0x65, 0x7A, 0xAE, 0x08]]
  ++
  [[0xBA, 0x78, 0x25, 0x2E, 0x1C, 0xA6, 0xB4, 0xC6, 0xE8, 0xDD, 0x74, 0x1F, 0x4B, 0xBD, 0x8B, 0x8A],
   [0x70, 0x3E, 0xB5, 0x66, 0x48, 0x03, 0xF6, 0x0E, 0x61, 0x35, 0x57, 0xB9, 0x86, 0xC1, 0x1D, 0x9E],
   [0xE1, 0xF8, 0x98, 0x11, 0x69, 0xD9, 0x8E, 0x94, 0x9B, 0x1E, 0x87, 0xE9, 0xCE, 0x55, 0x28, 0xDF],
   [0x8C, 0xA1, 0x89, 0x0D, 0xBF, 0xE6, 0x42, 0x68, 0x41, 0x99, 0x2D, 0x0F, 0xB0, 0x54, 0xBB, 0x16]]

/-- `SBOX[a]`: row the high nibble, column the low nibble (R241). -/
def sbox (a : Byte) : Byte := (sboxRows.getD (a.toNat / 16) []).getD (a.toNat % 16) 0

/-- `a^(-1)` in GF(2^8), and 0 for 0, by "exponentiation" (R242): `a^254`, reached from `a^2` by
`p ↦ p^2·a^2` six times. -/
def gf8Inv (a : Byte) : Byte :=
  (List.range 6).foldl
    (fun (p : Byte) _ => gf8Mul (gf8Mul p p) (gf8Mul a a)) (gf8Mul a a)

/-- The construction of the S-box (R242). The block holds the table and does not run this. -/
def generatedSbox (a : Byte) : Byte :=
  let b := gf8Inv a
  b ^^^ b.rotateLeft 1 ^^^ b.rotateLeft 2 ^^^ b.rotateLeft 3 ^^^ b.rotateLeft 4 ^^^ 0x63

/-- `Rcon[1..10]`, a ROM constant (R243, R74). -/
def rconTable : List Byte := [0x01, 0x02, 0x04, 0x08, 0x10, 0x20, 0x40, 0x80, 0x1B, 0x36]

/-- `Rcon[j]` (R243). -/
def rcon (j : Nat) : Byte := rconTable.getD (j - 1) 0

/-! ### Key expansion -/

/-- A 4-byte word `[a0, a1, a2, a3]` of the key schedule (R245). -/
structure AesWord where
  a0 : Byte
  a1 : Byte
  a2 : Byte
  a3 : Byte
  deriving DecidableEq, Repr

/-- `RotWord` (R245). -/
def rotWord (a : AesWord) : AesWord := ⟨a.a1, a.a2, a.a3, a.a0⟩

/-- `SubWord` (R245). -/
def subWord (a : AesWord) : AesWord := ⟨sbox a.a0, sbox a.a1, sbox a.a2, sbox a.a3⟩

/-- Bytewise XOR of words (R245). -/
def xorWord (a b : AesWord) : AesWord := ⟨a.a0 ^^^ b.a0, a.a1 ^^^ b.a1, a.a2 ^^^ b.a2, a.a3 ^^^ b.a3⟩

/-- The all-zero word. -/
def zeroWord : AesWord := ⟨0, 0, 0, 0⟩

/-- The bytes of a word, byte 0 first (R247). -/
def aesWordBytes (a : AesWord) : Bytes := [a.a0, a.a1, a.a2, a.a3]

/-- `K[4i .. 4i+4)` as a word (R246). -/
def keyWord (k : Bytes) (i : Nat) : AesWord :=
  ⟨k.getD (4 * i) 0, k.getD (4 * i + 1) 0, k.getD (4 * i + 2) 0, k.getD (4 * i + 3) 0⟩

/-- The temporary `t` of R246 for word `i`, made from the word before it. -/
def scheduleTemp (nk i : Nat) (prev : AesWord) : AesWord :=
  if i % nk = 0 then xorWord (subWord (rotWord prev)) ⟨rcon (i / nk), 0, 0, 0⟩
  else if nk = 8 ∧ i % 8 = 4 then subWord prev
  else prev

/-- One iteration of R246: word `i` put after the words `w[0 .. i)`. -/
def scheduleStep (nk : Nat) (w : List AesWord) (i : Nat) : List AesWord :=
  w ++ [xorWord (w.getD (i - nk) zeroWord) (scheduleTemp nk i (w.getD (i - 1) zeroWord))]

/-- `KeyExpansion(K)` for a key of `4·nk` bytes: the words `w[0 .. 4(Nr+1))`, Nr = nk + 6 (R244, R246). -/
def keyExpansion (nk : Nat) (k : Bytes) : List AesWord :=
  (List.range' nk (4 * (nk + 7) - nk)).foldl (scheduleStep nk) ((List.range nk).map (keyWord k))

/-- The expanded key as bytes, `w[j]` at `[4j .. 4j+4)` (R247). -/
def scheduleBytes (w : List AesWord) : Bytes := w.flatMap aesWordBytes

/-! ### The forward cipher; the state is the 16-byte string `s[r + 4c]` (R249) -/

/-- AddRoundKey(r) (R248). -/
def addRoundKey (rk : Vector Byte 240) (r : Nat) (s : Block) : Block :=
  tabulate 16 fun k => byteAt s k ^^^ byteAt rk (16 * r + k)

/-- SubBytes (R250). -/
def subBytes (s : Block) : Block := tabulate 16 fun k => sbox (byteAt s k)

/-- ShiftRows: `s'[r + 4c] = s[r + 4·((c + r) mod 4)]` (R251). -/
def shiftRows (s : Block) : Block :=
  tabulate 16 fun k => byteAt s (k % 4 + 4 * ((k / 4 + k % 4) % 4))

/-- The fixed matrix of MixColumns, row by row (R252). -/
def mixMatrix : List (List Byte) := [[2, 3, 1, 1], [1, 2, 3, 1], [1, 1, 2, 3], [3, 1, 1, 2]]

/-- Row `r` of the matrix times the column `(a0, a1, a2, a3)` (R252). -/
def mixRow (r : Nat) (a0 a1 a2 a3 : Byte) : Byte :=
  let m := mixMatrix.getD r []
  gf8Mul (m.getD 0 0) a0 ^^^ gf8Mul (m.getD 1 0) a1 ^^^ gf8Mul (m.getD 2 0) a2
    ^^^ gf8Mul (m.getD 3 0) a3

/-- MixColumns (R252). -/
def mixColumns (s : Block) : Block :=
  tabulate 16 fun k =>
    let c := 4 * (k / 4)
    mixRow (k % 4) (byteAt s c) (byteAt s (c + 1)) (byteAt s (c + 2)) (byteAt s (c + 3))

/-- A round between the first key addition and the final round (R253). -/
def middleRound (rk : Vector Byte 240) (s : Block) (r : Nat) : Block :=
  addRoundKey rk r (mixColumns (shiftRows (subBytes s)))

/-- `Cipher(in, RK, Nr)` (R253). -/
def cipher (input : Block) (rk : Vector Byte 240) (nr : Nat) : Block :=
  let s := (List.range' 1 (nr - 1)).foldl (middleRound rk) (addRoundKey rk 0 input)
  addRoundKey rk nr (shiftRows (subBytes s))

/-- `E(X)` under the loaded key schedule (`43_gcm.md` R280). -/
def encryptBlock (s : State) (x : Block) : Block := cipher x s.rk s.nr.toNat

/-! ### The commands -/

/-- Nk, the key length in 4-byte words (R244). -/
def keyWords (s : State) : Nat := s.keyLen.toNat / 4

/-- The state with the key loaded: RK with a zero tail, NR and KEYED (R70, R71, R260). -/
def loadKey (s : State) : State :=
  { s with
    rk := ofBytes 240 (scheduleBytes (keyExpansion (keyWords s) (keyBytes s)))
    nr := BitVec.ofNat 4 (keyWords s + 6)
    keyed := true }

/-- AKEY: BAD_KEYLEN for a key length other than 16, 24 and 32, else expand and load (R260, R261). -/
def execAkey (s : State) : Host.Outcome State Fault Refusal :=
  guarded [(keyLenLegal s, ⟨.badKeyLen, offAesCfg⟩)] (commit loadKey) s

/-- `BLK_OUT <- Cipher(BLK_IN, RK, NR)` (R262). -/
def aencEffect (s : State) : State := { s with blkOut := encryptBlock s s.blkIn }

/-- AENC: NOT_KEYED without a loaded key, else one block (R262). -/
def execAenc (s : State) : Host.Outcome State Fault Refusal :=
  guarded [keyedCheck s] (commit aencEffect) s

end Sys2Proof.Machine
end

