-- ==== Sys2Proof/Machine/Ghash.lean ====
section
/-!
DEFINITION. The GHASH family (`41_ghash.md`): the GF(2^128) multiplier, the GHASH function, and the
commands GMUL and GHASH.
-/

namespace Sys2Proof.Machine

/-- `R = 0xE1 << 120`, the reduction constant (R221). -/
def gfReduction : BitVec 128 := 0xE1#128 <<< 120

/-- `V * x` in GF(2^128): the shift of R221, reduced when a bit is shifted out. -/
def gfShift (v : BitVec 128) : BitVec 128 :=
  if v.getLsbD 0 then (v >>> 1) ^^^ gfReduction else v >>> 1

/-- One of the 128 iterations of R221 on (Z, V): block bit `k` of `x` is integer bit 127 - k. -/
def gfIteration (x : BitVec 128) (zv : BitVec 128 × BitVec 128) (k : Nat) :
    BitVec 128 × BitVec 128 :=
  (if x.getLsbD (127 - k) then zv.1 ^^^ zv.2 else zv.1, gfShift zv.2)

/-- The multiplication of R221 on integers. -/
def gfMultInt (x y : BitVec 128) : BitVec 128 :=
  ((List.range 128).foldl (gfIteration x) (0, y)).1

/-- `gf_mult(X, Y)` (R221). -/
def gfMult (x y : Block) : Block := intBlock (gfMultInt (blockInt x) (blockInt y))

/-- The number of 16-byte blocks of a byte string, `ceil(len/16)`. -/
def blockCount (data : Bytes) : Nat := (data.length + 15) / 16

/-- Block `j` of a byte string, a partial last one zero-padded on the right (R223, R224). -/
def paddedBlock (data : Bytes) (j : Nat) : Block := ofBytes 16 ((data.drop (16 * j)).take 16)

/-- `ghash(H, data, S)` (R223). -/
def ghash (h : Block) (data : Bytes) (acc : Block) : Block :=
  (List.range (blockCount data)).foldl
    (fun acc j => gfMult (xorBlock acc (paddedBlock data j)) h) acc

/-- `S <- gf_mult(S, H)` (R226). -/
def gmulEffect (s : State) : State := { s with gcmS := gfMult s.gcmS s.gcmH }

/-- `S <- ghash(H, SRC, S)` (R228). -/
def ghashEffect (s : State) : State :=
  { s with gcmS := ghash s.gcmH (readRange s (srcRange s)) s.gcmS }

/-- GMUL (R226). -/
def execGmul (s : State) : Host.Outcome State Fault Refusal := commit gmulEffect s

/-- GHASH: BAD_RANGE for an invalid source range, else the hash (R228). -/
def execGhash (s : State) : Host.Outcome State Fault Refusal :=
  guarded [rangeCheck (srcRange s) offSrcAddr] (commit ghashEffect) s

end Sys2Proof.Machine
end

