-- ==== Sys2Proof/Machine/Gcm.lean ====
section
/-!
DEFINITION. The GCM family (`43_gcm.md`): J0, the counter, GCTR, the tag, and the commands GCMENC
and GCMDEC.
-/

namespace Sys2Proof.Machine

/-! ### Building blocks -/

/-- `X[12..16)` as a big-endian integer (R283). -/
def counterOf (x : Block) : Word := byteAt x 12 ++ byteAt x 13 ++ byteAt x 14 ++ byteAt x 15

/-- `inc32(X)`: the last four bytes, a big-endian integer, incremented mod 2^32 (R283). -/
def inc32 (x : Block) : Block :=
  tabulate 16 fun k =>
    if k < 12 then byteAt x k else (counterOf x + 1).extractLsb' (8 * (15 - k)) 8

/-- The zero bytes that make a byte string of `n` bytes whole blocks: `(16 - n mod 16) mod 16` of
them (R282, R288). -/
def zeroPad (n : Nat) : Bytes := List.replicate ((16 - n % 16) % 16) 0

/-- J0 for an IV under the hash subkey `h` (R282). -/
def initialCounter (h : Block) (iv : Bytes) : Block :=
  if iv.length = 12 then ofBytes 16 (iv ++ [0, 0, 0, 1])
  else ghash h (iv ++ zeroPad iv.length ++ List.replicate 8 0 ++ be64 (8 * iv.length)) zeroBlock

/-- One block of GCTR: the output so far and the counter block, advanced by block `j` of `x` (R284, R285). -/
def gctrStep (e : Block → Block) (x : Bytes) (yc : Bytes × Block) (j : Nat) : Bytes × Block :=
  (yc.1 ++ xorBytes ((x.drop (16 * j)).take 16) (e yc.2).toList, inc32 yc.2)

/-- `GCTR(ICB, X)`: the output and the counter block after the last one used (R284). -/
def gctr (e : Block → Block) (icb : Block) (x : Bytes) : Bytes × Block :=
  (List.range (blockCount x)).foldl (gctrStep e x) ([], icb)

/-- The length block L: the bit lengths of the AAD and of the ciphertext (R287). -/
def lengthBlock (a c : Bytes) : Bytes := be64 (8 * a.length) ++ be64 (8 * c.length)

/-- S, the GHASH over `A || 0^u || C || 0^v || L` (R288). -/
def gcmHash (h : Block) (a c : Bytes) : Block :=
  ghash h (a ++ zeroPad a.length ++ c ++ zeroPad c.length ++ lengthBlock a c) zeroBlock

/-- `ct_equal(a, b)`, plain equality in an untimed model (R305). -/
def ctEqual (a b : Bytes) : Bool := a == b

/-! ### Checks -/

/-- Checks 1 to 7 of GCMENC, in order (R291); GCMDEC starts with the same ones (R300). -/
def gcmChecks (s : State) : List (Bool × CmdError) :=
  [keyedCheck s,
    (decide (1 ≤ s.ivLen.toNat), ⟨.badIvLen, offIvLen⟩),
    rangeCheck (ivRange s) offIvAddr,
    rangeCheck (aadRange s) offAadAddr,
    rangeCheck (srcRange s) offSrcAddr,
    rangeCheck (textOutRange s) offDstAddr,
    (textRangesOk s, ⟨.overlap, offDstAddr⟩)]

/-- Check 8 of GCMDEC, made only when the latched COMPAT is 0 (R300, R301). -/
def tagLenCheck (s : State) : Bool × CmdError :=
  (latchedCompat s || tagLenLegal s, ⟨.badTagLen, offGcmCfg⟩)

/-! ### The values a GCM command computes -/

/-- `H = E(0^16)` (R281). -/
def gcmSubkey (s : State) : Block := encryptBlock s zeroBlock

/-- J0 with the operands that `s` holds (R282, R289). -/
def gcmJ0Of (s : State) : Block := initialCounter (gcmSubkey s) (readRange s (ivRange s))

/-- GCTR over the text at SRC, from `inc32(J0)`: the output text and the final counter (R284). -/
def gcmText (s : State) : Bytes × Block :=
  gctr (encryptBlock s) (inc32 (gcmJ0Of s)) (readRange s (srcRange s))

/-- S over the AAD and the ciphertext `c` (R288). -/
def gcmHashOf (s : State) (c : Bytes) : Block :=
  gcmHash (gcmSubkey s) (readRange s (aadRange s)) c

/-- `T = E(J0) ^ S` (R288). -/
def gcmTagOf (s : State) (c : Bytes) : Block :=
  xorBlock (encryptBlock s (gcmJ0Of s)) (gcmHashOf s c)

/-- The state with what both GCM commands commit, for the ciphertext `c`: GCM_H, GCM_J0, GCM_S,
GCM_CTR and the output text at DST (R292, R302). -/
def gcmCommit (c : Bytes) (s : State) : State :=
  { memWrite s s.dstAddr.toNat (gcmText s).1 with
    gcmH := gcmSubkey s
    gcmJ0 := gcmJ0Of s
    gcmS := gcmHashOf s c
    gcmCtr := (gcmText s).2 }

/-! ### The commands -/

/-- What GCMENC commits: the ciphertext is the output of GCTR, GCM_TAG takes the full tag (R292). -/
def gcmencEffect (s : State) : State :=
  { gcmCommit (gcmText s).1 s with gcmTag := gcmTagOf s (gcmText s).1 }

/-- What GCMDEC commits: the ciphertext is the text at SRC, AUTH_OK is set (R302, R303). -/
def gcmdecEffect (s : State) : State :=
  { gcmCommit (readRange s (srcRange s)) s with authOk := true }

/-- GCMENC (R291, R292). -/
def execGcmenc (s : State) : Host.Outcome State Fault Refusal :=
  guarded (gcmChecks s) (commit gcmencEffect) s

/-- The comparison of GCMDEC on the first TAG_LEN bytes, skipped when the latched COMPAT is 1
(R302, R303, R304). The ciphertext is the text at SRC. -/
def tagCheck (s : State) : Bool × CmdError :=
  (latchedCompat s
      || ctEqual ((gcmTagOf s (readRange s (srcRange s))).toList.take s.tagLen.toNat)
        (s.gcmTagx.toList.take s.tagLen.toNat),
    ⟨.authFail, offGcmTagx⟩)

/-- GCMDEC: verified decryption when the latched COMPAT is 0 (R302), source-compatible decryption
when it is 1 (R303); AUTH_FAIL commits nothing (R304). -/
def execGcmdec (s : State) : Host.Outcome State Fault Refusal :=
  guarded (gcmChecks s ++ [tagLenCheck s]) (fun s => guarded [tagCheck s] (commit gcmdecEffect) s) s

end Sys2Proof.Machine
end

