-- ==== Sys2Proof/Machine/Keccak.lean ====
section
/-!
DEFINITION. The Keccak family (`40_keccak.md`): the round steps, the permutation, the sponge, and
the commands KZERO, KPERM, KROUND and KSPONGE.
-/

namespace Sys2Proof.Machine

/-! ### Rotation -/

/-- `rotl64(v, n)` for 0 ≤ n < 64 (`00_scope.md` R14). -/
def rotl64 (v : Lane) (n : Nat) : Lane := if n = 0 then v else (v <<< n) ||| (v >>> (64 - n))

/-- `rotl_pair((lo, hi), n)` for 0 ≤ n < 64, on 32-bit halves (R163): the form the source computes. -/
def rotlPair (lo hi : Word) (n : Nat) : Word × Word :=
  if n = 0 then (lo, hi)
  else if n < 32 then ((lo <<< n) ||| (hi >>> (32 - n)), (hi <<< n) ||| (lo >>> (32 - n)))
  else if n = 32 then (hi, lo)
  else
    let m := n - 32
    ((hi <<< m) ||| (lo >>> (32 - m)), (lo <<< m) ||| (hi >>> (32 - m)))

/-! ### The round steps, on 64-bit lanes: the definition (R160) -/

/-- `A[x,y]`, index arithmetic mod 5 (R16, R160). -/
def lane (a : Lanes) (x y : Nat) : Lane := laneAt a (x % 5 + 5 * (y % 5))

/-- The state whose lane `A[x,y]` is `f x y` (R16). -/
def ofLanes (f : Nat → Nat → Lane) : Lanes := tabulate 25 fun i => f (i % 5) (i / 5)

/-- `C[x]`, the parity of column `x` (R164). -/
def columnParity (a : Lanes) (x : Nat) : Lane :=
  lane a x 0 ^^^ lane a x 1 ^^^ lane a x 2 ^^^ lane a x 3 ^^^ lane a x 4

/-- The five column parities `C[0..4]` (R164). -/
def parities (a : Lanes) : Vector Lane 5 := tabulate 5 (columnParity a)

/-- `D[0..4]` of θ (R164). -/
def thetaD (a : Lanes) : Vector Lane 5 :=
  tabulate 5 fun x =>
    laneAt (parities a) ((x + 4) % 5) ^^^ rotl64 (laneAt (parities a) ((x + 1) % 5)) 1

/-- θ (R164). -/
def theta (a : Lanes) : Lanes := ofLanes fun x y => lane a x y ^^^ laneAt (thetaD a) x

/-- The ρ offsets by lane index, a ROM constant (R166, R74). -/
def rhoOffsets : List Nat :=
  [0, 1, 62, 28, 27] ++ [36, 44, 6, 55, 20] ++ [3, 10, 43, 25, 39] ++ [41, 45, 15, 21, 8]
    ++ [18, 2, 61, 56, 14]

/-- `r[x,y]` (R166). -/
def rhoOffset (x y : Nat) : Nat := rhoOffsets.getD (x + 5 * y) 0

/-- ρ (R166). -/
def rho (a : Lanes) : Lanes := ofLanes fun x y => rotl64 (lane a x y) (rhoOffset x y)

/-- π: `A'[x,y] = A[(x+3y) mod 5, x]` (R167). -/
def pi (a : Lanes) : Lanes := ofLanes fun x y => lane a (x + 3 * y) x

/-- χ; every right-hand side reads the row before χ (R168). -/
def chi (a : Lanes) : Lanes :=
  ofLanes fun x y => lane a x y ^^^ (~~~(lane a (x + 1) y) &&& lane a (x + 2) y)

/-- The round constants RC[0..23], a ROM constant (R170, R74). -/
def roundConstants : List Lane :=
  [0x0000000000000001, 0x0000000000008082, 0x800000000000808A, 0x8000000080008000]
    ++ [0x000000000000808B, 0x0000000080000001, 0x8000000080008081, 0x8000000000008009]
    ++ [0x000000000000008A, 0x0000000000000088, 0x0000000080008009, 0x000000008000000A]
    ++ [0x000000008000808B, 0x800000000000008B, 0x8000000000008089, 0x8000000000008003]
    ++ [0x8000000000008002, 0x8000000000000080, 0x000000000000800A, 0x800000008000000A]
    ++ [0x8000000080008081, 0x8000000000008080, 0x0000000080000001, 0x8000000080008008]

/-- `RC[ir]` (R170). -/
def roundConstant (ir : Nat) : Lane := roundConstants.getD ir 0

/-- ι: the round constant into lane (0,0), every other lane unchanged (R169). -/
def iota (a : Lanes) (ir : Nat) : Lanes :=
  ofLanes fun x y => if x = 0 ∧ y = 0 then lane a 0 0 ^^^ roundConstant ir else lane a x y

/-- `Rnd(A, ir) = ι(χ(π(ρ(θ(A)))), ir)` (R172). -/
def keccakRound (a : Lanes) (ir : Nat) : Lanes := iota (chi (pi (rho (theta a)))) ir

/-- `KeccakF(A)`: 24 rounds, round index 0, 1, …, 23 (R161). -/
def keccakF (a : Lanes) : Lanes := (List.range Config.keccakRounds).foldl keccakRound a

/-! ### The generators the ROM tables come from; the block does not run them -/

/-- One shift of the LFSR of R171 on the bits R[0..8), R[0] first. -/
def lfsrShift (r : List Bool) : List Bool :=
  let c := r.getD 7 false
  [c, r.getD 0 false, r.getD 1 false, r.getD 2 false, xor (r.getD 3 false) c,
    xor (r.getD 4 false) c, xor (r.getD 5 false) c, r.getD 6 false]

/-- `rc(t)` (R171). -/
def rcBit (t : Nat) : Bool :=
  if t % 255 = 0 then true
  else ((List.range (t % 255)).foldl (fun r _ => lfsrShift r)
    [true, false, false, false, false, false, false, false]).getD 0 false

/-- The sum of R171 that makes `RC[ir]`. -/
def generatedRoundConstant (ir : Nat) : Lane :=
  BitVec.ofNat 64 (((List.range 7).map fun j =>
    if rcBit (j + 7 * ir) then 2 ^ (2 ^ j - 1) else 0).foldl (· + ·) 0)

/-- The positions (x, y) that the walk of R166 visits, the first one for t = 0. -/
def rhoWalk : Nat → List (Nat × Nat) → Nat × Nat → List (Nat × Nat)
  | 0, acc, _ => acc
  | n + 1, acc, (x, y) => rhoWalk n (acc ++ [(x, y)]) (y, (2 * x + 3 * y) % 5)

/-- The offset that R166 generates at step `t` of its walk. -/
def generatedRhoOffset (t : Nat) : Nat := (t + 1) * (t + 2) / 2 % 64

/-! ### θ on pairs of halves (R165): the form the source computes -/

/-- `CL[x]` and `CH[x]`, the column parities per half (R165). -/
def columnParityHalf (half : Lane → Word) (a : Lanes) (x : Nat) : Word :=
  half (lane a x 0) ^^^ half (lane a x 1) ^^^ half (lane a x 2) ^^^ half (lane a x 3)
    ^^^ half (lane a x 4)

/-- `(DL[x], DH[x])` (R165). -/
def thetaPairD (a : Lanes) (x : Nat) : Word × Word :=
  let cl := columnParityHalf lowHalf a
  let ch := columnParityHalf highHalf a
  let rl := (cl (x + 1) <<< 1) ||| (ch (x + 1) >>> 31)
  let rh := (ch (x + 1) <<< 1) ||| (cl (x + 1) >>> 31)
  (cl (x + 4) ^^^ rl, ch (x + 4) ^^^ rh)

/-! ### The sponge -/

/-- pad10*1 with the domain suffix, at the end of the whole message (R183). -/
def padMessage (m : Bytes) (r : Nat) (d : Byte) : Bytes :=
  let q := r - m.length % r
  if q = 1 then m ++ [d ||| 0x80] else m ++ [d] ++ List.replicate (q - 2) 0 ++ [0x80]

/-- The state with a block of at most 200 bytes XORed into its first bytes (R162, R184). -/
def xorIntoState (a : Lanes) (blk : Bytes) : Lanes :=
  ofLanes fun x y => lane a x y ^^^ lane (lanesOfBytes blk) x y

/-- Block `j` of `r` bytes of a byte string. -/
def blockOf (r : Nat) (p : Bytes) (j : Nat) : Bytes := (p.drop (j * r)).take r

/-- Absorbing a padded message, block by block, each followed by KeccakF (R184). -/
def absorb (r : Nat) (p : Bytes) (a : Lanes) : Lanes :=
  (List.range (p.length / r)).foldl (fun a j => keccakF (xorIntoState a (blockOf r p j))) a

/-- The first `r` bytes of the state (R162, R185). -/
def rateBytes (r : Nat) (a : Lanes) : Bytes := (List.range r).map (ksByte a)

/-- Squeezing `n + 1` blocks of `r` bytes: the bytes emitted and the state the last of them was
read from, so no permutation follows it (R185, R186). -/
def squeeze (r : Nat) : Nat → Lanes → Bytes × Lanes
  | 0, a => (rateBytes r a, a)
  | n + 1, a =>
    let rest := squeeze r n (keccakF a)
    (rateBytes r a ++ rest.1, rest.2)

/-- The squeeze permutations for an output of `n ≥ 1` bytes, `ceil(n/r) - 1` (R185). -/
def squeezeSteps (r n : Nat) : Nat := (n - 1) / r

/-- The sponge of R180 from the fresh state 0^200: the `n` output bytes and the final state. -/
def sponge (m : Bytes) (r : Nat) (d : Byte) (n : Nat) : Bytes × Lanes :=
  let z := squeeze r (squeezeSteps r n) (absorb r (padMessage m r d) zeroLanes)
  (z.1.take n, z.2)

/-! ### The commands -/

/-- `KS <- 0^200` (R175). -/
def clearKs (s : State) : State := { s with ks := zeroLanes }

/-- `KS <- KeccakF(KS)` (R176). -/
def permuteKs (s : State) : State := { s with ks := keccakF s.ks }

/-- `KS <- Rnd(KS, ir)` (R177). -/
def roundKs (ir : Nat) (s : State) : State := { s with ks := keccakRound s.ks ir }

/-- KZERO (R175). -/
def execKzero (s : State) : Host.Outcome State Fault Refusal := commit clearKs s

/-- KPERM (R176). -/
def execKperm (s : State) : Host.Outcome State Fault Refusal := commit permuteKs s

/-- KROUND: BAD_ROUND when the index is above 23, else one round (R177). -/
def execKround (ir : Nat) (s : State) : Host.Outcome State Fault Refusal :=
  guarded [(decide (ir ≤ 23), ⟨.badRound, offCmd⟩)] (commit (roundKs ir)) s

/-- The checks of KSPONGE, in order (R181). -/
def spongeChecks (s : State) : List (Bool × CmdError) :=
  [(rateLegal s, ⟨.badRate, offSpongeCfg⟩),
    (suffixLegal s, ⟨.badSuffix, offSpongeCfg⟩),
    (decide (1 ≤ s.outLen.toNat), ⟨.badOutLen, offOutLen⟩),
    rangeCheck (srcRange s) offSrcAddr,
    rangeCheck (spongeOutRange s) offDstAddr]

/-- The output and the final state of KSPONGE with the operands that `s` holds (R180). -/
def spongeResult (s : State) : Bytes × Lanes :=
  sponge (readRange s (srcRange s)) s.rate.toNat s.suffix s.outLen.toNat

/-- The output at DST and the final state in KS (R180, R186). -/
def spongeEffect (s : State) : State :=
  { memWrite s s.dstAddr.toNat (spongeResult s).1 with ks := (spongeResult s).2 }

/-- KSPONGE (R180, R181). -/
def execKsponge (s : State) : Host.Outcome State Fault Refusal :=
  guarded (spongeChecks s) (commit spongeEffect) s

end Sys2Proof.Machine
end

