-- ==== Sys2Proof/Machine/Dispatch.lean ====
section
/-!
DEFINITION. `execute` of `44_control.md` R322: one arm for each command.
-/

namespace Sys2Proof.Machine

def exec (i : Instr) (s : State) : Host.Outcome State Fault Refusal :=
  match i with
  | .nop => Sys2Proof.Machine.execNop s
  | .kzero => Sys2Proof.Machine.execKzero s
  | .kperm => Sys2Proof.Machine.execKperm s
  | .kround ir => Sys2Proof.Machine.execKround ir s
  | .ksponge => Sys2Proof.Machine.execKsponge s
  | .akey => Sys2Proof.Machine.execAkey s
  | .aenc => Sys2Proof.Machine.execAenc s
  | .gmul => Sys2Proof.Machine.execGmul s
  | .ghash => Sys2Proof.Machine.execGhash s
  | .gcmenc => Sys2Proof.Machine.execGcmenc s
  | .gcmdec => Sys2Proof.Machine.execGcmdec s

end Sys2Proof.Machine
end

