-- ==== Sys2Proof/Machine/Engine.lean ====
section
/-!
DEFINITION. The engine's transition (`44_control.md` R322) and the transition an event names.
-/

namespace Sys2Proof.Machine

/-- The engine's work on the latched word: decode, then the command's rule, or ILLEGAL_CMD (R322, R134). -/
def runWord (w : Word) (s : State) : Host.Outcome State Fault Refusal :=
  match decode w with
  | .error _ => .next (completeError ⟨.illegalCmd, offCmd⟩ s)
  | .ok i => exec i s

/-- `engine_step()`, enabled exactly when BUSY = 1 (R320, R322); without a latched command the
engine has no transition and the state stays. -/
def engineStep (s : State) : Host.Outcome State Fault Refusal :=
  match s.latch with
  | some l => runWord l.word s
  | none => .next s

/-- The transition that an event names (R320). -/
def perform (e : Event) (s : State) : Host.Outcome State Fault Refusal :=
  match e with
  | .read off width => busRead off width s
  | .write off width v => busWrite off width v s
  | .engine => engineStep s
  | .powerOn => .next (powerOnReset s)

end Sys2Proof.Machine
end

