-- ==== Sys2Proof/Machine/Step.lean ====
section
/-!
DEFINITION. One step of the block: the next event, or, when no event is to come, the engine.
-/

namespace Sys2Proof.Machine

/-- One transition (R320): the next event's. With no event to come the scheduler has no choice left
but the engine, so a pending command completes (R401); an idle block then stays as it is. -/
def step (s : State) : Host.Outcome State Fault Refusal :=
  match s.events with
  | [] => engineStep s
  | e :: rest => perform e { s with events := rest }

/-- `s` with the word whose bits are `w` (the bits from `nbits` up taken as 0) accepted as the
pending command (R321) and the engine scheduled next, so that the next step runs it. -/
def State.withFetchWord (s : State) (nbits w : Nat) : State :=
  { accept (BitVec.ofNat 32 (w % 2 ^ nbits)) s with events := .engine :: s.events }

end Sys2Proof.Machine
end

