-- ==== Sys2Proof/Safety.lean ====
section
/-!
DEFINITION. What claims about runs are stated in: accesses that reach the block, the invariant of
the block's state, and the arrival orders the platform may give.
-/

namespace Sys2Proof.Machine

/-- Whether the access an event makes lies in the block's window (R101; U5). -/
def Event.inWindow : Event → Bool
  | .read off _ => decide (off < Config.windowSize)
  | .write off _ _ => decide (off < Config.windowSize)
  | .engine => true
  | .powerOn => true

/-- A host that only makes accesses that reach the block (R101). -/
def SafeHost (s : State) : Prop := ∀ e ∈ s.events, e.inWindow = true

/-- The offsets that an error code can put in ERRPARAM (R340). -/
def errParamsOf : ErrCode → List Word
  | .none => [0x000]
  | .illegalCmd => [0x008]
  | .badRound => [0x008]
  | .badRate => [0x040]
  | .badSuffix => [0x040]
  | .badOutLen => [0x02C]
  | .badRange => [0x020, 0x028, 0x030, 0x038]
  | .overlap => [0x028]
  | .badKeyLen => [0x044]
  | .notKeyed => [0x048]
  | .badIvLen => [0x03C]
  | .badTagLen => [0x04C]
  | .authFail => [0x110]

/-- ERR, ERRCODE and ERRPARAM go together (R48, R52, R340). -/
def ErrorOk (s : State) : Prop :=
  (s.err = true ↔ s.errCode ≠ .none) ∧ s.errParam ∈ errParamsOf s.errCode

/-- While BUSY = 1 the latch holds the word of LASTCMD, and DONE, ERR and AUTH_OK are as acceptance
left them (R47, R48, R51, R53, R321). -/
def LatchOk (s : State) : Prop :=
  ∀ l, s.latch = some l →
    l.word = s.lastCmd ∧ s.done = false ∧ s.err = false ∧ s.authOk = false

/-- AUTH_OK = 1 says that the last command was a GCMDEC that completed without error (R51). -/
def AuthOk (s : State) : Prop :=
  s.authOk = true → s.err = false ∧ s.keyed = true ∧ decode s.lastCmd = .ok .gcmdec

/-- The key schedule is empty while KEYED = 0, and else the expansion of some key of legal length
with a zero tail and its round count (R50, R57, R70, R71). -/
def KeyScheduleOk (s : State) : Prop :=
  (s.keyed = false → s.nr = 0 ∧ s.rk = Vector.replicate 240 0) ∧
  (s.keyed = true → ∃ (nk : Nat) (k : Bytes),
    (nk = 4 ∨ nk = 6 ∨ nk = 8) ∧ k.length = 4 * nk ∧ s.nr = BitVec.ofNat 4 (nk + 6) ∧
      s.rk = ofBytes 240 (scheduleBytes (keyExpansion nk k)))

/-- The invariant of the block's state. -/
structure StateInv (s : State) : Prop where
  memory : s.buf.wf = true
  error : ErrorOk s
  latch : LatchOk s
  auth : AuthOk s
  key : KeyScheduleOk s

/-- The operands with which KSPONGE runs (R181, R182). -/
def SpongeOperandsOk (s : State) : Prop :=
  (∃ k, 1 ≤ k ∧ k ≤ 24 ∧ s.rate.toNat = 8 * k) ∧
  (0x01 ≤ s.suffix.toNat ∧ s.suffix.toNat ≤ 0x7F) ∧
  1 ≤ s.outLen.toNat ∧
  s.srcAddr.toNat + s.srcLen.toNat ≤ 65536 ∧
  s.dstAddr.toNat + s.outLen.toNat ≤ 65536

/-- The text ranges are identical or disjoint, or name no bytes (R290). -/
def TextRangesOk (s : State) : Prop :=
  s.srcLen.toNat = 0 ∨ s.srcAddr = s.dstAddr ∨
  s.srcAddr.toNat + s.srcLen.toNat ≤ s.dstAddr.toNat ∨
  s.dstAddr.toNat + s.srcLen.toNat ≤ s.srcAddr.toNat

/-- The operands with which GCMENC runs, and GCMDEC up to its tag (R291). -/
def GcmOperandsOk (s : State) : Prop :=
  s.keyed = true ∧ 1 ≤ s.ivLen.toNat ∧
  s.ivAddr.toNat + s.ivLen.toNat ≤ 65536 ∧
  s.aadAddr.toNat + s.aadLen.toNat ≤ 65536 ∧
  s.srcAddr.toNat + s.srcLen.toNat ≤ 65536 ∧
  s.dstAddr.toNat + s.srcLen.toNat ≤ 65536 ∧
  TextRangesOk s

/-- The errors a command can raise, and their parameters, by the latched COMPAT (R342). -/
def errorsOf (compat : Bool) : Instr → List (ErrCode × Word)
  | .nop => []
  | .kzero => []
  | .kperm => []
  | .gmul => []
  | .kround _ => [(.badRound, 0x008)]
  | .ksponge => [(.badRate, 0x040), (.badSuffix, 0x040), (.badOutLen, 0x02C), (.badRange, 0x020),
      (.badRange, 0x028)]
  | .akey => [(.badKeyLen, 0x044)]
  | .aenc => [(.notKeyed, 0x048)]
  | .ghash => [(.badRange, 0x020)]
  | .gcmenc => gcmErrors
  | .gcmdec => gcmErrors ++ if compat then [] else [(.badTagLen, 0x04C), (.authFail, 0x110)]
where
  gcmErrors : List (ErrCode × Word) :=
    [(.notKeyed, 0x048), (.badIvLen, 0x03C), (.badRange, 0x038), (.badRange, 0x030),
      (.badRange, 0x020), (.badRange, 0x028), (.overlap, 0x028)]

/-- The next step is the engine's (R320). -/
def EngineNext (s : State) : Prop := s.events = [] ∨ ∃ rest, s.events = .engine :: rest

/-- The next step runs command `i`. -/
def Runs (i : Instr) (s : State) : Prop :=
  EngineNext s ∧ ∃ l, s.latch = some l ∧ decode l.word = .ok i

/-- The next step is an aligned 32-bit write of `v` at offset `off`. -/
def Writes (off : Nat) (v : Word) (s : State) : Prop := ∃ rest, s.events = .write off 4 v :: rest

/-- The next step is a soft reset (R43, R382). -/
def SoftResets (s : State) : Prop := ∃ v, Writes 0x004 v s ∧ v.getLsbD 31 = true

/-- The next step is a power-on reset (R380). -/
def PowersOn (s : State) : Prop := ∃ rest, s.events = .powerOn :: rest

/-- The next step is a reset of either kind. -/
def Resets (s : State) : Prop := SoftResets s ∨ PowersOn s

/-- The next step is a host write, while the block is idle, at an offset from `lo` up to `hi`. -/
def StoresIn (lo hi : Nat) (s : State) : Prop :=
  ∃ off v, Writes off v s ∧ lo ≤ off ∧ off < hi ∧ s.busy = false

/-- An order in which the accesses of a program may reach the block: the program's own when the
interconnect keeps it, any order otherwise (R113; U10). The block performs them as they arrive. -/
def MayArrive (program arrived : List Event) : Prop :=
  if Config.platformDeviceOrder then arrived = program else arrived.Perm program

end Sys2Proof.Machine
end

