-- ==== Sys2Proof/Certificates/Slice0/Obligations.lean ====
section
/-!
DEFINITION. The statements of this row: what the rules of the spec say the block does.
-/

open Sys2Proof Sys2Proof.Machine

/-! ### Command words -/

/-- R130, R131, R133, R134: every command word says which command it is, whatever its operand. -/
def Obligations.DecodeOfEncodeIsTheCommand : Prop :=
  ∀ i : Instr, i.wellFormed = true → decode (encode i) = .ok i

/-- R130, R133, R134: each word has one meaning; a word that decodes is the encoding of its command. -/
def Obligations.EncodeOfDecodeIsTheWord : Prop :=
  ∀ (w : Word) (i : Instr), decode w = .ok i → i.wellFormed = true ∧ encode i = w

/-- R134, R135: exactly which words are illegal, and that running one records ILLEGAL_CMD with
ERRPARAM 0x008 and changes nothing else. -/
def Obligations.IllegalWordsFailAndChangeNothing : Prop :=
  (∀ w : Word, (∃ e, decode w = .error e) ↔
    w.toNat / 2 ^ 16 ≠ 0 ∨
    w.toNat % 2 ^ 8 ∉ [0x00, 0x01, 0x02, 0x03, 0x04, 0x10, 0x11, 0x20, 0x21, 0x30, 0x31] ∨
    (w.toNat % 2 ^ 8 ≠ 0x03 ∧ w.toNat / 2 ^ 8 % 2 ^ 8 ≠ 0)) ∧
  (∀ (w : Word) (e : DecodeError) (s : State), decode w = .error e →
    runWord w s = .next { s with
      latch := none, done := true, err := true, errCode := .illegalCmd, errParam := 0x008 })

/-- R133: command words written out bit by bit. -/
def Obligations.SampleWordsDecode : Prop :=
  decode 0b00000000000000000000000000000000#32 = .ok .nop ∧
  decode 0b00000000000000000001011100000011#32 = .ok (.kround 23) ∧
  decode 0b00000000000000000000000000000100#32 = .ok .ksponge ∧
  decode 0b00000000000000000000000000010001#32 = .ok .aenc ∧
  decode 0b00000000000000000000000000100001#32 = .ok .ghash ∧
  decode 0b00000000000000000000000000110001#32 = .ok .gcmdec

/-! ### The life cycle of a command -/

/-- R320, R322: the step of a busy block whose engine is next is the command the latched word
decodes to, or ILLEGAL_CMD; the event taken is the only thing the step adds. An idle block has no
engine step to make: its state stays. The list of events is the model's form of the scheduler (log
entry 1). -/
def Obligations.StepRunsTheLatchedCommand : Prop :=
  (∀ (w : Word) (i : Instr) (s : State), decode w = .ok i → runWord w s = exec i s) ∧
  (∀ s : State, s.latch = none →
    (s.events = [] → step s = .next s) ∧
    (∀ rest, s.events = .engine :: rest → step s = .next { s with events := rest })) ∧
  ∀ (s : State) (l : Latch), s.latch = some l →
    (∀ i, decode l.word = .ok i →
      (s.events = [] → step s = exec i s) ∧
      (∀ rest, s.events = .engine :: rest → step s = exec i { s with events := rest })) ∧
    (∀ e, decode l.word = .error e →
      (s.events = [] → step s = .next { s with
        latch := none, done := true, err := true, errCode := .illegalCmd, errParam := 0x008 }) ∧
      (∀ rest, s.events = .engine :: rest → step s = .next { s with
        events := rest
        latch := none, done := true, err := true, errCode := .illegalCmd, errParam := 0x008 }))

/-- R44, R321: CMD reads 0; a word written to it while idle is accepted whatever it is; a word
written while busy is lost and sets OVR. -/
def Obligations.CmdWriteIsAcceptedOrLost : Prop :=
  ∀ (s : State) (w : Word) (rest : List Event),
    (hostRead 0x008 s).1 = 0 ∧
    (s.events = .write 0x008 4 w :: rest → s.busy = false →
      step s = .next { s with
        events := rest, response := .written
        lastCmd := w, latch := some ⟨w, s.compat⟩
        done := false, err := false, errCode := .none, errParam := 0, authOk := false }) ∧
    (s.events = .write 0x008 4 w :: rest → s.busy = true →
      step s = .next { s with events := rest, response := .written, ovr := true })

/-- R346: a word that fails, legal or not, leaves everything but STATUS and ERRPARAM as it was. -/
def Obligations.ErrorsArePrecise : Prop :=
  ∀ (w : Word) (s t : State), runWord w s = .next t → s.err = false → t.err = true →
    t = { s with
      latch := none, done := true, err := true, errCode := t.errCode, errParam := t.errParam }

/-- R342: a word that fails reports ILLEGAL_CMD when it is no command, and else one of the errors of
its command, GCMDEC's own two only when the latched COMPAT is 0. -/
def Obligations.CommandErrorMatrix : Prop :=
  ∀ (w : Word) (s t : State), runWord w s = .next t → s.err = false → t.err = true →
    match decode w with
    | .error _ => t.errCode = .illegalCmd ∧ t.errParam = 0x008
    | .ok i => (t.errCode, t.errParam) ∈ errorsOf (latchedCompat s) i

/-- R324, R326, R340: every word, on every state, completes with BUSY = 0 and DONE = 1; STATUS then
has the success form or, after an error, the error form, in a state that acceptance prepared. -/
def Obligations.CompletionAndStatus : Prop :=
  ∀ (w : Word) (s : State), ∃ t, runWord w s = .next t ∧ t.busy = false ∧ t.done = true ∧
    (s.err = false → s.errCode = .none → s.authOk = false →
      (t.err = false → statusWord t =
        0x02 ||| flagBit 4 t.keyed ||| flagBit 5 t.authOk ||| flagBit 3 t.ovr) ∧
      (t.err = true → statusWord t =
        0x06 ||| (t.errCode.toByte.setWidth 32 <<< 8) ||| flagBit 3 t.ovr ||| flagBit 4 t.keyed))

/-- R101, R401: a host whose accesses all reach the block is never refused a step, and a busy
block is then idle again within as many steps as there are events to come, and one more. The list
of events, and so the bound, is the model's form of LATENCY (log entry 1). -/
def Obligations.BusyBlockBecomesIdle : Prop :=
  ∀ s : State, SafeHost s →
    (∃ t, step s = .next t ∧ SafeHost t) ∧
    (s.busy = true →
      ∃ k t, k ≤ s.events.length + 1 ∧ Sys2Proof.core.run k s = .next t ∧ t.busy = false)

/-! ### Keccak -/

/-- R330, R175, R176: NOP, KZERO and KPERM run on every state; each writes what its rule gives and
nothing else. -/
def Obligations.NopKzeroKpermResults : Prop :=
  ∀ s : State,
    exec .nop s = .next { s with latch := none, done := true } ∧
    exec .kzero s = .next { s with ks := Vector.replicate 25 0, latch := none, done := true } ∧
    exec .kperm s = .next { s with ks := keccakF s.ks, latch := none, done := true }

/-- R177: KROUND applies one round for an index up to 23 and else fails BAD_ROUND, KS unchanged.
Indexes above 255, which no word encodes, are the model's (log entry 16). -/
def Obligations.KroundResultAndBadRound : Prop :=
  ∀ (s : State) (ir : Nat),
    (ir ≤ 23 → exec (.kround ir) s =
      .next { s with ks := keccakRound s.ks ir, latch := none, done := true }) ∧
    (23 < ir → exec (.kround ir) s = .next { s with
      latch := none, done := true, err := true, errCode := .badRound, errParam := 0x008 })

/-- R177: KROUND 0, 1, …, 23 issued in that order equal one KPERM. -/
def Obligations.KroundSequenceEqualsKperm : Prop :=
  ∀ s : State,
    (List.range 24).foldl
      (fun o ir => match o with
        | Host.Outcome.next t => exec (.kround ir) t
        | o => o) (Host.Outcome.next s) = exec .kperm s

/-- R14, R16, R164, R166, R167, R168, R169, R172: lanes are numbered x + 5y; the rotation; the five step
mappings on lanes, π by the position a lane moves to, and their order in a round. -/
def Obligations.RoundStepsOnLanes : Prop :=
  (∀ (a : Lanes) (x y : Nat), lane a x y = laneAt a (x % 5 + 5 * (y % 5))) ∧
  (∀ v : Lane, rotl64 v 0 = v ∧
    ∀ n, 0 < n → n < 64 → rotl64 v n = (v <<< n) ||| (v >>> (64 - n))) ∧
  ∀ (a : Lanes) (ir : Nat), ∀ x < 5, ∀ y < 5,
    lane (theta a) x y = lane a x y ^^^
      ((lane a (x + 4) 0 ^^^ lane a (x + 4) 1 ^^^ lane a (x + 4) 2 ^^^ lane a (x + 4) 3 ^^^ lane a (x + 4) 4)
        ^^^ rotl64 (lane a (x + 1) 0 ^^^ lane a (x + 1) 1 ^^^ lane a (x + 1) 2 ^^^ lane a (x + 1) 3
          ^^^ lane a (x + 1) 4) 1) ∧
    lane (rho a) x y = rotl64 (lane a x y) (rhoOffset x y) ∧
    lane (Machine.pi a) y (2 * x + 3 * y) = lane a x y ∧
    lane (chi a) x y = lane a x y ^^^ (~~~(lane a (x + 1) y) &&& lane a (x + 2) y) ∧
    lane (iota a ir) x y =
      (if x = 0 ∧ y = 0 then lane a 0 0 ^^^ roundConstant ir else lane a x y) ∧
    keccakRound a ir = iota (chi (Machine.pi (rho (theta a)))) ir

/-- R163: the pair rotation by its four cases, and that it equals the rotation of the lane. -/
def Obligations.PairRotationIsLaneRotation : Prop :=
  ∀ lo hi : Word, ∀ n < 64,
    (n = 0 → rotlPair lo hi n = (lo, hi)) ∧
    (0 < n → n < 32 → rotlPair lo hi n =
      ((lo <<< n) ||| (hi >>> (32 - n)), (hi <<< n) ||| (lo >>> (32 - n)))) ∧
    (n = 32 → rotlPair lo hi n = (hi, lo)) ∧
    (32 < n → rotlPair lo hi n =
      ((hi <<< (n - 32)) ||| (lo >>> (32 - (n - 32))), (lo <<< (n - 32)) ||| (hi >>> (32 - (n - 32))))) ∧
    joinHalves (rotlPair lo hi n).1 (rotlPair lo hi n).2 = rotl64 (joinHalves lo hi) n

/-- R165, R168, R169: θ computed on the pairs gives the halves of θ on the lanes, and χ and ι act on
the low halves and on the high halves separately. -/
def Obligations.RoundStepsOnHalves : Prop :=
  ∀ (a : Lanes) (ir : Nat), ∀ x < 5, ∀ y < 5,
    lowHalf (lane (theta a) x y) = lowHalf (lane a x y) ^^^ (thetaPairD a x).1 ∧
    highHalf (lane (theta a) x y) = highHalf (lane a x y) ^^^ (thetaPairD a x).2 ∧
    (∀ half ∈ [lowHalf, highHalf],
      half (lane (chi a) x y) = half (lane a x y) ^^^
        (~~~(half (lane a (x + 1) y)) &&& half (lane a (x + 2) y)) ∧
      half (lane (iota a ir) x y) =
        (if x = 0 ∧ y = 0 then half (lane a 0 0) ^^^ half (roundConstant ir)
        else half (lane a x y)))

/-- R166, R170, R171: the ROM tables of the ρ offsets and the round constants, and that they are what
their generators give: the walk with its triangular numbers, and the LFSR. -/
def Obligations.KeccakTablesAreGenerated : Prop :=
  ((List.range 25).map fun i => rhoOffset (i % 5) (i / 5)) =
    [0, 1, 62, 28, 27, 36, 44, 6, 55, 20] ++ [3, 10, 43, 25, 39, 41, 45, 15, 21, 8]
      ++ [18, 2, 61, 56, 14] ∧
  (List.range 24).map roundConstant =
    [0x0000000000000001, 0x0000000000008082, 0x800000000000808A, 0x8000000080008000,
      0x000000000000808B, 0x0000000080000001, 0x8000000080008081, 0x8000000000008009]
    ++ [0x000000000000008A, 0x0000000000000088, 0x0000000080008009, 0x000000008000000A,
      0x000000008000808B, 0x800000000000008B, 0x8000000000008089, 0x8000000000008003]
    ++ [0x8000000000008002, 0x8000000000000080, 0x000000000000800A, 0x800000008000000A,
      0x8000000080008081, 0x8000000000008080, 0x0000000080000001, 0x8000000080008008] ∧
  (∀ b0 b1 b2 b3 b4 b5 b6 b7 : Bool, lfsrShift [b0, b1, b2, b3, b4, b5, b6, b7] =
    [b7, b0, b1, b2, xor b3 b7, xor b4 b7, xor b5 b7, b6]) ∧
  (∀ t, rcBit t = (lfsrShift^[t % 255]
    [true, false, false, false, false, false, false, false]).getD 0 false) ∧
  (∀ ir < 24, roundConstant ir = generatedRoundConstant ir ∧
    (roundConstant ir).toNat =
      ((List.range 7).map fun j => if rcBit (j + 7 * ir) then 2 ^ (2 ^ j - 1) else 0).sum) ∧
  rhoOffset 0 0 = 0 ∧
  (∀ t < 24,
    let p := (rhoWalk 24 [] (1, 0)).getD t (0, 0)
    p = (fun q : Nat × Nat => (q.2, (2 * q.1 + 3 * q.2) % 5))^[t] (1, 0) ∧
    rhoOffset p.1 p.2 = generatedRhoOffset t ∧ generatedRhoOffset t = (t + 1) * (t + 2) / 2 % 64)

/-- R16, R68, R92, R162: the halves of a lane and the bytes of the lane file; while idle, the KSTATE
words are the halves of the lanes, and their bytes, in bus order, are the bytes of the lane file. -/
def Obligations.KstateWordsAreLaneHalves : Prop :=
  (∀ l : Lane, lowHalf l = l.extractLsb' 0 32 ∧ highHalf l = l.extractLsb' 32 32 ∧
    joinHalves (lowHalf l) (highHalf l) = l) ∧
  (∀ (a : Lanes) (k : Nat), ksByte a k = (laneAt a (k / 8)).extractLsb' (8 * (k % 8)) 8) ∧
  ∀ s : State, s.busy = false → ∀ i < 25,
    (hostRead (0x200 + 8 * i) s).1 = lowHalf (laneAt s.ks i) ∧
    (hostRead (0x204 + 8 * i) s).1 = highHalf (laneAt s.ks i) ∧
    (hostRead (0x200 + 8 * i) s).1 = leWord (ksByte s.ks) (8 * i) ∧
    (hostRead (0x204 + 8 * i) s).1 = leWord (ksByte s.ks) (8 * i + 4)

/-- R183: the padded message is the message and the pad10*1 bytes, and its length is the least
multiple of the rate greater than the message's length. -/
def Obligations.PaddingIsWholeBlocks : Prop :=
  ∀ (m : Bytes) (r : Nat) (d : Byte), 0 < r →
    (r - m.length % r = 1 → padMessage m r d = m ++ [d ||| 0x80]) ∧
    (2 ≤ r - m.length % r → padMessage m r d =
      m ++ [d] ++ List.replicate (r - m.length % r - 2) 0 ++ [0x80]) ∧
    r ∣ (padMessage m r d).length ∧
    m.length < (padMessage m r d).length ∧ (padMessage m r d).length ≤ m.length + r

/-- R181: the checks of KSPONGE, in order; the first that fails is reported and neither KS nor BUF
changes. -/
def Obligations.KspongeChecksInOrder : Prop :=
  ∀ s : State,
    let fails (code : ErrCode) (param : Word) := exec .ksponge s = .next { s with
      latch := none, done := true, err := true, errCode := code, errParam := param }
    let rateOk := ∃ k, 1 ≤ k ∧ k ≤ 24 ∧ s.rate.toNat = 8 * k
    let suffixOk := 0x01 ≤ s.suffix.toNat ∧ s.suffix.toNat ≤ 0x7F
    let outOk := 1 ≤ s.outLen.toNat
    let srcOk := s.srcAddr.toNat + s.srcLen.toNat ≤ 65536
    let dstOk := s.dstAddr.toNat + s.outLen.toNat ≤ 65536
    (¬ rateOk → fails .badRate 0x040) ∧
    (rateOk → ¬ suffixOk → fails .badSuffix 0x040) ∧
    (rateOk → suffixOk → ¬ outOk → fails .badOutLen 0x02C) ∧
    (rateOk → suffixOk → outOk → ¬ srcOk → fails .badRange 0x020) ∧
    (rateOk → suffixOk → outOk → srcOk → ¬ dstOk → fails .badRange 0x028)

/-- R162, R180, R184, R186: with legal operands KSPONGE runs from the fresh state, whatever KS held:
it stores the first OUT_LEN bytes squeezed at DST, leaves the state of the last block in KS, and
changes nothing else. Absorbing starts from the state it is given; a block more is XORed into the
bytes of the state, byte k into byte k and nothing into the bytes after the block, and the permutation
follows. -/
def Obligations.KspongeResult : Prop :=
  (∀ (a : Lanes) (blk : Bytes), ∀ k < 200,
    ksByte (xorIntoState a blk) k = ksByte a k ^^^ blk.getD k 0) ∧
  (∀ (r : Nat) (a : Lanes), 0 < r →
    absorb r [] a = a ∧
    ∀ p b : Bytes, p.length % r = 0 → b.length = r →
      absorb r (p ++ b) a = keccakF (xorIntoState (absorb r p a) b)) ∧
  ∀ s : State, SpongeOperandsOk s →
    let r := s.rate.toNat
    let p := padMessage (memRead s s.srcAddr.toNat s.srcLen.toNat) r s.suffix
    let z := squeeze r ((s.outLen.toNat - 1) / r) (absorb r p (Vector.replicate 25 0))
    exec .ksponge s = .next { s with
      buf := s.buf.store s.dstAddr.toNat (z.1.take s.outLen.toNat)
      ks := z.2, latch := none, done := true } ∧
    (z.1.take s.outLen.toNat).length = s.outLen.toNat

/-- R15, R105, R184, R186, R187: MemRead gives the bytes of BUF at a range, and MemWrite replaces them
and no other; KSPONGE writes its output at DST, computed from the message as it was, every other byte
of BUF reads as before, and the old KS has no influence on what it leaves. -/
def Obligations.KspongeMemoryFrame : Prop :=
  (∀ (s : State) (a n : Nat), (memRead s a n).length = n ∧
    ∀ k < n, (memRead s a n).getD k 0 = bufByte s (a + k)) ∧
  (∀ (s : State) (a : Nat) (bs : Bytes) (k : Nat),
    bufByte { s with buf := s.buf.store a bs } k =
      if a ≤ k ∧ k < a + bs.length then bs.getD (k - a) 0 else bufByte s k) ∧
  ∀ s t : State, SpongeOperandsOk s → exec .ksponge s = .next t →
    memRead t s.dstAddr.toNat s.outLen.toNat =
      (sponge (memRead s s.srcAddr.toNat s.srcLen.toNat) s.rate.toNat s.suffix s.outLen.toNat).1 ∧
    (∀ a, ¬ (s.dstAddr.toNat ≤ a ∧ a < s.dstAddr.toNat + s.outLen.toNat) →
      bufByte t a = bufByte s a) ∧
    (∀ k : Lanes, exec .ksponge { s with ks := k } = .next t)

/-- R180, R185, R186: squeezing emits the first bytes of the state, and after each permutation those
of the next; it ends in the state the last block was read from, with no permutation after it. A
sponge's output is the first bytes of that stream, so a shorter one is the first bytes of a longer. -/
def Obligations.SpongeOutputIsPrefix : Prop :=
  (∀ (r n : Nat) (a : Lanes), 0 < r →
    (squeeze r n a).1.length = r * (n + 1) ∧
    (∀ k < r * (n + 1), (squeeze r n a).1.getD k 0 = ksByte (keccakF^[k / r] a) (k % r)) ∧
    (squeeze r n a).2 = keccakF^[n] a) ∧
  (∀ (m : Bytes) (r : Nat) (d : Byte) (n : Nat),
    let z := squeeze r ((n - 1) / r) (absorb r (padMessage m r d) (Vector.replicate 25 0))
    sponge m r d n = (z.1.take n, z.2)) ∧
  (∀ (m : Bytes) (r : Nat) (d : Byte) (n n' : Nat), 0 < r → 1 ≤ n → n ≤ n' →
    (sponge m r d n).1 = (sponge m r d n').1.take n)

/-! ### AES -/

/-- R240, R241, R242, R243: the product of GF(2^8) is the multiplication that `xtime`, the identity and
XOR give, `gf8Inv` is its inverse, the S-box table is the affine image of that inverse, the small
multiples are those of `xtime`, and Rcon is the doubling sequence from 0x01. -/
def Obligations.AesTablesAreGenerated : Prop :=
  (∀ a : Byte,
    xtime a = ((a <<< 1) ^^^ if a.getLsbD 7 then 0x1B else 0) ∧
    (∀ m n : Byte, gf8Mul (m ^^^ n) a = gf8Mul m a ^^^ gf8Mul n a ∧
      gf8Mul (xtime m) a = xtime (gf8Mul m a)) ∧
    (a ≠ 0 → gf8Mul a (gf8Inv a) = 1) ∧ (a = 0 → gf8Inv a = 0) ∧
    sbox a = generatedSbox a ∧
    generatedSbox a = gf8Inv a ^^^ (gf8Inv a).rotateLeft 1 ^^^ (gf8Inv a).rotateLeft 2
      ^^^ (gf8Inv a).rotateLeft 3 ^^^ (gf8Inv a).rotateLeft 4 ^^^ 0x63 ∧
    gf8Mul 1 a = a ∧ gf8Mul 2 a = xtime a ∧ gf8Mul 3 a = xtime a ^^^ a) ∧
  rcon 1 = 0x01 ∧ (∀ j, 1 ≤ j → j ≤ 9 → rcon (j + 1) = xtime (rcon j))

/-- R245, R246: the words of the expanded key: the key, and then the recurrence with its three cases.
The word operations are given by their four bytes, and so are the words of the key and the bytes that
the words are stored as (R247). -/
def Obligations.KeyExpansionRecurrence : Prop :=
  (∀ a b : AesWord,
    rotWord a = ⟨a.a1, a.a2, a.a3, a.a0⟩ ∧
    subWord a = ⟨sbox a.a0, sbox a.a1, sbox a.a2, sbox a.a3⟩ ∧
    xorWord a b = ⟨a.a0 ^^^ b.a0, a.a1 ^^^ b.a1, a.a2 ^^^ b.a2, a.a3 ^^^ b.a3⟩) ∧
  (∀ (k : Bytes) (i : Nat), keyWord k i =
    ⟨k.getD (4 * i) 0, k.getD (4 * i + 1) 0, k.getD (4 * i + 2) 0, k.getD (4 * i + 3) 0⟩) ∧
  (∀ w : List AesWord, (scheduleBytes w).length = 4 * w.length ∧
    ∀ j < w.length,
      (scheduleBytes w).getD (4 * j) 0 = (w.getD j zeroWord).a0 ∧
      (scheduleBytes w).getD (4 * j + 1) 0 = (w.getD j zeroWord).a1 ∧
      (scheduleBytes w).getD (4 * j + 2) 0 = (w.getD j zeroWord).a2 ∧
      (scheduleBytes w).getD (4 * j + 3) 0 = (w.getD j zeroWord).a3) ∧
  ∀ (nk : Nat) (k : Bytes), (nk = 4 ∨ nk = 6 ∨ nk = 8) →
    let w := keyExpansion nk k
    w.length = 4 * (nk + 7) ∧
    (∀ i < nk, w.getD i zeroWord = keyWord k i) ∧
    (∀ i, nk ≤ i → i < 4 * (nk + 7) →
      w.getD i zeroWord = xorWord (w.getD (i - nk) zeroWord)
        (if i % nk = 0 then
          xorWord (subWord (rotWord (w.getD (i - 1) zeroWord))) ⟨rcon (i / nk), 0, 0, 0⟩
        else if nk = 8 ∧ i % 8 = 4 then subWord (w.getD (i - 1) zeroWord)
        else w.getD (i - 1) zeroWord))

/-- R248, R250, R251, R252: the round steps of the cipher on the state bytes `s[r + 4c]`. -/
def Obligations.CipherStepsOnBytes : Prop :=
  ∀ (s : Block) (rk : Vector Byte 240) (rnd : Nat), ∀ r < 4, ∀ c < 4,
    byteAt (addRoundKey rk rnd s) (r + 4 * c) =
      byteAt s (r + 4 * c) ^^^ byteAt rk (16 * rnd + (r + 4 * c)) ∧
    byteAt (subBytes s) (r + 4 * c) = sbox (byteAt s (r + 4 * c)) ∧
    byteAt (shiftRows s) (r + 4 * c) = byteAt s (r + 4 * ((c + r) % 4)) ∧
    byteAt (mixColumns s) (r + 4 * c) =
      gf8Mul 2 (byteAt s (r + 4 * c)) ^^^ gf8Mul 3 (byteAt s ((r + 1) % 4 + 4 * c))
        ^^^ byteAt s ((r + 2) % 4 + 4 * c) ^^^ byteAt s ((r + 3) % 4 + 4 * c)

/-- R260, R261: AKEY with a legal KEYLEN loads the expanded key; with any other it fails BAD_KEYLEN
and the loaded schedule stays. -/
def Obligations.AkeyResultAndBadKeylen : Prop :=
  ∀ s : State,
    let n := s.keyLen.toNat
    ((n = 16 ∨ n = 24 ∨ n = 32) → exec .akey s = .next { s with
      rk := ofBytes 240 (scheduleBytes (keyExpansion (n / 4) (s.key.toList.take n)))
      nr := BitVec.ofNat 4 (n / 4 + 6), keyed := true, latch := none, done := true }) ∧
    (¬ (n = 16 ∨ n = 24 ∨ n = 32) → exec .akey s = .next { s with
      latch := none, done := true, err := true, errCode := .badKeyLen, errParam := 0x044 })

/-- R70, R71, R92, R244, R247: after AKEY, word j of the expanded key stands at byte 4j of RK, so RK
starts with the key; it ends in zeros from 16·(Nr+1) on, and AES_NR is 10, 12 or 14. -/
def Obligations.AkeyKeyPrefixAndZeroTail : Prop :=
  ∀ s t : State, (s.keyLen.toNat = 16 ∨ s.keyLen.toNat = 24 ∨ s.keyLen.toNat = 32) →
    exec .akey s = .next t →
    t.nr.toNat = s.keyLen.toNat / 4 + 6 ∧
    (∀ k < s.keyLen.toNat, byteAt t.rk k = byteAt s.key k) ∧
    (∀ k, 16 * (t.nr.toNat + 1) ≤ k → k < 240 → byteAt t.rk k = 0) ∧
    (∀ j < 4 * (t.nr.toNat + 1),
      let w := (keyExpansion (s.keyLen.toNat / 4) (s.key.toList.take s.keyLen.toNat)).getD j zeroWord
      byteAt t.rk (4 * j) = w.a0 ∧ byteAt t.rk (4 * j + 1) = w.a1 ∧
      byteAt t.rk (4 * j + 2) = w.a2 ∧ byteAt t.rk (4 * j + 3) = w.a3)

/-- R253, R262: the cipher is the first key addition, the rounds, and a last round without
MixColumns; AENC with a loaded key writes the cipher of BLK_IN to BLK_OUT and nothing else; without
one it fails NOT_KEYED. -/
def Obligations.AencResultAndNotKeyed : Prop :=
  (∀ (x : Block) (rk : Vector Byte 240) (nr : Nat),
    cipher x rk nr = addRoundKey rk nr (shiftRows (subBytes
      ((List.range' 1 (nr - 1)).foldl
        (fun b r => addRoundKey rk r (mixColumns (shiftRows (subBytes b)))) (addRoundKey rk 0 x))))) ∧
  ∀ s : State,
    (s.keyed = true → exec .aenc s = .next { s with
      blkOut := addRoundKey s.rk s.nr.toNat (shiftRows (subBytes
        ((List.range' 1 (s.nr.toNat - 1)).foldl
          (fun b r => addRoundKey s.rk r (mixColumns (shiftRows (subBytes b))))
          (addRoundKey s.rk 0 s.blkIn))))
      latch := none, done := true }) ∧
    (s.keyed = false → exec .aenc s = .next { s with
      latch := none, done := true, err := true, errCode := .notKeyed, errParam := 0x048 })

/-! ### GHASH -/

/-- R220, R221, R222: the sum of two blocks is their XOR; the identity and zero of the multiplication;
the product with x, which shifts the block to the right across its bytes and adds E1 to byte 0 when
the bit of x^127 goes out, with R222's two examples; and that it distributes over XOR on both sides. -/
def Obligations.GfMultIsBilinearWithIdentity : Prop :=
  (∀ x y : Block, ∀ k < 16, byteAt (xorBlock x y) k = byteAt x k ^^^ byteAt y k) ∧
  (∀ x : Block, ∀ k < 16,
    byteAt (gfMult x (ofBytes 16 [0x40])) k = (byteAt x k >>> 1) ^^^
      (if k = 0 then (if (byteAt x 15).getLsbD 0 then 0xE1#8 else 0#8) else byteAt x (k - 1) <<< (7 : Nat))) ∧
  (∀ x : Block,
    gfMult x (ofBytes 16 [0x80]) = x ∧ gfMult (ofBytes 16 [0x80]) x = x ∧
    gfMult x (ofBytes 16 []) = ofBytes 16 [] ∧ gfMult (ofBytes 16 []) x = ofBytes 16 []) ∧
  gfMult (ofBytes 16 [0x40]) (ofBytes 16 [0x40]) = ofBytes 16 [0x20] ∧
  gfMult (ofBytes 16 (List.replicate 15 0 ++ [0x01])) (ofBytes 16 [0x40]) = ofBytes 16 [0xE1] ∧
  (∀ x y z : Block,
    gfMult (xorBlock x y) z = xorBlock (gfMult x z) (gfMult y z) ∧
    gfMult x (xorBlock y z) = xorBlock (gfMult x y) (gfMult x z))

/-- R222: the multiplication is commutative and associative. -/
def Obligations.GfMultCommutesAndAssociates : Prop :=
  ∀ x y z : Block,
    gfMult x y = gfMult y x ∧ gfMult (gfMult x y) z = gfMult x (gfMult y z)

/-- R12, R223, R224, R288: one block of GHASH is XORed into the accumulator and the result multiplied
by H; a partial last block counts as zero-padded, an empty string leaves the accumulator, two calls
chain when the first is over whole blocks; so GCM's S is the chained computation over the AAD, the
ciphertext and the length block, whose bytes are those of two big-endian integers. -/
def Obligations.GhashPadsAndChains : Prop :=
  (∀ (h acc : Block) (d : Bytes), d.length = 16 →
    ghash h d acc = gfMult (xorBlock acc (ofBytes 16 d)) h) ∧
  (∀ d : Bytes, ∀ k < 16, byteAt (ofBytes 16 d) k = d.getD k 0) ∧
  (∀ n : Nat, (be64 n).length = 8 ∧
    ∀ k < 8, (be64 n).getD k 0 = BitVec.ofNat 8 (n / 2 ^ (8 * (7 - k)))) ∧
  ∀ (h acc : Block) (d e : Bytes),
    ghash h (d ++ List.replicate ((16 - d.length % 16) % 16) 0) acc = ghash h d acc ∧
    ghash h [] acc = acc ∧
    (d.length % 16 = 0 → ghash h e (ghash h d acc) = ghash h (d ++ e) acc) ∧
    gcmHash h d e =
      ghash h (be64 (8 * d.length) ++ be64 (8 * e.length)) (ghash h e (ghash h d (ofBytes 16 [])))

/-- R226, R228: GMUL runs on every state; GHASH runs over a valid source range, the empty one
included, and else fails BAD_RANGE; each writes GCM_S alone. -/
def Obligations.GmulGhashResults : Prop :=
  ∀ s : State,
    exec .gmul s = .next { s with gcmS := gfMult s.gcmS s.gcmH, latch := none, done := true } ∧
    (s.srcAddr.toNat + s.srcLen.toNat ≤ 65536 → exec .ghash s = .next { s with
      gcmS := ghash s.gcmH (memRead s s.srcAddr.toNat s.srcLen.toNat) s.gcmS
      latch := none, done := true }) ∧
    (65536 < s.srcAddr.toNat + s.srcLen.toNat → exec .ghash s = .next { s with
      latch := none, done := true, err := true, errCode := .badRange, errParam := 0x020 })

/-! ### GCM -/

/-- R282, R283: J0 of a 12-byte IV and of every other; inc32 keeps the first 12 bytes of a block and
adds 1 mod 2^32 to the big-endian integer of the last four. -/
def Obligations.InitialAndNextCounterBlock : Prop :=
  (∀ (h : Block) (iv : Bytes),
    (iv.length = 12 → initialCounter h iv = ofBytes 16 (iv ++ [0x00, 0x00, 0x00, 0x01])) ∧
    (iv.length ≠ 12 → initialCounter h iv =
      ghash h (iv ++ List.replicate ((16 - iv.length % 16) % 16) 0 ++ List.replicate 8 0
        ++ be64 (8 * iv.length)) (ofBytes 16 []))) ∧
  (∀ x : Block,
    (∀ k < 12, byteAt (inc32 x) k = byteAt x k) ∧
    (byteAt (inc32 x) 12 ++ byteAt (inc32 x) 13 ++ byteAt (inc32 x) 14 ++ byteAt (inc32 x) 15).toNat =
      ((byteAt x 12 ++ byteAt x 13 ++ byteAt x 14 ++ byteAt x 15).toNat + 1) % 2 ^ 32)

/-- R284, R285, R307: byte k of GCTR's output is byte k of the text XOR the keystream, which is the
cipher of the counter block incremented k div 16 times; the output is as long as the text, so GCTR
twice from one counter block is the identity, with the same counter sequence. -/
def Obligations.GctrIsAnInvolution : Prop :=
  (∀ (e : Block → Block) (icb : Block) (x : Bytes), ∀ k < x.length,
    (gctr e icb x).1.getD k 0 = x.getD k 0 ^^^ byteAt (e (inc32^[k / 16] icb)) (k % 16)) ∧
  (∀ (e : Block → Block) (icb : Block) (x : Bytes),
    (gctr e icb x).2 = inc32^[(x.length + 15) / 16] icb) ∧
  ∀ (e : Block → Block) (icb : Block) (x : Bytes),
    (gctr e icb (gctr e icb x).1).1 = x ∧ (gctr e icb x).1.length = x.length ∧
    (gctr e icb (gctr e icb x).1).2 = (gctr e icb x).2

/-- R286: after a GCM command over n text blocks that commits, GCM_CTR is inc32^(n+1)(GCM_J0). -/
def Obligations.CounterAfterGcmCommand : Prop :=
  ∀ (s t : State) (i : Instr), (i = .gcmenc ∨ i = .gcmdec) → exec i s = .next t →
    s.err = false → t.err = false →
    t.gcmCtr = (inc32^[(s.srcLen.toNat + 15) / 16 + 1]) t.gcmJ0

/-- R291: the checks of GCMENC, in order, whatever TAG_LEN is. -/
def Obligations.GcmencChecksInOrder : Prop :=
  ∀ s : State,
    let fails (code : ErrCode) (param : Word) := exec .gcmenc s = .next { s with
      latch := none, done := true, err := true, errCode := code, errParam := param }
    let keyedOk := s.keyed = true
    let ivLenOk := 1 ≤ s.ivLen.toNat
    let ivOk := s.ivAddr.toNat + s.ivLen.toNat ≤ 65536
    let aadOk := s.aadAddr.toNat + s.aadLen.toNat ≤ 65536
    let srcOk := s.srcAddr.toNat + s.srcLen.toNat ≤ 65536
    let dstOk := s.dstAddr.toNat + s.srcLen.toNat ≤ 65536
    (¬ keyedOk → fails .notKeyed 0x048) ∧
    (keyedOk → ¬ ivLenOk → fails .badIvLen 0x03C) ∧
    (keyedOk → ivLenOk → ¬ ivOk → fails .badRange 0x038) ∧
    (keyedOk → ivLenOk → ivOk → ¬ aadOk → fails .badRange 0x030) ∧
    (keyedOk → ivLenOk → ivOk → aadOk → ¬ srcOk → fails .badRange 0x020) ∧
    (keyedOk → ivLenOk → ivOk → aadOk → srcOk → ¬ dstOk → fails .badRange 0x028) ∧
    (keyedOk → ivLenOk → ivOk → aadOk → srcOk → dstOk → ¬ TextRangesOk s → fails .overlap 0x028)

/-- R292: with legal operands GCMENC commits H, J0, S, the counter, the full tag and the ciphertext
at DST, and changes nothing else. -/
def Obligations.GcmencResult : Prop :=
  ∀ s : State, GcmOperandsOk s →
    let e := fun b => cipher b s.rk s.nr.toNat
    let h := e (ofBytes 16 [])
    let j0 := initialCounter h (memRead s s.ivAddr.toNat s.ivLen.toNat)
    let c := gctr e (inc32 j0) (memRead s s.srcAddr.toNat s.srcLen.toNat)
    let sv := gcmHash h (memRead s s.aadAddr.toNat s.aadLen.toNat) c.1
    exec .gcmenc s = .next { s with
      gcmH := h, gcmJ0 := j0, gcmS := sv, gcmCtr := c.2, gcmTag := xorBlock (e j0) sv
      buf := s.buf.store s.dstAddr.toNat c.1, latch := none, done := true }

/-- R72, R300, R301: GCMDEC makes the seven checks of GCMENC with the same outcome, and then, only when
the COMPAT latched with the command is 0, the check of TAG_LEN. -/
def Obligations.GcmdecChecksInOrder : Prop :=
  (∀ (s : State) (l : Latch), s.latch = some l → latchedCompat s = l.compat) ∧
  ∀ s : State,
    (¬ GcmOperandsOk s → exec .gcmdec s = exec .gcmenc s) ∧
    (GcmOperandsOk s → latchedCompat s = false →
      s.tagLen.toNat ∉ [4, 8, 12, 13, 14, 15, 16] →
      exec .gcmdec s = .next { s with
        latch := none, done := true, err := true, errCode := .badTagLen, errParam := 0x04C })

/-- R302, R303: with legal operands GCMDEC, when the tags match in their first TAG_LEN bytes, or
whatever the tag and TAG_LEN are when the latched COMPAT is 1, commits H, J0, S over the ciphertext,
the counter, AUTH_OK and the plaintext at DST, and changes nothing else. -/
def Obligations.GcmdecResult : Prop :=
  ∀ s : State, GcmOperandsOk s →
    let e := fun b => cipher b s.rk s.nr.toNat
    let h := e (ofBytes 16 [])
    let j0 := initialCounter h (memRead s s.ivAddr.toNat s.ivLen.toNat)
    let c := memRead s s.srcAddr.toNat s.srcLen.toNat
    let p := gctr e (inc32 j0) c
    let sv := gcmHash h (memRead s s.aadAddr.toNat s.aadLen.toNat) c
    let t := s.tagLen.toNat
    (latchedCompat s = true ∨
      (t ∈ [4, 8, 12, 13, 14, 15, 16] ∧
        ∀ k < t, byteAt (xorBlock (e j0) sv) k = byteAt s.gcmTagx k)) →
    exec .gcmdec s = .next { s with
      gcmH := h, gcmJ0 := j0, gcmS := sv, gcmCtr := p.2, authOk := true
      buf := s.buf.store s.dstAddr.toNat p.1, latch := none, done := true }

/-- R304: a tag that differs in its first TAG_LEN bytes makes a verified GCMDEC fail AUTH_FAIL; BUF
and every register but STATUS and ERRPARAM keep their values. -/
def Obligations.AuthFailCommitsNothing : Prop :=
  ∀ s : State, GcmOperandsOk s → latchedCompat s = false →
    let e := fun b => cipher b s.rk s.nr.toNat
    let h := e (ofBytes 16 [])
    let j0 := initialCounter h (memRead s s.ivAddr.toNat s.ivLen.toNat)
    let sv := gcmHash h (memRead s s.aadAddr.toNat s.aadLen.toNat)
      (memRead s s.srcAddr.toNat s.srcLen.toNat)
    s.tagLen.toNat ∈ [4, 8, 12, 13, 14, 15, 16] →
    (∃ k < s.tagLen.toNat, byteAt (xorBlock (e j0) sv) k ≠ byteAt s.gcmTagx k) →
    exec .gcmdec s = .next { s with
      latch := none, done := true, err := true, errCode := .authFail, errParam := 0x110 }

/-- R285, R292, R302: every byte of BUF outside the SRC_LEN bytes at DST reads after a GCMENC or a
GCMDEC as it read before. -/
def Obligations.GcmMemoryFrame : Prop :=
  ∀ (s t : State) (i : Instr), (i = .gcmenc ∨ i = .gcmdec) → exec i s = .next t →
    ∀ a, ¬ (s.dstAddr.toNat ≤ a ∧ a < s.dstAddr.toNat + s.srcLen.toNat) →
      bufByte t a = bufByte s a

/-- R307: GCMDEC of what GCMENC produced, under the same key, IV and AAD, with its tag and any legal
TAG_LEN, succeeds with AUTH_OK, restores the plaintext and commits the same H, J0, S and counter. -/
def Obligations.GcmRoundTrip : Prop :=
  ∀ s u d : State, exec .gcmenc s = .next u → s.err = false → u.err = false →
    GcmOperandsOk d → d.err = false → d.rk = s.rk → d.nr = s.nr →
    memRead d d.ivAddr.toNat d.ivLen.toNat = memRead s s.ivAddr.toNat s.ivLen.toNat →
    memRead d d.aadAddr.toNat d.aadLen.toNat = memRead s s.aadAddr.toNat s.aadLen.toNat →
    memRead d d.srcAddr.toNat d.srcLen.toNat = memRead u s.dstAddr.toNat s.srcLen.toNat →
    d.gcmTagx = u.gcmTag → d.tagLen.toNat ∈ [4, 8, 12, 13, 14, 15, 16] →
    ∃ t, exec .gcmdec d = .next t ∧ t.err = false ∧ t.authOk = true ∧
      memRead t d.dstAddr.toNat d.srcLen.toNat = memRead s s.srcAddr.toNat s.srcLen.toNat ∧
      t.gcmH = u.gcmH ∧ t.gcmJ0 = u.gcmJ0 ∧ t.gcmS = u.gcmS ∧ t.gcmCtr = u.gcmCtr

/-! ### The bus and the registers -/

/-- R101, R320: an aligned 32-bit access in the window is performed: a read answers with its word, a
write has its effect; one of a wrong width or a misaligned offset gets the error response,
the signal BUS_ERROR_RESPONSE of the platform, and changes nothing; one outside the window does not
reach the block. That the error response is a next state is the model's choice (log entry 3). -/
def Obligations.BusErrorChangesNothing : Prop :=
  (∀ (s : State) (off : Nat) (v : Word) (rest : List Event), off < 0x20000 → off % 4 = 0 →
    let u := { s with events := rest }
    (s.events = .read off 4 :: rest →
      step s = .next { (hostRead off u).2 with response := .data (hostRead off u).1 }) ∧
    (s.events = .write off 4 v :: rest →
      step s = .next { hostWrite off v u with response := .written })) ∧
  ∀ (s : State) (off width : Nat) (v : Word) (rest : List Event),
    (off < 0x20000 → (width ≠ 4 ∨ off % 4 ≠ 0) →
      (s.events = .read off width :: rest →
        step s = .next { s with events := rest, response := .busError Config.busErrorResponse }) ∧
      (s.events = .write off width v :: rest →
        step s = .next { s with events := rest, response := .busError Config.busErrorResponse })) ∧
    (0x20000 ≤ off →
      (s.events = .read off width :: rest → step s = .refused (.outsideWindow off)) ∧
      (s.events = .write off width v :: rest → step s = .refused (.outsideWindow off)))

/-- R41, R42, R44, R45, R52 to R71, R100, R107, R109: an aligned read in the window answers and
changes no register and no byte; while idle, and below 0x080 while busy too, it gives the word that
the register map names at its offset, each named here by its field; while busy it gives an
unspecified value from 0x080 on.
The unspecified value is a free value, and the draw counter and the response are the model's own
(log entry 8). -/
def Obligations.ReadsHaveNoSideEffects : Prop :=
  (∀ (b : Nat → Byte) (k : Nat), leWord b k = b (k + 3) ++ b (k + 2) ++ b (k + 1) ++ b k) ∧
  (∀ (s : State) (off : Nat) (rest : List Event), off < 0x20000 → off % 4 = 0 →
    s.events = .read off 4 :: rest →
    (s.busy = false ∨ off < 0x080 →
      step s = .next { s with events := rest, response := .data (readTarget s (target off)) }) ∧
    (s.busy = true → 0x080 ≤ off →
      step s = .next { s with
        events := rest, draws := s.draws + 1, response := .data (Config.busyRead s.draws) })) ∧
  (∀ s : State,
    let word (off : Nat) := readTarget s (target off)
    (word 0x000 = 0x4B414745 ∧ word 0x004 = ctrlWord s ∧ word 0x008 = 0 ∧ word 0x00C = statusWord s ∧
      word 0x010 = s.errParam ∧ word 0x014 = s.lastCmd) ∧
    (word 0x020 = s.srcAddr ∧ word 0x024 = s.srcLen ∧ word 0x028 = s.dstAddr ∧ word 0x02C = s.outLen ∧
      word 0x030 = s.aadAddr ∧ word 0x034 = s.aadLen ∧ word 0x038 = s.ivAddr ∧ word 0x03C = s.ivLen) ∧
    (word 0x040 = (0#16 ++ s.suffix ++ s.rate : BitVec 32) ∧ word 0x044 = s.keyLen.setWidth 32 ∧
      word 0x048 = s.nr.setWidth 32 ∧ word 0x04C = s.tagLen.setWidth 32) ∧
    (∀ w < 8, word (0x080 + 4 * w) = leWord (byteAt s.key) (4 * w)) ∧
    (∀ w < 4,
      word (0x0A0 + 4 * w) = leWord (byteAt s.blkIn) (4 * w) ∧
      word (0x0B0 + 4 * w) = leWord (byteAt s.blkOut) (4 * w) ∧
      word (0x0C0 + 4 * w) = leWord (byteAt s.gcmH) (4 * w) ∧
      word (0x0D0 + 4 * w) = leWord (byteAt s.gcmS) (4 * w) ∧
      word (0x0E0 + 4 * w) = leWord (byteAt s.gcmJ0) (4 * w) ∧
      word (0x0F0 + 4 * w) = leWord (byteAt s.gcmCtr) (4 * w) ∧
      word (0x100 + 4 * w) = leWord (byteAt s.gcmTag) (4 * w) ∧
      word (0x110 + 4 * w) = leWord (byteAt s.gcmTagx) (4 * w)) ∧
    (∀ w < 50, word (0x200 + 4 * w) = leWord (ksByte s.ks) (4 * w)) ∧
    (∀ w < 60, word (0x300 + 4 * w) = leWord (byteAt s.rk) (4 * w)) ∧
    (∀ w < 0x4000, word (0x10000 + 4 * w) = leWord (bufByte s) (4 * w)))

/-- R49, R106: while busy, a write to any offset but CTRL and STATUS is discarded and sets OVR; OVR
is cleared by nothing but a W1C write of 1 to STATUS bit 3 and reset; it is 0 after reset. -/
def Obligations.OverrunIsSetAndSticky : Prop :=
  (∀ (s : State) (off : Nat) (v : Word), s.busy = true → off ≠ 0x004 → off ≠ 0x00C →
    hostWrite off v s = { s with ovr := true }) ∧
  (∀ s t : State, step s = .next t → s.ovr = true → t.ovr = false →
    (∃ v, Writes 0x00C v s ∧ v.getLsbD 3 = true) ∨ Resets s) ∧
  State.reset.ovr = false

/-- R42, R45, R47, R48: what a write to CTRL without the strobe and a write to STATUS do, whether or
not the block is busy. -/
def Obligations.ControlAndStatusWrites : Prop :=
  ∀ (s : State) (v : Word),
    (v.getLsbD 31 = false → hostWrite 0x004 v s =
      { s with ie := v.getLsbD 0, compat := v.getLsbD 1 }) ∧
    hostWrite 0x00C v s = { s with
      done := s.done && !v.getLsbD 1
      err := s.err && !v.getLsbD 2
      errCode := if v.getLsbD 2 then .none else s.errCode
      errParam := if v.getLsbD 2 then 0 else s.errParam
      ovr := s.ovr && !v.getLsbD 3 }

/-- R54, R55, R56, R58, R109, R397: while idle, a write to a parameter register stores the word
unchanged in that register, and a write to a configuration register the bits of its fields, and
every other register keeps its value; the next read returns what was stored. -/
def Obligations.ParameterRegistersReadBack : Prop :=
  ∀ (s : State) (v : Word), s.busy = false →
    (∀ off ∈ [0x020, 0x024, 0x028, 0x02C, 0x030, 0x034, 0x038, 0x03C],
      (hostRead off (hostWrite off v s)).1 = v) ∧
    (hostWrite 0x020 v s = { s with srcAddr := v } ∧ hostWrite 0x024 v s = { s with srcLen := v } ∧
      hostWrite 0x028 v s = { s with dstAddr := v } ∧ hostWrite 0x02C v s = { s with outLen := v } ∧
      hostWrite 0x030 v s = { s with aadAddr := v } ∧ hostWrite 0x034 v s = { s with aadLen := v } ∧
      hostWrite 0x038 v s = { s with ivAddr := v } ∧ hostWrite 0x03C v s = { s with ivLen := v }) ∧
    (hostWrite 0x040 v s = { s with rate := v.extractLsb' 0 8, suffix := v.extractLsb' 8 8 } ∧
      hostWrite 0x044 v s = { s with keyLen := v.extractLsb' 0 6 } ∧
      hostWrite 0x04C v s = { s with tagLen := v.extractLsb' 0 5 }) ∧
    (hostRead 0x040 (hostWrite 0x040 v s)).1 = v &&& 0x0000FFFF ∧
    (hostRead 0x044 (hostWrite 0x044 v s)).1 = v &&& 0x0000003F ∧
    (hostRead 0x04C (hostWrite 0x04C v s)).1 = v &&& 0x0000001F

/-- R59, R60, R62, R63, R67, R68, R69, R100, R103, R109, R397: while idle, a word written to KEY,
BLK_IN, GCM_H, GCM_S, GCM_TAGX, KSTATE or BUF goes to that register's bytes and nothing else changes;
it is read back, and a word at any other aligned offset of the window reads as before. -/
def Obligations.WindowWordsReadBack : Prop :=
  (∀ (s : State) (v : Word) (off off' : Nat), s.busy = false →
    off % 4 = 0 → off' % 4 = 0 → off' < 0x20000 →
    ((0x080 ≤ off ∧ off < 0x0B0) ∨ (0x0C0 ≤ off ∧ off < 0x0E0) ∨ (0x110 ≤ off ∧ off < 0x120) ∨
      (0x200 ≤ off ∧ off < 0x2C8) ∨ (0x10000 ≤ off ∧ off < 0x20000)) →
    (hostRead off (hostWrite off v s)).1 = v ∧
    (off' ≠ off → (hostRead off' (hostWrite off v s)).1 = (hostRead off' s).1)) ∧
  (∀ (s : State) (v : Word), s.busy = false →
    (∀ w < 8,
      hostWrite (0x080 + 4 * w) v s = { s with key := setBytes s.key (4 * w) (wordBytes v) }) ∧
    (∀ w < 4,
      hostWrite (0x0A0 + 4 * w) v s = { s with blkIn := setBytes s.blkIn (4 * w) (wordBytes v) } ∧
      hostWrite (0x0C0 + 4 * w) v s = { s with gcmH := setBytes s.gcmH (4 * w) (wordBytes v) } ∧
      hostWrite (0x0D0 + 4 * w) v s = { s with gcmS := setBytes s.gcmS (4 * w) (wordBytes v) } ∧
      hostWrite (0x110 + 4 * w) v s = { s with gcmTagx := setBytes s.gcmTagx (4 * w) (wordBytes v) }) ∧
    (∀ w < 50, hostWrite (0x200 + 4 * w) v s = { s with ks := setKsWord s.ks w v }) ∧
    (∀ w < 0x4000,
      hostWrite (0x10000 + 4 * w) v s = { s with buf := s.buf.store (4 * w) (wordBytes v) }))

/-- R41, R52, R53, R57, R61, R64, R65, R66, R71, R108: while idle, a write to a read-only register or
a reserved offset changes nothing; ID reads its constant and reserved offsets read 0. -/
def Obligations.ReadOnlyAndReservedOffsets : Prop :=
  ∀ (s : State) (v : Word) (off : Nat), s.busy = false → off % 4 = 0 →
    (off = 0x000 ∨ (0x010 ≤ off ∧ off < 0x020) ∨ off = 0x048 ∨ (0x050 ≤ off ∧ off < 0x080) ∨
      (0x0B0 ≤ off ∧ off < 0x0C0) ∨ (0x0E0 ≤ off ∧ off < 0x110) ∨ (0x120 ≤ off ∧ off < 0x200) ∨
      (0x2C8 ≤ off ∧ off < 0x10000)) →
    hostWrite off v s = s ∧
    (off = 0x000 → (hostRead off s).1 = 0x4B414745) ∧
    ((0x018 ≤ off ∧ off < 0x020) ∨ (0x050 ≤ off ∧ off < 0x080) ∨ (0x120 ≤ off ∧ off < 0x200) ∨
      (0x2C8 ≤ off ∧ off < 0x300) ∨ (0x3F0 ≤ off ∧ off < 0x10000) → (hostRead off s).1 = 0)

/-- R360, R361: IRQ is IE and (DONE or OVR); every completion raises it when IE = 1, and clearing ERR
alone leaves it as it was. -/
def Obligations.InterruptOutput : Prop :=
  ∀ s : State,
    (irq s = true ↔ s.ie = true ∧ (s.done = true ∨ s.ovr = true)) ∧
    (∀ (w : Word) (t : State), runWord w s = .next t → s.ie = true → irq t = true) ∧
    irq (hostWrite 0x00C 0x4 s) = irq s

/-! ### Who writes what -/

/-- R50, R57, R71: RK, AES_NR and KEYED change only when an AKEY runs or at a reset. -/
def Obligations.KeyScheduleChangesOnlyByAkey : Prop :=
  ∀ s t : State, step s = .next t →
    t.rk ≠ s.rk ∨ t.nr ≠ s.nr ∨ t.keyed ≠ s.keyed → Runs .akey s ∨ Resets s

/-- R51: AUTH_OK is set only by a GCMDEC that completes without error, and cleared at every acceptance
and by reset, and by nothing else; it is 0 after reset. -/
def Obligations.AuthOkOnlyByGcmdec : Prop :=
  (∀ s t : State, step s = .next t →
    (s.authOk = false → t.authOk = true → Runs .gcmdec s ∧ (s.err = false → t.err = false)) ∧
    (s.authOk = true →
      (t.authOk = false ↔ (∃ v, Writes 0x008 v s ∧ s.busy = false) ∨ Resets s))) ∧
  State.reset.authOk = false

/-- R59 to R67: KEY, BLK_IN and GCM_TAGX change only by a host write to their own window, BLK_OUT by
AENC, GCM_H by GCMENC, GCMDEC and the host, GCM_S by GMUL, GHASH, GCMENC, GCMDEC and the host, GCM_J0
and GCM_CTR by GCMENC and GCMDEC, GCM_TAG by GCMENC; and each by reset. -/
def Obligations.BlockRegisterWriters : Prop :=
  ∀ s t : State, step s = .next t →
    (t.key ≠ s.key → StoresIn 0x080 0x0A0 s ∨ Resets s) ∧
    (t.blkIn ≠ s.blkIn → StoresIn 0x0A0 0x0B0 s ∨ Resets s) ∧
    (t.gcmH ≠ s.gcmH → Runs .gcmenc s ∨ Runs .gcmdec s ∨ StoresIn 0x0C0 0x0D0 s ∨ Resets s) ∧
    (t.gcmS ≠ s.gcmS → Runs .gmul s ∨ Runs .ghash s ∨ Runs .gcmenc s ∨ Runs .gcmdec s ∨
      StoresIn 0x0D0 0x0E0 s ∨ Resets s) ∧
    (t.blkOut ≠ s.blkOut → Runs .aenc s ∨ Resets s) ∧
    (t.gcmJ0 ≠ s.gcmJ0 ∨ t.gcmCtr ≠ s.gcmCtr → Runs .gcmenc s ∨ Runs .gcmdec s ∨ Resets s) ∧
    (t.gcmTag ≠ s.gcmTag → Runs .gcmenc s ∨ Resets s) ∧
    (t.gcmTagx ≠ s.gcmTagx → StoresIn 0x110 0x120 s ∨ Resets s)

/-- R69, R103, R186: KS changes only by the Keccak commands, a host write to KSTATE, or reset; a
byte of BUF only by a command whose output range holds it, a host write of its word, or a reset.
A byte of BUF is read through `bufByte` (log entry 7). -/
def Obligations.LaneFileAndBufferWriters : Prop :=
  ∀ s t : State, step s = .next t →
    (t.ks ≠ s.ks → Runs .kzero s ∨ Runs .kperm s ∨ (∃ ir, Runs (.kround ir) s) ∨ Runs .ksponge s ∨
      StoresIn 0x200 0x2C8 s ∨ Resets s) ∧
    (∀ a, bufByte t a ≠ bufByte s a →
      (Runs .ksponge s ∧ s.dstAddr.toNat ≤ a ∧ a < s.dstAddr.toNat + s.outLen.toNat) ∨
      ((Runs .gcmenc s ∨ Runs .gcmdec s) ∧ s.dstAddr.toNat ≤ a ∧ a < s.dstAddr.toNat + s.srcLen.toNat) ∨
      StoresIn (0x10000 + a / 4 * 4) (0x10000 + a / 4 * 4 + 4) s ∨ Resets s)

/-! ### Reset and the invariant -/

/-- R371, R380: power-on reset leaves the state after reset, whatever the block was doing, and that
state's registers. BUF lists no byte: each reads as a free value, the model's form of "unspecified"
(log entry 7). That the events to come stay, and that a draw is taken, is the model's (log entry
11). -/
def Obligations.PowerOnResetState : Prop :=
  (∀ (s : State) (rest : List Event), s.events = .powerOn :: rest →
    step s = .next { State.reset with bufDraw := s.draws, draws := s.draws + 1, events := rest }) ∧
  let s := State.reset
  (hostRead 0x000 s).1 = 0x4B414745 ∧ ctrlWord s = 0 ∧ statusWord s = 0 ∧
  s.errParam = 0 ∧ s.lastCmd = 0 ∧
  s.srcAddr = 0 ∧ s.srcLen = 0 ∧ s.dstAddr = 0 ∧ s.outLen = 0 ∧
  s.aadAddr = 0 ∧ s.aadLen = 0 ∧ s.ivAddr = 0 ∧ s.ivLen = 0 ∧
  s.rate = 0 ∧ s.suffix = 0 ∧ s.keyLen = 0 ∧ s.tagLen = 0 ∧ s.nr = 0 ∧
  (∀ k, byteAt s.key k = 0) ∧
  (∀ b ∈ [s.blkIn, s.blkOut, s.gcmH, s.gcmS, s.gcmJ0, s.gcmCtr, s.gcmTag, s.gcmTagx],
    ∀ k, byteAt b k = 0) ∧
  (∀ k, ksByte s.ks k = 0) ∧ (∀ k, byteAt s.rk k = 0) ∧
  s.latch = none ∧ irq s = false ∧ s.buf = []

/-- R43, R382, R383: a write of 1 to CTRL bit 31, busy or not, resets everything but BUF and
discards the pending command. BUF keeps every byte, but for the output range of the command it
aborts. What happens to the draws, the events and the response is the model's choice (log entries
9 and 11). -/
def Obligations.SoftResetKeepsBuf : Prop :=
  ∀ (s : State) (v : Word), v.getLsbD 31 = true →
    let t := hostWrite 0x004 v s
    t = { State.reset with
      buf := t.buf, bufDraw := s.bufDraw, draws := t.draws, events := s.events, response := s.response } ∧
    (s.latch = none → t.buf = s.buf) ∧
    (∀ l a, s.latch = some l →
      (decode l.word = .ok .ksponge →
        ¬ (s.dstAddr.toNat ≤ a ∧ a < s.dstAddr.toNat + s.outLen.toNat)) →
      (decode l.word = .ok .gcmenc ∨ decode l.word = .ok .gcmdec →
        ¬ (s.dstAddr.toNat ≤ a ∧ a < s.dstAddr.toNat + s.srcLen.toNat)) →
      bufByte t a = bufByte s a)

/-- The invariant of the block's state holds after power-on reset. -/
def Obligations.ResetMeetsInvariant : Prop := StateInv State.reset

/-- R48, R50, R51, R52, R53, R57, R70, R71, R340: from every state that meets it, every step
keeps the invariant: BUF in canonical form, ERR with its code and parameter, the latch with
LASTCMD, AUTH_OK with a GCMDEC, and the key schedule an expanded key. The canonical form of BUF
is the model's (log entry 7). -/
def Obligations.StepKeepsInvariant : Prop :=
  ∀ s t : State, StateInv s → step s = .next t → StateInv t

/-! ### The layout of STATUS and CTRL -/

/-- R42, R43, R45, R340: the bits of the STATUS word and of the CTRL word, and the numbers of the error
codes. -/
def Obligations.StatusAndControlLayout : Prop :=
  (∀ s : State,
    let w := statusWord s
    let c := ctrlWord s
    (w.getLsbD 0 = s.busy ∧ w.getLsbD 1 = s.done ∧ w.getLsbD 2 = s.err ∧ w.getLsbD 3 = s.ovr ∧
      w.getLsbD 4 = s.keyed ∧ w.getLsbD 5 = s.authOk ∧ w.extractLsb' 6 2 = 0 ∧
      w.extractLsb' 8 8 = s.errCode.toByte ∧ w.extractLsb' 16 16 = 0) ∧
    (c.getLsbD 0 = s.ie ∧ c.getLsbD 1 = s.compat ∧ c.extractLsb' 2 30 = 0)) ∧
  [ErrCode.none, .illegalCmd, .badRound, .badRate, .badSuffix, .badOutLen, .badRange, .overlap,
    .badKeyLen, .notKeyed, .badIvLen, .badTagLen, .authFail].map ErrCode.toByte =
    [0, 1, 2, 3, 4, 5, 6, 7, 8, 9, 10, 11, 12]
end

