-- ==== Sys2Proof/Laws/State.lean ====
section
/-!
SUPPORT. What each field of State is after the shared updates of a command's life cycle.
-/

namespace Sys2Proof.Machine

section
variable (s : State) (w : Word)
@[simp] theorem accept_ie : (accept w s).ie = s.ie := rfl
@[simp] theorem accept_compat : (accept w s).compat = s.compat := rfl
@[simp] theorem accept_done : (accept w s).done = false := rfl
@[simp] theorem accept_err : (accept w s).err = false := rfl
@[simp] theorem accept_ovr : (accept w s).ovr = s.ovr := rfl
@[simp] theorem accept_keyed : (accept w s).keyed = s.keyed := rfl
@[simp] theorem accept_authOk : (accept w s).authOk = false := rfl
@[simp] theorem accept_errCode : (accept w s).errCode = .none := rfl
@[simp] theorem accept_errParam : (accept w s).errParam = 0 := rfl
@[simp] theorem accept_lastCmd : (accept w s).lastCmd = w := rfl
@[simp] theorem accept_latch : (accept w s).latch = some ⟨w, s.compat⟩ := rfl
@[simp] theorem accept_srcAddr : (accept w s).srcAddr = s.srcAddr := rfl
@[simp] theorem accept_srcLen : (accept w s).srcLen = s.srcLen := rfl
@[simp] theorem accept_dstAddr : (accept w s).dstAddr = s.dstAddr := rfl
@[simp] theorem accept_outLen : (accept w s).outLen = s.outLen := rfl
@[simp] theorem accept_aadAddr : (accept w s).aadAddr = s.aadAddr := rfl
@[simp] theorem accept_aadLen : (accept w s).aadLen = s.aadLen := rfl
@[simp] theorem accept_ivAddr : (accept w s).ivAddr = s.ivAddr := rfl
@[simp] theorem accept_ivLen : (accept w s).ivLen = s.ivLen := rfl
@[simp] theorem accept_rate : (accept w s).rate = s.rate := rfl
@[simp] theorem accept_suffix : (accept w s).suffix = s.suffix := rfl
@[simp] theorem accept_keyLen : (accept w s).keyLen = s.keyLen := rfl
@[simp] theorem accept_nr : (accept w s).nr = s.nr := rfl
@[simp] theorem accept_tagLen : (accept w s).tagLen = s.tagLen := rfl
@[simp] theorem accept_key : (accept w s).key = s.key := rfl
@[simp] theorem accept_blkIn : (accept w s).blkIn = s.blkIn := rfl
@[simp] theorem accept_blkOut : (accept w s).blkOut = s.blkOut := rfl
@[simp] theorem accept_gcmH : (accept w s).gcmH = s.gcmH := rfl
@[simp] theorem accept_gcmS : (accept w s).gcmS = s.gcmS := rfl
@[simp] theorem accept_gcmJ0 : (accept w s).gcmJ0 = s.gcmJ0 := rfl
@[simp] theorem accept_gcmCtr : (accept w s).gcmCtr = s.gcmCtr := rfl
@[simp] theorem accept_gcmTag : (accept w s).gcmTag = s.gcmTag := rfl
@[simp] theorem accept_gcmTagx : (accept w s).gcmTagx = s.gcmTagx := rfl
@[simp] theorem accept_ks : (accept w s).ks = s.ks := rfl
@[simp] theorem accept_rk : (accept w s).rk = s.rk := rfl
@[simp] theorem accept_buf : (accept w s).buf = s.buf := rfl
@[simp] theorem accept_bufDraw : (accept w s).bufDraw = s.bufDraw := rfl
@[simp] theorem accept_draws : (accept w s).draws = s.draws := rfl
@[simp] theorem accept_events : (accept w s).events = s.events := rfl
@[simp] theorem accept_response : (accept w s).response = s.response := rfl
end

section
variable (s : State)
@[simp] theorem complete_ie : (complete s).ie = s.ie := rfl
@[simp] theorem complete_compat : (complete s).compat = s.compat := rfl
@[simp] theorem complete_done : (complete s).done = true := rfl
@[simp] theorem complete_err : (complete s).err = s.err := rfl
@[simp] theorem complete_ovr : (complete s).ovr = s.ovr := rfl
@[simp] theorem complete_keyed : (complete s).keyed = s.keyed := rfl
@[simp] theorem complete_authOk : (complete s).authOk = s.authOk := rfl
@[simp] theorem complete_errCode : (complete s).errCode = s.errCode := rfl
@[simp] theorem complete_errParam : (complete s).errParam = s.errParam := rfl
@[simp] theorem complete_lastCmd : (complete s).lastCmd = s.lastCmd := rfl
@[simp] theorem complete_latch : (complete s).latch = none := rfl
@[simp] theorem complete_srcAddr : (complete s).srcAddr = s.srcAddr := rfl
@[simp] theorem complete_srcLen : (complete s).srcLen = s.srcLen := rfl
@[simp] theorem complete_dstAddr : (complete s).dstAddr = s.dstAddr := rfl
@[simp] theorem complete_outLen : (complete s).outLen = s.outLen := rfl
@[simp] theorem complete_aadAddr : (complete s).aadAddr = s.aadAddr := rfl
@[simp] theorem complete_aadLen : (complete s).aadLen = s.aadLen := rfl
@[simp] theorem complete_ivAddr : (complete s).ivAddr = s.ivAddr := rfl
@[simp] theorem complete_ivLen : (complete s).ivLen = s.ivLen := rfl
@[simp] theorem complete_rate : (complete s).rate = s.rate := rfl
@[simp] theorem complete_suffix : (complete s).suffix = s.suffix := rfl
@[simp] theorem complete_keyLen : (complete s).keyLen = s.keyLen := rfl
@[simp] theorem complete_nr : (complete s).nr = s.nr := rfl
@[simp] theorem complete_tagLen : (complete s).tagLen = s.tagLen := rfl
@[simp] theorem complete_key : (complete s).key = s.key := rfl
@[simp] theorem complete_blkIn : (complete s).blkIn = s.blkIn := rfl
@[simp] theorem complete_blkOut : (complete s).blkOut = s.blkOut := rfl
@[simp] theorem complete_gcmH : (complete s).gcmH = s.gcmH := rfl
@[simp] theorem complete_gcmS : (complete s).gcmS = s.gcmS := rfl
@[simp] theorem complete_gcmJ0 : (complete s).gcmJ0 = s.gcmJ0 := rfl
@[simp] theorem complete_gcmCtr : (complete s).gcmCtr = s.gcmCtr := rfl
@[simp] theorem complete_gcmTag : (complete s).gcmTag = s.gcmTag := rfl
@[simp] theorem complete_gcmTagx : (complete s).gcmTagx = s.gcmTagx := rfl
@[simp] theorem complete_ks : (complete s).ks = s.ks := rfl
@[simp] theorem complete_rk : (complete s).rk = s.rk := rfl
@[simp] theorem complete_buf : (complete s).buf = s.buf := rfl
@[simp] theorem complete_bufDraw : (complete s).bufDraw = s.bufDraw := rfl
@[simp] theorem complete_draws : (complete s).draws = s.draws := rfl
@[simp] theorem complete_events : (complete s).events = s.events := rfl
@[simp] theorem complete_response : (complete s).response = s.response := rfl
end

section
variable (s : State) (e : CmdError)
@[simp] theorem completeError_ie : (completeError e s).ie = s.ie := rfl
@[simp] theorem completeError_compat : (completeError e s).compat = s.compat := rfl
@[simp] theorem completeError_done : (completeError e s).done = true := rfl
@[simp] theorem completeError_err : (completeError e s).err = true := rfl
@[simp] theorem completeError_ovr : (completeError e s).ovr = s.ovr := rfl
@[simp] theorem completeError_keyed : (completeError e s).keyed = s.keyed := rfl
@[simp] theorem completeError_authOk : (completeError e s).authOk = s.authOk := rfl
@[simp] theorem completeError_errCode : (completeError e s).errCode = e.code := rfl
@[simp] theorem completeError_errParam : (completeError e s).errParam = e.param := rfl
@[simp] theorem completeError_lastCmd : (completeError e s).lastCmd = s.lastCmd := rfl
@[simp] theorem completeError_latch : (completeError e s).latch = none := rfl
@[simp] theorem completeError_srcAddr : (completeError e s).srcAddr = s.srcAddr := rfl
@[simp] theorem completeError_srcLen : (completeError e s).srcLen = s.srcLen := rfl
@[simp] theorem completeError_dstAddr : (completeError e s).dstAddr = s.dstAddr := rfl
@[simp] theorem completeError_outLen : (completeError e s).outLen = s.outLen := rfl
@[simp] theorem completeError_aadAddr : (completeError e s).aadAddr = s.aadAddr := rfl
@[simp] theorem completeError_aadLen : (completeError e s).aadLen = s.aadLen := rfl
@[simp] theorem completeError_ivAddr : (completeError e s).ivAddr = s.ivAddr := rfl
@[simp] theorem completeError_ivLen : (completeError e s).ivLen = s.ivLen := rfl
@[simp] theorem completeError_rate : (completeError e s).rate = s.rate := rfl
@[simp] theorem completeError_suffix : (completeError e s).suffix = s.suffix := rfl
@[simp] theorem completeError_keyLen : (completeError e s).keyLen = s.keyLen := rfl
@[simp] theorem completeError_nr : (completeError e s).nr = s.nr := rfl
@[simp] theorem completeError_tagLen : (completeError e s).tagLen = s.tagLen := rfl
@[simp] theorem completeError_key : (completeError e s).key = s.key := rfl
@[simp] theorem completeError_blkIn : (completeError e s).blkIn = s.blkIn := rfl
@[simp] theorem completeError_blkOut : (completeError e s).blkOut = s.blkOut := rfl
@[simp] theorem completeError_gcmH : (completeError e s).gcmH = s.gcmH := rfl
@[simp] theorem completeError_gcmS : (completeError e s).gcmS = s.gcmS := rfl
@[simp] theorem completeError_gcmJ0 : (completeError e s).gcmJ0 = s.gcmJ0 := rfl
@[simp] theorem completeError_gcmCtr : (completeError e s).gcmCtr = s.gcmCtr := rfl
@[simp] theorem completeError_gcmTag : (completeError e s).gcmTag = s.gcmTag := rfl
@[simp] theorem completeError_gcmTagx : (completeError e s).gcmTagx = s.gcmTagx := rfl
@[simp] theorem completeError_ks : (completeError e s).ks = s.ks := rfl
@[simp] theorem completeError_rk : (completeError e s).rk = s.rk := rfl
@[simp] theorem completeError_buf : (completeError e s).buf = s.buf := rfl
@[simp] theorem completeError_bufDraw : (completeError e s).bufDraw = s.bufDraw := rfl
@[simp] theorem completeError_draws : (completeError e s).draws = s.draws := rfl
@[simp] theorem completeError_events : (completeError e s).events = s.events := rfl
@[simp] theorem completeError_response : (completeError e s).response = s.response := rfl
end

section
variable (s : State)
@[simp] theorem acknowledgeError_ie : (acknowledgeError s).ie = s.ie := rfl
@[simp] theorem acknowledgeError_compat : (acknowledgeError s).compat = s.compat := rfl
@[simp] theorem acknowledgeError_done : (acknowledgeError s).done = s.done := rfl
@[simp] theorem acknowledgeError_err : (acknowledgeError s).err = false := rfl
@[simp] theorem acknowledgeError_ovr : (acknowledgeError s).ovr = s.ovr := rfl
@[simp] theorem acknowledgeError_keyed : (acknowledgeError s).keyed = s.keyed := rfl
@[simp] theorem acknowledgeError_authOk : (acknowledgeError s).authOk = s.authOk := rfl
@[simp] theorem acknowledgeError_errCode : (acknowledgeError s).errCode = .none := rfl
@[simp] theorem acknowledgeError_errParam : (acknowledgeError s).errParam = 0 := rfl
@[simp] theorem acknowledgeError_lastCmd : (acknowledgeError s).lastCmd = s.lastCmd := rfl
@[simp] theorem acknowledgeError_latch : (acknowledgeError s).latch = s.latch := rfl
@[simp] theorem acknowledgeError_srcAddr : (acknowledgeError s).srcAddr = s.srcAddr := rfl
@[simp] theorem acknowledgeError_srcLen : (acknowledgeError s).srcLen = s.srcLen := rfl
@[simp] theorem acknowledgeError_dstAddr : (acknowledgeError s).dstAddr = s.dstAddr := rfl
@[simp] theorem acknowledgeError_outLen : (acknowledgeError s).outLen = s.outLen := rfl
@[simp] theorem acknowledgeError_aadAddr : (acknowledgeError s).aadAddr = s.aadAddr := rfl
@[simp] theorem acknowledgeError_aadLen : (acknowledgeError s).aadLen = s.aadLen := rfl
@[simp] theorem acknowledgeError_ivAddr : (acknowledgeError s).ivAddr = s.ivAddr := rfl
@[simp] theorem acknowledgeError_ivLen : (acknowledgeError s).ivLen = s.ivLen := rfl
@[simp] theorem acknowledgeError_rate : (acknowledgeError s).rate = s.rate := rfl
@[simp] theorem acknowledgeError_suffix : (acknowledgeError s).suffix = s.suffix := rfl
@[simp] theorem acknowledgeError_keyLen : (acknowledgeError s).keyLen = s.keyLen := rfl
@[simp] theorem acknowledgeError_nr : (acknowledgeError s).nr = s.nr := rfl
@[simp] theorem acknowledgeError_tagLen : (acknowledgeError s).tagLen = s.tagLen := rfl
@[simp] theorem acknowledgeError_key : (acknowledgeError s).key = s.key := rfl
@[simp] theorem acknowledgeError_blkIn : (acknowledgeError s).blkIn = s.blkIn := rfl
@[simp] theorem acknowledgeError_blkOut : (acknowledgeError s).blkOut = s.blkOut := rfl
@[simp] theorem acknowledgeError_gcmH : (acknowledgeError s).gcmH = s.gcmH := rfl
@[simp] theorem acknowledgeError_gcmS : (acknowledgeError s).gcmS = s.gcmS := rfl
@[simp] theorem acknowledgeError_gcmJ0 : (acknowledgeError s).gcmJ0 = s.gcmJ0 := rfl
@[simp] theorem acknowledgeError_gcmCtr : (acknowledgeError s).gcmCtr = s.gcmCtr := rfl
@[simp] theorem acknowledgeError_gcmTag : (acknowledgeError s).gcmTag = s.gcmTag := rfl
@[simp] theorem acknowledgeError_gcmTagx : (acknowledgeError s).gcmTagx = s.gcmTagx := rfl
@[simp] theorem acknowledgeError_ks : (acknowledgeError s).ks = s.ks := rfl
@[simp] theorem acknowledgeError_rk : (acknowledgeError s).rk = s.rk := rfl
@[simp] theorem acknowledgeError_buf : (acknowledgeError s).buf = s.buf := rfl
@[simp] theorem acknowledgeError_bufDraw : (acknowledgeError s).bufDraw = s.bufDraw := rfl
@[simp] theorem acknowledgeError_draws : (acknowledgeError s).draws = s.draws := rfl
@[simp] theorem acknowledgeError_events : (acknowledgeError s).events = s.events := rfl
@[simp] theorem acknowledgeError_response : (acknowledgeError s).response = s.response := rfl
end

section
variable (s : State) (a : Nat) (bs : Bytes)
@[simp] theorem memWrite_ie : (memWrite s a bs).ie = s.ie := rfl
@[simp] theorem memWrite_compat : (memWrite s a bs).compat = s.compat := rfl
@[simp] theorem memWrite_done : (memWrite s a bs).done = s.done := rfl
@[simp] theorem memWrite_err : (memWrite s a bs).err = s.err := rfl
@[simp] theorem memWrite_ovr : (memWrite s a bs).ovr = s.ovr := rfl
@[simp] theorem memWrite_keyed : (memWrite s a bs).keyed = s.keyed := rfl
@[simp] theorem memWrite_authOk : (memWrite s a bs).authOk = s.authOk := rfl
@[simp] theorem memWrite_errCode : (memWrite s a bs).errCode = s.errCode := rfl
@[simp] theorem memWrite_errParam : (memWrite s a bs).errParam = s.errParam := rfl
@[simp] theorem memWrite_lastCmd : (memWrite s a bs).lastCmd = s.lastCmd := rfl
@[simp] theorem memWrite_latch : (memWrite s a bs).latch = s.latch := rfl
@[simp] theorem memWrite_srcAddr : (memWrite s a bs).srcAddr = s.srcAddr := rfl
@[simp] theorem memWrite_srcLen : (memWrite s a bs).srcLen = s.srcLen := rfl
@[simp] theorem memWrite_dstAddr : (memWrite s a bs).dstAddr = s.dstAddr := rfl
@[simp] theorem memWrite_outLen : (memWrite s a bs).outLen = s.outLen := rfl
@[simp] theorem memWrite_aadAddr : (memWrite s a bs).aadAddr = s.aadAddr := rfl
@[simp] theorem memWrite_aadLen : (memWrite s a bs).aadLen = s.aadLen := rfl
@[simp] theorem memWrite_ivAddr : (memWrite s a bs).ivAddr = s.ivAddr := rfl
@[simp] theorem memWrite_ivLen : (memWrite s a bs).ivLen = s.ivLen := rfl
@[simp] theorem memWrite_rate : (memWrite s a bs).rate = s.rate := rfl
@[simp] theorem memWrite_suffix : (memWrite s a bs).suffix = s.suffix := rfl
@[simp] theorem memWrite_keyLen : (memWrite s a bs).keyLen = s.keyLen := rfl
@[simp] theorem memWrite_nr : (memWrite s a bs).nr = s.nr := rfl
@[simp] theorem memWrite_tagLen : (memWrite s a bs).tagLen = s.tagLen := rfl
@[simp] theorem memWrite_key : (memWrite s a bs).key = s.key := rfl
@[simp] theorem memWrite_blkIn : (memWrite s a bs).blkIn = s.blkIn := rfl
@[simp] theorem memWrite_blkOut : (memWrite s a bs).blkOut = s.blkOut := rfl
@[simp] theorem memWrite_gcmH : (memWrite s a bs).gcmH = s.gcmH := rfl
@[simp] theorem memWrite_gcmS : (memWrite s a bs).gcmS = s.gcmS := rfl
@[simp] theorem memWrite_gcmJ0 : (memWrite s a bs).gcmJ0 = s.gcmJ0 := rfl
@[simp] theorem memWrite_gcmCtr : (memWrite s a bs).gcmCtr = s.gcmCtr := rfl
@[simp] theorem memWrite_gcmTag : (memWrite s a bs).gcmTag = s.gcmTag := rfl
@[simp] theorem memWrite_gcmTagx : (memWrite s a bs).gcmTagx = s.gcmTagx := rfl
@[simp] theorem memWrite_ks : (memWrite s a bs).ks = s.ks := rfl
@[simp] theorem memWrite_rk : (memWrite s a bs).rk = s.rk := rfl
@[simp] theorem memWrite_buf : (memWrite s a bs).buf = s.buf.store a bs := rfl
@[simp] theorem memWrite_bufDraw : (memWrite s a bs).bufDraw = s.bufDraw := rfl
@[simp] theorem memWrite_draws : (memWrite s a bs).draws = s.draws := rfl
@[simp] theorem memWrite_events : (memWrite s a bs).events = s.events := rfl
@[simp] theorem memWrite_response : (memWrite s a bs).response = s.response := rfl
end

@[simp] theorem accept_busy (w : Word) (s : State) : (accept w s).busy = true := rfl
@[simp] theorem complete_busy (s : State) : (complete s).busy = false := rfl
@[simp] theorem completeError_busy (e : CmdError) (s : State) : (completeError e s).busy = false := rfl

theorem busy_eq_false_iff (s : State) : s.busy = false ↔ s.latch = none := by
  simp [State.busy]

theorem busy_eq_true_iff (s : State) : s.busy = true ↔ ∃ l, s.latch = some l := by
  simp [State.busy, Option.isSome_iff_exists]

end Sys2Proof.Machine
end

