-- ==== Sys2Proof/Laws/Bytes.lean ====
section
/-!
SUPPORT. Byte strings, fixed-length registers and their integers.
-/

namespace Sys2Proof.Machine

/-! ### tabulate -/

theorem getElem?_tabulate {α : Type} (n : Nat) (f : Nat → α) (i : Nat) :
    (tabulate n f)[i]? = if i < n then some (f i) else none := by
  unfold tabulate
  by_cases h : i < n <;> simp [h]

@[simp] theorem toList_tabulate {α : Type} (n : Nat) (f : Nat → α) :
    (tabulate n f).toList = (List.range n).map f := by
  simp [tabulate]

theorem tabulate_congr {α : Type} {n : Nat} {f g : Nat → α} (h : ∀ i < n, f i = g i) :
    tabulate n f = tabulate n g := by
  apply Vector.ext
  intro i hi
  have := h i hi
  simp [tabulate, this]

@[simp] theorem byteAt_tabulate (n : Nat) (f : Nat → Byte) (i : Nat) :
    byteAt (tabulate n f) i = if i < n then f i else 0 := by
  unfold byteAt
  rw [getElem?_tabulate]
  split <;> rfl

@[simp] theorem laneAt_tabulate (n : Nat) (f : Nat → Lane) (i : Nat) :
    laneAt (tabulate n f) i = if i < n then f i else 0 := by
  unfold laneAt
  rw [getElem?_tabulate]
  split <;> rfl

@[simp] theorem byteAt_replicate (n : Nat) (b : Byte) (i : Nat) :
    byteAt (Vector.replicate n b) i = if i < n then b else 0 := by
  unfold byteAt
  by_cases h : i < n <;> simp [h]

@[simp] theorem laneAt_replicate (n : Nat) (b : Lane) (i : Nat) :
    laneAt (Vector.replicate n b) i = if i < n then b else 0 := by
  unfold laneAt
  by_cases h : i < n <;> simp [h]

theorem byteAt_eq_getElem {n : Nat} (v : Vector Byte n) {i : Nat} (h : i < n) : byteAt v i = v[i] := by
  simp [byteAt, h]

theorem laneAt_eq_getElem {n : Nat} (v : Vector Lane n) {i : Nat} (h : i < n) : laneAt v i = v[i] := by
  simp [laneAt, h]

theorem byteAt_of_le {n : Nat} (v : Vector Byte n) {i : Nat} (h : n ≤ i) : byteAt v i = 0 := by
  simp [byteAt, h]

/-- Two byte registers with the same bytes are the same. -/
theorem byteAt_ext {n : Nat} {v w : Vector Byte n} (h : ∀ i < n, byteAt v i = byteAt w i) : v = w := by
  apply Vector.ext
  intro i hi
  have := h i hi
  rwa [byteAt_eq_getElem v hi, byteAt_eq_getElem w hi] at this

/-- Two lane vectors with the same lanes are the same. -/
theorem laneAt_ext {n : Nat} {v w : Vector Lane n} (h : ∀ i < n, laneAt v i = laneAt w i) : v = w := by
  apply Vector.ext
  intro i hi
  have := h i hi
  rwa [laneAt_eq_getElem v hi, laneAt_eq_getElem w hi] at this

theorem byteAt_eq_toList_getD {n : Nat} (v : Vector Byte n) (i : Nat) :
    byteAt v i = v.toList.getD i 0 := by
  simp [byteAt, List.getD_eq_getElem?_getD]

@[simp] theorem byteAt_ofBytes (n : Nat) (bs : Bytes) (i : Nat) :
    byteAt (ofBytes n bs) i = if i < n then bs.getD i 0 else 0 := by
  simp [ofBytes]

@[simp] theorem byteAt_setBytes {n : Nat} (v : Vector Byte n) (k : Nat) (bs : Bytes) (i : Nat) :
    byteAt (setBytes v k bs) i =
      if i < n then (if k ≤ i ∧ i < k + bs.length then bs.getD (i - k) 0 else byteAt v i) else 0 := by
  simp [setBytes]

/-- Zero bytes after a byte string do not change the register it fills. -/
theorem ofBytes_append_zeros (n : Nat) (bs : Bytes) (k : Nat) :
    ofBytes n (bs ++ List.replicate k 0) = ofBytes n bs := by
  apply byteAt_ext
  intro i hi
  simp only [byteAt_ofBytes, List.getD_eq_getElem?_getD]
  by_cases h : i < bs.length
  · rw [List.getElem?_append_left h]
  · rw [List.getElem?_append_right (by omega)]
    by_cases h2 : i - bs.length < k
    · simp [h2, List.getElem?_eq_none (Nat.le_of_not_lt h)]
    · simp [h2, List.getElem?_eq_none (Nat.le_of_not_lt h)]

@[simp] theorem byteAt_xorBlock (a b : Block) (i : Nat) :
    byteAt (xorBlock a b) i = byteAt a i ^^^ byteAt b i := by
  unfold xorBlock
  rw [byteAt_tabulate]
  split
  · rfl
  · rw [byteAt_of_le a (by omega), byteAt_of_le b (by omega)]; rfl

/-! ### Words and lanes -/

@[simp] theorem wordBytes_length (v : Word) : (wordBytes v).length = 4 := rfl

/-- Reading back the four bytes a word stores (R100). -/
@[simp] theorem leWord_wordBytes (v : Word) : leWord (fun i => (wordBytes v).getD i 0) 0 = v := by
  apply BitVec.eq_of_getLsbD_eq
  intro i hi
  simp only [leWord, wordBytes, BitVec.getLsbD_append, BitVec.getLsbD_extractLsb', List.getD_cons_zero,
    List.getD_cons_succ, Nat.zero_add]
  split
  · simp; omega
  · split
    · simp only [show i - 8 < 8 by omega, decide_true, Bool.true_and]; congr 1; omega
    · split
      · simp only [show i - 8 - 8 < 8 by omega, decide_true, Bool.true_and]; congr 1; omega
      · simp only [show i - 8 - 8 - 8 < 8 by omega, decide_true, Bool.true_and]; congr 1; omega

theorem getLsbD_joinHalves (lo hi : Word) (i : Nat) :
    (joinHalves lo hi).getLsbD i = if i < 32 then lo.getLsbD i else hi.getLsbD (i - 32) := by
  unfold joinHalves
  exact (BitVec.getLsbD_append (x := hi) (y := lo) (i := i)).trans (by split <;> rfl)

@[simp] theorem lowHalf_joinHalves (lo hi : Word) : lowHalf (joinHalves lo hi) = lo := by
  apply BitVec.eq_of_getLsbD_eq
  intro i h
  simp only [lowHalf, BitVec.getLsbD_extractLsb', getLsbD_joinHalves, Nat.zero_add, h, decide_true,
    Bool.true_and, if_true]

@[simp] theorem highHalf_joinHalves (lo hi : Word) : highHalf (joinHalves lo hi) = hi := by
  apply BitVec.eq_of_getLsbD_eq
  intro i h
  simp only [highHalf, BitVec.getLsbD_extractLsb', getLsbD_joinHalves, h, decide_true, Bool.true_and,
    show ¬ 32 + i < 32 by omega, if_false, Nat.add_sub_cancel_left]

@[simp] theorem joinHalves_halves (l : Lane) : joinHalves (lowHalf l) (highHalf l) = l := by
  apply BitVec.eq_of_getLsbD_eq
  intro i h
  simp only [getLsbD_joinHalves, lowHalf, highHalf, BitVec.getLsbD_extractLsb', Nat.zero_add]
  split
  · simp [*]
  · simp only [show i - 32 < 32 by omega, decide_true, Bool.true_and]; congr 1; omega

theorem append_bytes_of_extract (l : Lane) (n : Nat) :
    l.extractLsb' (n + 24) 8 ++ l.extractLsb' (n + 16) 8 ++ l.extractLsb' (n + 8) 8 ++ l.extractLsb' n 8 =
      l.extractLsb' n 32 := by
  apply BitVec.eq_of_getLsbD_eq
  intro i hi
  simp only [BitVec.getLsbD_append, BitVec.getLsbD_extractLsb']
  interval_cases i <;> simp only [Nat.reduceLT, Nat.reduceSub, decide_true, Bool.true_and, if_true,
    if_false, Nat.add_assoc, Nat.reduceAdd, decide_false]

/-- The two views of the lane file agree: a KSTATE word is its four bytes (R68, R92). -/
theorem ksWord_eq_leWord (a : Lanes) (w : Nat) : ksWord a w = leWord (ksByte a) (4 * w) := by
  have e (j : Nat) (hj : j < 4) : (4 * w + j) / 8 = w / 2 ∧ (4 * w + j) % 8 = 4 * (w % 2) + j := by omega
  have e0 := e 0 (by decide)
  rw [Nat.add_zero] at e0
  unfold ksWord leWord ksByte
  rw [(e 1 (by decide)).1, (e 1 (by decide)).2, (e 2 (by decide)).1, (e 2 (by decide)).2,
    (e 3 (by decide)).1, (e 3 (by decide)).2, e0.1, e0.2]
  rcases Nat.mod_two_eq_zero_or_one w with h | h <;> rw [h]
  · exact (append_bytes_of_extract _ 0).symm
  · exact (append_bytes_of_extract _ 32).symm

@[simp] theorem be64_length (n : Nat) : (be64 n).length = 8 := by simp [be64]

end Sys2Proof.Machine
end

