-- ==== Sys2Proof/Laws/Memory.lean ====
section
/-!
SUPPORT. Buffer memory: the canonical form, and what a store and an abort do to each byte.
-/

namespace Sys2Proof.Machine

theorem Memory.wf_iff (m : Memory) :
    m.wf = true ↔ m.Pairwise (fun p q => p.1 < q.1) ∧ ∀ p ∈ m, p.1 < Config.bufSize := by
  simp [Memory.wf]

@[simp] theorem Memory.lookup_nil (a : Nat) : Memory.lookup [] a = none := rfl

theorem Memory.lookup_cons (p : Host.Cell) (m : Memory) (a : Nat) :
    Memory.lookup (p :: m) a = if p.1 = a then some p.2 else Memory.lookup m a := by
  unfold Memory.lookup
  by_cases h : p.1 = a <;> simp [h]

theorem Memory.lookup_append (m m' : Memory) (a : Nat) :
    Memory.lookup (m ++ m') a = (Memory.lookup m a).or (Memory.lookup m' a) := by
  unfold Memory.lookup
  rw [List.find?_append]
  cases List.find? (fun p => p.1 == a) m <;> rfl

theorem Memory.lookup_filter (m : Memory) (q : Nat → Bool) (a : Nat) :
    Memory.lookup (m.filter fun p => q p.1) a = if q a then Memory.lookup m a else none := by
  induction m with
  | nil => simp
  | cons p m ih =>
    rw [Memory.lookup_cons]
    by_cases hq : q p.1 = true
    · rw [List.filter_cons_of_pos (by simpa using hq), Memory.lookup_cons, ih]
      by_cases h : p.1 = a
      · subst h; simp [hq]
      · simp [h]
    · rw [List.filter_cons_of_neg (by simpa using hq), ih]
      by_cases h : p.1 = a
      · subst h; simp [hq]
      · simp [h]

theorem Memory.lookup_eq_none {m : Memory} {a : Nat} (h : ∀ p ∈ m, p.1 ≠ a) :
    Memory.lookup m a = none := by
  simp only [Memory.lookup, Option.map_eq_none_iff, List.find?_eq_none, beq_iff_eq]
  exact h

theorem cellsFrom_cons (a : Nat) (b : Byte) (bs : Bytes) :
    cellsFrom a (b :: bs) = (a, b) :: cellsFrom (a + 1) bs := by
  simp [cellsFrom, List.range_succ_eq_map, Function.comp_def, Nat.add_assoc, Nat.add_comm 1]

theorem lookup_cellsFrom (a : Nat) (bs : Bytes) (b : Nat) :
    Memory.lookup (cellsFrom a bs) b =
      if a ≤ b ∧ b < a + bs.length then some (bs.getD (b - a) 0) else none := by
  induction bs generalizing a with
  | nil => simp [cellsFrom]
  | cons x bs ih =>
    rw [cellsFrom_cons, Memory.lookup_cons, ih]
    by_cases h : a = b
    · subst h; simp
    · by_cases h2 : a + 1 ≤ b ∧ b < a + 1 + bs.length
      · rw [if_neg h, if_pos h2, if_pos (by simp only [List.length_cons]; omega),
          show b - a = (b - (a + 1)) + 1 by omega, List.getD_cons_succ]
      · rw [if_neg h, if_neg h2, if_neg (by simp only [List.length_cons]; omega)]

theorem mem_cellsFrom {a : Nat} {bs : Bytes} {p : Host.Cell} (h : p ∈ cellsFrom a bs) :
    a ≤ p.1 ∧ p.1 < a + bs.length := by
  simp only [cellsFrom, List.mem_map, List.mem_range] at h
  obtain ⟨i, hi, rfl⟩ := h
  constructor
  · exact Nat.le_add_right _ _
  · show a + i < a + bs.length
    omega

theorem cellsFrom_sorted (a : Nat) (bs : Bytes) :
    (cellsFrom a bs).Pairwise fun p q => p.1 < q.1 := by
  induction bs generalizing a with
  | nil => simp [cellsFrom]
  | cons x bs ih =>
    rw [cellsFrom_cons, List.pairwise_cons]
    refine ⟨fun p hp => ?_, ih _⟩
    have := (mem_cellsFrom hp).1
    show a < p.1
    omega

/-- What a store leaves at each offset (R15). -/
theorem Memory.lookup_store (m : Memory) (a : Nat) (bs : Bytes) (b : Nat) :
    (m.store a bs).lookup b =
      if a ≤ b ∧ b < a + bs.length then some (bs.getD (b - a) 0) else m.lookup b := by
  unfold Memory.store
  rw [Memory.lookup_append, Memory.lookup_append, Memory.lookup_filter m (fun x => decide (x < a)),
    Memory.lookup_filter m (fun x => decide (a + bs.length ≤ x)), lookup_cellsFrom]
  by_cases h1 : b < a
  · simp [h1, show ¬ (a ≤ b ∧ b < a + bs.length) by omega, show ¬ a + bs.length ≤ b by omega]
  · by_cases h2 : b < a + bs.length
    · simp [show a ≤ b ∧ b < a + bs.length by omega, show ¬ a + bs.length ≤ b by omega, h1]
    · simp [show ¬ (a ≤ b ∧ b < a + bs.length) by omega, show a + bs.length ≤ b by omega, h1]

/-- A store inside BUF keeps the canonical form. -/
theorem Memory.wf_store {m : Memory} {a : Nat} {bs : Bytes} (h : m.wf = true)
    (hb : a + bs.length ≤ Config.bufSize) : (m.store a bs).wf = true := by
  rw [Memory.wf_iff] at h ⊢
  obtain ⟨hs, hi⟩ := h
  constructor
  · unfold Memory.store
    rw [List.pairwise_append, List.pairwise_append]
    refine ⟨⟨hs.filter _, cellsFrom_sorted a bs, ?_⟩, hs.filter _, ?_⟩
    · intro p hp q hq
      have h1 := (List.mem_filter.mp hp).2
      have h2 := (mem_cellsFrom hq).1
      simp only [decide_eq_true_eq] at h1
      omega
    · intro p hp q hq
      have h2 := (List.mem_filter.mp hq).2
      simp only [decide_eq_true_eq] at h2
      rcases List.mem_append.mp hp with hp | hp
      · have h1 := (List.mem_filter.mp hp).2
        simp only [decide_eq_true_eq] at h1
        omega
      · have h1 := (mem_cellsFrom hp).2
        omega
  · intro p hp
    unfold Memory.store at hp
    rcases List.mem_append.mp hp with hp | hp
    · rcases List.mem_append.mp hp with hp | hp
      · exact hi p (List.mem_filter.mp hp).1
      · have := (mem_cellsFrom hp).2
        omega
    · exact hi p (List.mem_filter.mp hp).1

/-- What an abort leaves at each offset (R383). -/
theorem Memory.lookup_scramble (m : Memory) (k addr n b : Nat) :
    (m.scramble k addr n).lookup b =
      if addr ≤ b ∧ b < addr + n ∧ b < Config.bufSize then some (Config.abortByte k b)
      else m.lookup b := by
  unfold Memory.scramble clipEnd
  by_cases h : addr < min (addr + n) Config.bufSize
  · rw [if_pos h, Memory.lookup_store]
    simp only [List.length_map, List.length_range]
    by_cases hb : addr ≤ b ∧ b < addr + n ∧ b < Config.bufSize
    · rw [if_pos (by omega), if_pos hb]
      have : b - addr < min (addr + n) Config.bufSize - addr := by omega
      simp [List.getD_eq_getElem?_getD, this, show addr + (b - addr) = b by omega]
    · rw [if_neg (by omega), if_neg hb]
  · rw [if_neg h, if_neg (by omega)]

/-- An abort keeps the canonical form. -/
theorem Memory.wf_scramble {m : Memory} (k addr n : Nat) (h : m.wf = true) :
    (m.scramble k addr n).wf = true := by
  unfold Memory.scramble clipEnd
  split
  · apply Memory.wf_store h
    simp only [List.length_map, List.length_range]
    omega
  · exact h

/-- In the canonical form, memories that list the same bytes are the same list. -/
theorem Memory.ext_of_wf {m m' : Memory} (h : m.wf = true) (h' : m'.wf = true)
    (he : ∀ a, m.lookup a = m'.lookup a) : m = m' := by
  rw [Memory.wf_iff] at h h'
  replace h := h.1
  replace h' := h'.1
  induction m generalizing m' with
  | nil =>
    cases m' with
    | nil => rfl
    | cons p m' => simpa [Memory.lookup_cons] using he p.1
  | cons p m ih =>
    cases m' with
    | nil => simpa [Memory.lookup_cons] using he p.1
    | cons q m' =>
      rw [List.pairwise_cons] at h h'
      have hpq : p.1 = q.1 := by
        rcases Nat.lt_trichotomy p.1 q.1 with hlt | heq | hgt
        · have := he p.1
          rw [Memory.lookup_cons, if_pos rfl, Memory.lookup_cons, if_neg (by omega),
            Memory.lookup_eq_none fun r hr => by have := h'.1 r hr; omega] at this
          cases this
        · exact heq
        · have := he q.1
          rw [Memory.lookup_cons q, if_pos rfl, Memory.lookup_cons, if_neg (by omega),
            Memory.lookup_eq_none fun r hr => by have := h.1 r hr; omega] at this
          cases this
      have hv : p.2 = q.2 := by
        have := he p.1
        rw [Memory.lookup_cons, if_pos rfl, Memory.lookup_cons, if_pos hpq.symm] at this
        exact Option.some.inj this
      rw [show p = q from Prod.ext hpq hv, ih (he := fun a => ?_) h.2 h'.2]
      have := he a
      rw [Memory.lookup_cons, Memory.lookup_cons, hpq] at this
      by_cases ha : q.1 = a
      · subst ha
        rw [Memory.lookup_eq_none fun r hr => by have := h.1 r hr; omega,
          Memory.lookup_eq_none fun r hr => by have := h'.1 r hr; omega]
      · simpa [ha] using this

/-- What a store leaves in each byte of BUF. -/
theorem bufByte_memWrite (s : State) (a : Nat) (bs : Bytes) (b : Nat) :
    bufByte (memWrite s a bs) b =
      if a ≤ b ∧ b < a + bs.length then bs.getD (b - a) 0 else bufByte s b := by
  unfold bufByte
  rw [memWrite_buf, memWrite_bufDraw, Memory.lookup_store]
  split <;> rfl

@[simp] theorem memRead_length (s : State) (a n : Nat) : (memRead s a n).length = n := by
  simp [memRead]

theorem memRead_getD (s : State) (a n i : Nat) :
    (memRead s a n).getD i 0 = if i < n then bufByte s (a + i) else 0 := by
  unfold memRead
  by_cases h : i < n <;> simp [List.getD_eq_getElem?_getD, h]

/-- A byte string read back from where it was stored. -/
theorem memRead_memWrite_same (s : State) (a : Nat) (bs : Bytes) :
    memRead (memWrite s a bs) a bs.length = bs := by
  apply List.ext_getElem (by simp)
  intro i h1 h2
  have hi : i < bs.length := h2
  simp [memRead, bufByte_memWrite, hi, List.getD_eq_getElem?_getD]

/-- A byte string read from a range that a store does not touch. -/
theorem memRead_memWrite_disjoint (s : State) (a : Nat) (bs : Bytes) (b n : Nat)
    (h : n = 0 ∨ b + n ≤ a ∨ a + bs.length ≤ b) :
    memRead (memWrite s a bs) b n = memRead s b n := by
  unfold memRead
  apply List.map_congr_left
  intro i hi
  have := List.mem_range.mp hi
  rw [bufByte_memWrite, if_neg (by omega)]

/-- `memRead` depends on nothing but BUF. -/
theorem memRead_congr {s t : State} (hb : t.buf = s.buf) (hd : t.bufDraw = s.bufDraw) (a n : Nat) :
    memRead t a n = memRead s a n := by
  simp [memRead, bufByte, hb, hd]

end Sys2Proof.Machine
end

