-- ==== Sys2Proof/Laws/Exec.lean ====
section
/-!
SUPPORT. Everything a command can do, said once: it fails with one error and changes nothing else,
or it commits its effect.
-/

namespace Sys2Proof.Machine

theorem firstFailure_eq_none {checks : List (Bool × CmdError)} :
    firstFailure checks = none ↔ ∀ c ∈ checks, c.1 = true := by
  induction checks with
  | nil => simp [firstFailure]
  | cons c rest ih =>
    obtain ⟨ok, e⟩ := c
    cases ok <;> simp [firstFailure, ih]

theorem firstFailure_append (a b : List (Bool × CmdError)) :
    firstFailure (a ++ b) = (firstFailure a).or (firstFailure b) := by
  induction a with
  | nil => rfl
  | cons c rest ih =>
    obtain ⟨ok, e⟩ := c
    cases ok <;> simp [firstFailure, ih]

theorem firstFailure_mem {checks : List (Bool × CmdError)} {e : CmdError}
    (h : firstFailure checks = some e) : (false, e) ∈ checks := by
  induction checks with
  | nil => simp [firstFailure] at h
  | cons c rest ih =>
    obtain ⟨ok, e'⟩ := c
    cases ok
    · simp [firstFailure] at h
      simp [h]
    · exact List.mem_cons_of_mem _ (ih (by simpa [firstFailure] using h))

/-- The check that fails first when command `i` runs in `s`, if one does. -/
def failureOf (i : Instr) (s : State) : Option CmdError :=
  match i with
  | .nop => none
  | .kzero => none
  | .kperm => none
  | .kround ir => firstFailure [(decide (ir ≤ 23), ⟨.badRound, offCmd⟩)]
  | .ksponge => firstFailure (spongeChecks s)
  | .akey => firstFailure [(keyLenLegal s, ⟨.badKeyLen, offAesCfg⟩)]
  | .aenc => firstFailure [keyedCheck s]
  | .gmul => none
  | .ghash => firstFailure [rangeCheck (srcRange s) offSrcAddr]
  | .gcmenc => firstFailure (gcmChecks s)
  | .gcmdec => firstFailure (gcmChecks s ++ [tagLenCheck s] ++ [tagCheck s])

/-- The state with the effect of command `i`, before completion. -/
def effectOf (i : Instr) (s : State) : State :=
  match i with
  | .nop => s
  | .kzero => clearKs s
  | .kperm => permuteKs s
  | .kround ir => roundKs ir s
  | .ksponge => spongeEffect s
  | .akey => loadKey s
  | .aenc => aencEffect s
  | .gmul => gmulEffect s
  | .ghash => ghashEffect s
  | .gcmenc => gcmencEffect s
  | .gcmdec => gcmdecEffect s

/-- The state that a command leaves: the error of the failing check recorded, or the effect `u`
committed. -/
def settled (e : Option CmdError) (u s : State) : State :=
  match e with
  | some e => completeError e s
  | none => complete u

theorem guarded_commit (checks : List (Bool × CmdError)) (f : State → State) (s : State) :
    guarded checks (commit f) s = .next (settled (firstFailure checks) (f s) s) := by
  unfold guarded settled commit
  split <;> simp only [*]

/-- The outcome of every command (R322, R325, R326). -/
theorem exec_eq (i : Instr) (s : State) :
    exec i s = .next (settled (failureOf i s) (effectOf i s) s) := by
  cases i with
  | nop => rfl
  | kzero => rfl
  | kperm => rfl
  | gmul => rfl
  | kround ir => exact guarded_commit _ _ s
  | ksponge => exact guarded_commit _ _ s
  | akey => exact guarded_commit _ _ s
  | aenc => exact guarded_commit _ _ s
  | ghash => exact guarded_commit _ _ s
  | gcmenc => exact guarded_commit _ _ s
  | gcmdec =>
    simp only [exec, execGcmdec, guarded_commit, failureOf, effectOf]
    rw [firstFailure_append (gcmChecks s ++ [tagLenCheck s])]
    unfold guarded
    cases firstFailure (gcmChecks s ++ [tagLenCheck s]) <;> rfl

/-- A command either fails with one error and changes nothing else, or commits its effect (R323). -/
theorem exec_cases {i : Instr} {s t : State} (h : exec i s = .next t) :
    (∃ e, failureOf i s = some e ∧ t = completeError e s) ∨
      (failureOf i s = none ∧ t = complete (effectOf i s)) := by
  rw [exec_eq] at h
  replace h := (Host.Outcome.next.inj h).symm
  cases hf : failureOf i s with
  | some e => exact .inl ⟨e, rfl, by rw [h, hf]; rfl⟩
  | none => exact .inr ⟨rfl, by rw [h, hf]; rfl⟩

theorem exec_of_failure {i : Instr} {s : State} {e : CmdError} (h : failureOf i s = some e) :
    exec i s = .next (completeError e s) := by rw [exec_eq, h]; rfl

theorem exec_of_no_failure {i : Instr} {s : State} (h : failureOf i s = none) :
    exec i s = .next (complete (effectOf i s)) := by rw [exec_eq, h]; rfl

/-- Every command ends in a next state (R324). -/
theorem exec_next (i : Instr) (s : State) : ∃ t, exec i s = .next t := ⟨_, exec_eq i s⟩

/-- What no command's effect changes. -/
theorem effectOf_frame (i : Instr) (s : State) :
    (effectOf i s).ie = s.ie ∧ (effectOf i s).compat = s.compat ∧ (effectOf i s).done = s.done ∧
    (effectOf i s).err = s.err ∧ (effectOf i s).ovr = s.ovr ∧ (effectOf i s).errCode = s.errCode ∧
    (effectOf i s).errParam = s.errParam ∧ (effectOf i s).lastCmd = s.lastCmd ∧
    (effectOf i s).latch = s.latch ∧ (effectOf i s).bufDraw = s.bufDraw ∧
    (effectOf i s).draws = s.draws ∧ (effectOf i s).events = s.events ∧
    (effectOf i s).response = s.response := by
  cases i <;> exact ⟨rfl, rfl, rfl, rfl, rfl, rfl, rfl, rfl, rfl, rfl, rfl, rfl, rfl⟩

/-! ### Which command's effect changes what -/

theorem effectOf_keySchedule {i : Instr} (h : i ≠ .akey) (s : State) :
    (effectOf i s).rk = s.rk ∧ (effectOf i s).nr = s.nr ∧ (effectOf i s).keyed = s.keyed := by
  cases i
  case akey => exact absurd rfl h
  all_goals exact ⟨rfl, rfl, rfl⟩

theorem effectOf_authOk {i : Instr} (h : i ≠ .gcmdec) (s : State) :
    (effectOf i s).authOk = s.authOk := by
  cases i
  case gcmdec => exact absurd rfl h
  all_goals rfl

theorem effectOf_blkOut {i : Instr} (h : i ≠ .aenc) (s : State) :
    (effectOf i s).blkOut = s.blkOut := by
  cases i
  case aenc => exact absurd rfl h
  all_goals rfl

theorem effectOf_gcm {i : Instr} (h : i ≠ .gcmenc) (h' : i ≠ .gcmdec) (s : State) :
    (effectOf i s).gcmJ0 = s.gcmJ0 ∧ (effectOf i s).gcmCtr = s.gcmCtr ∧
      (effectOf i s).gcmH = s.gcmH := by
  cases i
  case gcmenc => exact absurd rfl h
  case gcmdec => exact absurd rfl h'
  all_goals exact ⟨rfl, rfl, rfl⟩

theorem effectOf_gcmTag {i : Instr} (h : i ≠ .gcmenc) (s : State) :
    (effectOf i s).gcmTag = s.gcmTag := by
  cases i
  case gcmenc => exact absurd rfl h
  all_goals rfl

theorem effectOf_gcmTagx (i : Instr) (s : State) : (effectOf i s).gcmTagx = s.gcmTagx := by
  cases i <;> rfl

theorem effectOf_ks {i : Instr} (h : i ∉ [.kzero, .kperm, .ksponge]) (h' : ∀ ir, i ≠ .kround ir)
    (s : State) : (effectOf i s).ks = s.ks := by
  cases i
  case kzero => simp at h
  case kperm => simp at h
  case ksponge => simp at h
  case kround ir => exact absurd rfl (h' ir)
  all_goals rfl

theorem effectOf_buf {i : Instr} (h : i ∉ [.ksponge, .gcmenc, .gcmdec]) (s : State) :
    (effectOf i s).buf = s.buf := by
  cases i
  case ksponge => simp at h
  case gcmenc => simp at h
  case gcmdec => simp at h
  all_goals rfl

/-- The error of a failing command never has code 0, and its parameter is one R340 gives. -/
theorem failureOf_legal {i : Instr} {s : State} {e : CmdError} (h : failureOf i s = some e) :
    e.code ≠ .none ∧ e.param ∈ errParamsOf e.code := by
  have key : ∀ c ∈ ([⟨.badRound, offCmd⟩, ⟨.badRate, offSpongeCfg⟩, ⟨.badSuffix, offSpongeCfg⟩,
      ⟨.badOutLen, offOutLen⟩, ⟨.badRange, offSrcAddr⟩, ⟨.badRange, offDstAddr⟩,
      ⟨.badKeyLen, offAesCfg⟩, ⟨.notKeyed, offAesNr⟩, ⟨.badIvLen, offIvLen⟩, ⟨.badRange, offIvAddr⟩,
      ⟨.badRange, offAadAddr⟩, ⟨.overlap, offDstAddr⟩, ⟨.badTagLen, offGcmCfg⟩,
      ⟨.authFail, offGcmTagx⟩] : List CmdError), c.code ≠ .none ∧ c.param ∈ errParamsOf c.code := by
    decide
  apply key
  cases i
  case nop => cases h
  case kzero => cases h
  case kperm => cases h
  case gmul => cases h
  all_goals
    have hm := firstFailure_mem h
    clear h key
    simp only [spongeChecks, gcmChecks, rangeCheck, keyedCheck, tagLenCheck, tagCheck, List.mem_cons,
      List.mem_append, List.not_mem_nil, or_false, Prod.mk.injEq] at hm ⊢
    tauto

end Sys2Proof.Machine
end

