-- ==== Sys2Proof/Laws/Checks.lean ====
section
/-!
SUPPORT. What each check of the commands says, as a proposition on the state.
-/

namespace Sys2Proof.Machine

theorem BufRange.valid_iff (r : BufRange) : r.valid = true ↔ r.addr + r.len ≤ 65536 := decide_eq_true_iff

theorem BufRange.valid_eq_false_iff (r : BufRange) : r.valid = false ↔ 65536 < r.addr + r.len := by
  rw [← Bool.not_eq_true, BufRange.valid_iff]
  omega

theorem rateLegal_iff (s : State) :
    rateLegal s = true ↔ ∃ k, 1 ≤ k ∧ k ≤ 24 ∧ s.rate.toNat = 8 * k := by
  simp only [rateLegal, decide_eq_true_eq]
  constructor
  · rintro ⟨h0, h1, h2⟩
    exact ⟨s.rate.toNat / 8, by omega, by omega, by omega⟩
  · rintro ⟨k, h0, h1, h2⟩
    omega

theorem suffixLegal_iff (s : State) :
    suffixLegal s = true ↔ 0x01 ≤ s.suffix.toNat ∧ s.suffix.toNat ≤ 0x7F := decide_eq_true_iff

theorem keyLenLegal_iff (s : State) :
    keyLenLegal s = true ↔ s.keyLen.toNat = 16 ∨ s.keyLen.toNat = 24 ∨ s.keyLen.toNat = 32 :=
  decide_eq_true_iff

theorem tagLenLegal_iff (s : State) :
    tagLenLegal s = true ↔ s.tagLen.toNat ∈ [4, 8, 12, 13, 14, 15, 16] := by
  simp only [tagLenLegal, decide_eq_true_eq, List.mem_cons, List.not_mem_nil, or_false]
  omega

theorem textRangesOk_iff (s : State) : textRangesOk s = true ↔ TextRangesOk s := decide_eq_true_iff

/-- KSPONGE runs exactly with the operands of `SpongeOperandsOk`. -/
theorem failureOf_ksponge (s : State) : failureOf .ksponge s = none ↔ SpongeOperandsOk s := by
  simp [failureOf, firstFailure_eq_none, spongeChecks, SpongeOperandsOk, rangeCheck, rateLegal_iff,
    suffixLegal_iff, BufRange.valid_iff, srcRange, spongeOutRange]

/-- GCMENC runs exactly with the operands of `GcmOperandsOk`. -/
theorem failureOf_gcmenc (s : State) : failureOf .gcmenc s = none ↔ GcmOperandsOk s := by
  simp [failureOf, firstFailure_eq_none, gcmChecks, GcmOperandsOk, keyedCheck, rangeCheck,
    BufRange.valid_iff, textRangesOk_iff, ivRange, aadRange, srcRange, textOutRange]

/-- GCMDEC fails as GCMENC would, or else on its own two checks (R300). -/
theorem failureOf_gcmdec (s : State) :
    failureOf .gcmdec s = (failureOf .gcmenc s).or (firstFailure [tagLenCheck s, tagCheck s]) := by
  simp only [failureOf, List.append_assoc, firstFailure_append (gcmChecks s)]
  rfl

/-- The first bytes of two blocks are equal as byte strings exactly when each of them is. -/
theorem take_eq_iff (a b : Block) {n : Nat} (hn : n ≤ 16) :
    a.toList.take n = b.toList.take n ↔ ∀ k < n, byteAt a k = byteAt b k := by
  constructor
  · intro h k hk
    have hg := congrArg (fun l => l.getD k 0) h
    simpa [byteAt_eq_toList_getD, List.getD_eq_getElem?_getD, List.getElem?_take, hk] using hg
  · intro h
    apply List.ext_getElem (by simp)
    intro i h1 h2
    have hi : i < n := by simp only [List.length_take, Vector.length_toList] at h1; omega
    have hb := h i hi
    rw [byteAt_eq_getElem _ (by omega), byteAt_eq_getElem _ (by omega)] at hb
    simpa using hb

end Sys2Proof.Machine
end

