-- ==== Sys2Proof/Laws/Lengths.lean ====
section
/-!
SUPPORT. The lengths of the byte strings that the commands compute.
-/

namespace Sys2Proof.Machine

@[simp] theorem rateBytes_length (r : Nat) (a : Lanes) : (rateBytes r a).length = r := by
  simp [rateBytes]

theorem squeeze_length (r n : Nat) (a : Lanes) : (squeeze r n a).1.length = r * (n + 1) := by
  induction n generalizing a with
  | zero => simp [squeeze]
  | succ n ih => simp [squeeze, ih]; ring

/-- `r` bytes a block, `squeezeSteps r n + 1` blocks are at least `n` bytes (R185). -/
theorem le_squeeze_total {r : Nat} (hr : 0 < r) (n : Nat) : n ≤ r * (squeezeSteps r n + 1) := by
  unfold squeezeSteps
  have h := Nat.div_add_mod (n - 1) r
  have := Nat.mod_lt (n - 1) hr
  rw [Nat.mul_add, Nat.mul_one]
  omega

/-- The sponge gives exactly the bytes asked for (R185, R186). -/
theorem sponge_length (m : Bytes) {r : Nat} (hr : 0 < r) (d : Byte) (n : Nat) :
    (sponge m r d n).1.length = n := by
  simp only [sponge, List.length_take, squeeze_length]
  exact Nat.min_eq_left (le_squeeze_total hr n)

@[simp] theorem xorBytes_length (a b : Bytes) : (xorBytes a b).length = min a.length b.length := by
  simp [xorBytes]

/-- GCTR after its first `n` blocks: the output is as long as the input taken in, and the counter
block has been incremented `n` times (R284, R286). -/
theorem gctr_prefix (e : Block → Block) (icb : Block) (x : Bytes) (n : Nat) :
    ((List.range n).foldl (gctrStep e x) ([], icb)).1.length = min (16 * n) x.length ∧
      ((List.range n).foldl (gctrStep e x) ([], icb)).2 = inc32^[n] icb := by
  induction n with
  | zero => simp
  | succ n ih =>
    rw [List.range_succ, List.foldl_append]
    simp only [List.foldl_cons, List.foldl_nil, gctrStep, List.length_append, ih.1, ih.2,
      xorBytes_length, List.length_take, List.length_drop, Vector.length_toList,
      Function.iterate_succ_apply', and_true]
    omega

/-- The output of GCTR is as long as its input (R285). -/
@[simp] theorem gctr_length (e : Block → Block) (icb : Block) (x : Bytes) :
    (gctr e icb x).1.length = x.length := by
  unfold gctr blockCount
  rw [(gctr_prefix e icb x _).1]
  omega

/-- The counter block GCTR returns (R284, R286). -/
theorem gctr_counter (e : Block → Block) (icb : Block) (x : Bytes) :
    (gctr e icb x).2 = inc32^[blockCount x] icb := (gctr_prefix e icb x _).2

@[simp] theorem readRange_length (s : State) (r : BufRange) : (readRange s r).length = r.len := by
  simp [readRange]

@[simp] theorem gcmText_length (s : State) : (gcmText s).1.length = s.srcLen.toNat := by
  simp [gcmText, srcRange]

theorem spongeResult_length {s : State} (h : rateLegal s = true) :
    (spongeResult s).1.length = s.outLen.toNat := by
  simp only [rateLegal, decide_eq_true_eq] at h
  exact sponge_length _ h.1 _ _

end Sys2Proof.Machine
end

