-- ==== Sys2Proof/Laws/PerInstr.lean ====
section
/-!
SUPPORT. Statements made for each command as syntax, with one lemma for each constructor.
-/

namespace Sys2Proof.Laws.EncodeFields

/-- The three fields of the command word of `i` (R130, R133): OP is the opcode of `i`, ARG its
operand, RSV is 0. -/
def Statement (i : Instr) : Prop :=
  i.wellFormed = true →
    opField (encode i) = opcode i ∧ argField (encode i) = argOf i ∧ rsvField (encode i) = 0

theorem nop : Statement .nop := fun _ => ⟨rfl, rfl, rfl⟩
theorem kzero : Statement .kzero := fun _ => ⟨rfl, rfl, rfl⟩
theorem kperm : Statement .kperm := fun _ => ⟨rfl, rfl, rfl⟩
theorem ksponge : Statement .ksponge := fun _ => ⟨rfl, rfl, rfl⟩
theorem akey : Statement .akey := fun _ => ⟨rfl, rfl, rfl⟩
theorem aenc : Statement .aenc := fun _ => ⟨rfl, rfl, rfl⟩
theorem gmul : Statement .gmul := fun _ => ⟨rfl, rfl, rfl⟩
theorem ghash : Statement .ghash := fun _ => ⟨rfl, rfl, rfl⟩
theorem gcmenc : Statement .gcmenc := fun _ => ⟨rfl, rfl, rfl⟩
theorem gcmdec : Statement .gcmdec := fun _ => ⟨rfl, rfl, rfl⟩

theorem kround (ir : Nat) : Statement (.kround ir) := by
  intro h
  have hi : ir < 256 := of_decide_eq_true h
  have hn : (encode (.kround ir)).toNat = 3 + ir * 256 := by
    simp only [encode, opcode, argOf, BitVec.toNat_ofNat]
    omega
  simp only [opField, argField, rsvField, BitVec.extractLsb'_toNat, hn, opcode, argOf,
    Nat.shiftRight_eq_div_pow]
  omega

end Sys2Proof.Laws.EncodeFields
end

