-- ==== Sys2Proof/Laws/Step.lean ====
section
/-!
SUPPORT. Everything a step can do, said once, and what a host write can do to each part of the state.
-/

namespace Sys2Proof.Machine

/-! ### Events -/

theorem busAccess_next {off width : Nat} {f : State → State} {s t : State}
    (h : busAccess off width f s = .next t) :
    off < Config.windowSize ∧
      ((width = 4 ∧ off % 4 = 0 ∧ t = f s) ∨
        (¬ (width = 4 ∧ off % 4 = 0) ∧ t = { s with response := .busError Config.busErrorResponse })) := by
  unfold busAccess at h
  split at h
  · cases h
  · rename_i hw
    refine ⟨Nat.lt_of_not_le hw, ?_⟩
    split at h
    · rename_i ha
      simp only [accessLegal, decide_eq_true_eq] at ha
      exact .inl ⟨ha.1, ha.2, (Host.Outcome.next.inj h).symm⟩
    · rename_i ha
      simp only [accessLegal, decide_eq_true_eq] at ha
      exact .inr ⟨ha, (Host.Outcome.next.inj h).symm⟩

theorem busAccess_legal {off : Nat} (f : State → State) (s : State) (h : off < Config.windowSize)
    (ha : off % 4 = 0) : busAccess off 4 f s = .next (f s) := by
  unfold busAccess
  rw [if_neg (Nat.not_le_of_lt h), if_pos (by simpa [accessLegal] using ha)]

theorem busAccess_illegal {off width : Nat} (f : State → State) (s : State)
    (h : off < Config.windowSize) (ha : width ≠ 4 ∨ off % 4 ≠ 0) :
    busAccess off width f s = .next { s with response := .busError Config.busErrorResponse } := by
  unfold busAccess
  rw [if_neg (Nat.not_le_of_lt h), if_neg (by simp only [accessLegal, decide_eq_true_eq]; omega)]

theorem busAccess_outside {off : Nat} (width : Nat) (f : State → State) (s : State)
    (h : Config.windowSize ≤ off) : busAccess off width f s = .refused (.outsideWindow off) := by
  unfold busAccess
  rw [if_pos h]

/-- A read leaves the state as it is, or takes one draw (R109). -/
theorem hostRead_state (off : Nat) (s : State) :
    (hostRead off s).2 = s ∨ (hostRead off s).2 = { s with draws := s.draws + 1 } := by
  unfold hostRead
  split
  · exact .inr rfl
  · exact .inl rfl

/-- The word the engine works on always ends in a next state, an error or an effect (R322). -/
theorem runWord_eq (w : Word) (s : State) :
    runWord w s = .next (match decode w with
      | .error _ => completeError ⟨.illegalCmd, offCmd⟩ s
      | .ok i => settled (failureOf i s) (effectOf i s) s) := by
  unfold runWord
  split <;> simp only [exec_eq, *]

theorem runWord_of_ok {w : Word} {i : Instr} (h : decode w = .ok i) (s : State) :
    runWord w s = exec i s := by
  unfold runWord
  rw [h]

theorem runWord_of_error {w : Word} {e : DecodeError} (h : decode w = .error e) (s : State) :
    runWord w s = .next (completeError ⟨.illegalCmd, offCmd⟩ s) := by
  unfold runWord
  rw [h]

/-! ### Host writes (`44_control.md` R320) -/

theorem hostWrite_busy {s : State} {off : Nat} {v : Word} (h : s.busy = true) (h4 : off ≠ 0x004)
    (hc : off ≠ 0x00C) : hostWrite off v s = { s with ovr := true } := by
  simp [hostWrite, h, h4, hc]

theorem hostWrite_cmd {s : State} {v : Word} (h : s.busy = false) :
    hostWrite 0x008 v s = accept v s := by
  simp [hostWrite, h]

theorem hostWrite_idle {s : State} {off : Nat} {v : Word} (h : s.busy = false) (h4 : off ≠ 0x004)
    (hc : off ≠ 0x00C) (h8 : off ≠ 0x008) :
    hostWrite off v s = writeTarget s v (target off) := by
  simp [hostWrite, h, h4, hc, h8]

/-- Everything a host write can be (R320). -/
inductive WriteCase (off : Nat) (v : Word) (s t : State) : Prop where
  /-- The strobe of CTRL. -/
  | strobe (ho : off = 0x004) (hv : v.getLsbD 31 = true) (ht : t = softReset s)
  /-- IE and COMPAT. -/
  | ctrl (ho : off = 0x004) (hv : v.getLsbD 31 = false)
    (ht : t = { s with ie := v.getLsbD 0, compat := v.getLsbD 1 })
  /-- The write-one-to-clear bits of STATUS. -/
  | status (ho : off = 0x00C) (ht : t = writeStatus v s)
  /-- Discarded while busy. -/
  | overrun (h4 : off ≠ 0x004) (hc : off ≠ 0x00C) (hb : s.busy = true) (ht : t = { s with ovr := true })
  /-- A command accepted. -/
  | accepted (ho : off = 0x008) (hb : s.busy = false) (ht : t = accept v s)
  /-- A register or a word of a window stored. -/
  | stored (h4 : off ≠ 0x004) (hc : off ≠ 0x00C) (h8 : off ≠ 0x008) (hb : s.busy = false)
    (ht : t = writeTarget s v (target off))

theorem hostWrite_cases (off : Nat) (v : Word) (s : State) : WriteCase off v s (hostWrite off v s) := by
  unfold hostWrite
  split
  · unfold writeCtrl
    split
    · exact .strobe ‹_› ‹_› rfl
    · exact .ctrl ‹_› (Bool.eq_false_iff.2 ‹_›) rfl
  split
  · exact .status ‹_› rfl
  split
  · exact .overrun ‹_› ‹_› ‹_› rfl
  split
  · exact .accepted ‹_› (Bool.eq_false_iff.2 ‹_›) rfl
  · exact .stored ‹_› ‹_› ‹_› (Bool.eq_false_iff.2 ‹_›) rfl

/-- What a write of STATUS leaves of each field (R45, R47, R48, R49). -/
theorem writeStatus_eq (v : Word) (s : State) :
    writeStatus v s = { s with
      done := s.done && !v.getLsbD 1
      err := s.err && !v.getLsbD 2
      errCode := if v.getLsbD 2 then .none else s.errCode
      errParam := if v.getLsbD 2 then 0 else s.errParam
      ovr := s.ovr && !v.getLsbD 3 } := by
  unfold writeStatus
  cases v.getLsbD 1 <;> cases v.getLsbD 2 <;> cases v.getLsbD 3 <;> simp [acknowledgeError]

/-- What the engine's work on a word can be (R322, R323). -/
theorem runWord_cases {w : Word} {s t : State} (h : runWord w s = .next t) :
    (∃ e, decode w = .error e ∧ t = completeError ⟨.illegalCmd, offCmd⟩ s) ∨
    (∃ i e, decode w = .ok i ∧ failureOf i s = some e ∧ t = completeError e s) ∨
    (∃ i, decode w = .ok i ∧ failureOf i s = none ∧ t = complete (effectOf i s)) := by
  rw [runWord_eq] at h
  replace h := (Host.Outcome.next.inj h).symm
  cases hd : decode w with
  | error e => rw [hd] at h; exact .inl ⟨e, rfl, h⟩
  | ok i =>
    rw [hd] at h
    cases hf : failureOf i s with
    | none => simp only [hf] at h; exact .inr (.inr ⟨i, rfl, hf, h⟩)
    | some e => simp only [hf] at h; exact .inr (.inl ⟨i, e, rfl, hf, h⟩)

theorem step_of_nil {s : State} (h : s.events = []) : step s = engineStep s := by
  unfold step
  rw [h]

/-- `s` with the event it takes gone. -/
def took (s : State) (rest : List Event) : State := { s with events := rest }

/-- `s` with the response the bus carried back. -/
def responded (s : State) (r : Response) : State := { s with response := r }

/-- `s` with the draws taken so far. -/
def drew (s : State) (d : Nat) : State := { s with draws := d }

theorem step_of_cons {s : State} {e : Event} {rest : List Event} (h : s.events = e :: rest) :
    step s = perform e (took s rest) := by
  unfold step
  rw [h]
  rfl

theorem engineStep_of_latch {s : State} {l : Latch} (h : s.latch = some l) :
    engineStep s = runWord l.word s := by
  unfold engineStep
  rw [h]

theorem step_of_read {s : State} {off : Nat} {rest : List Event} (hw : off < Config.windowSize)
    (ha : off % 4 = 0) (h : s.events = .read off 4 :: rest) :
    step s = .next (responded (hostRead off (took s rest)).2 (.data (hostRead off (took s rest)).1)) := by
  rw [step_of_cons h, perform, busRead, busAccess_legal _ _ hw ha]
  rfl

theorem step_of_write {s : State} {off : Nat} {v : Word} {rest : List Event}
    (hw : off < Config.windowSize) (ha : off % 4 = 0) (h : s.events = .write off 4 v :: rest) :
    step s = .next (responded (hostWrite off v (took s rest)) .written) := by
  rw [step_of_cons h, perform, busWrite, busAccess_legal _ _ hw ha]
  rfl

/-- The engine is next in `s`, and `rest` are the events after it (R320). -/
def EngineTakes (s : State) (rest : List Event) : Prop :=
  s.events = [] ∧ rest = [] ∨ s.events = .engine :: rest

theorem EngineTakes.next {s : State} {rest : List Event} (h : EngineTakes s rest) : EngineNext s := by
  rcases h with ⟨h, -⟩ | h
  · exact .inl h
  · exact .inr ⟨rest, h⟩

/-- Everything one step from `s` to `t` can be (R320). -/
inductive StepCase (s t : State) : Prop where
  /-- The engine runs a command. -/
  | ran (l : Latch) (i : Instr) (rest : List Event) (hl : s.latch = some l)
    (hd : decode l.word = .ok i) (he : EngineTakes s rest)
    (ht : t = settled (failureOf i (took s rest)) (effectOf i (took s rest)) (took s rest))
  /-- The engine finds an illegal word. -/
  | illegal (l : Latch) (e : DecodeError) (rest : List Event) (hl : s.latch = some l)
    (hd : decode l.word = .error e) (he : EngineTakes s rest)
    (ht : t = completeError ⟨.illegalCmd, offCmd⟩ (took s rest))
  /-- The engine has nothing to do. -/
  | idle (rest : List Event) (hl : s.latch = none) (he : EngineTakes s rest) (ht : t = took s rest)
  /-- A read, or an access that gets the error response; a draw may be taken. -/
  | answered (e : Event) (rest : List Event) (r : Response) (d : Nat) (hev : s.events = e :: rest)
    (he : e ≠ .engine ∧ e ≠ .powerOn ∧ ∀ off v, off % 4 = 0 → e ≠ .write off 4 v)
    (ht : t = responded (drew (took s rest) d) r)
  /-- A write the block takes. -/
  | wrote (off : Nat) (v : Word) (rest : List Event) (hev : s.events = .write off 4 v :: rest)
    (hw : off < Config.windowSize) (ha : off % 4 = 0)
    (ht : t = responded (hostWrite off v (took s rest)) .written)
  /-- Power-on reset. -/
  | poweredOn (rest : List Event) (hev : s.events = .powerOn :: rest)
    (ht : t = powerOnReset (took s rest))

theorem engineStep_cases {s t : State} {rest : List Event} (hr : EngineTakes s rest)
    (h : engineStep (took s rest) = .next t) : StepCase s t := by
  unfold engineStep at h
  split at h
  · rename_i l hl
    rw [runWord_eq] at h
    replace h := (Host.Outcome.next.inj h).symm
    split at h
    · rename_i e hd
      exact .illegal l e rest hl hd hr h
    · rename_i i hd
      exact .ran l i rest hl hd hr h
  · rename_i hl
    exact .idle rest hl hr (Host.Outcome.next.inj h).symm

/-- The transitions of the block (R320): what one step can be. -/
theorem step_cases {s t : State} (h : step s = .next t) : StepCase s t := by
  unfold step at h
  split at h
  · rename_i hev
    refine engineStep_cases (rest := []) (.inl ⟨hev, rfl⟩) ?_
    rw [← h, took, ← hev]
  · rename_i e rest hev
    cases e with
    | engine => exact engineStep_cases (.inr hev) h
    | powerOn => exact .poweredOn rest hev (Host.Outcome.next.inj h).symm
    | read off width =>
      replace h : busRead off width (took s rest) = .next t := h
      obtain ⟨-, ⟨-, -, ht⟩ | ⟨-, ht⟩⟩ := busAccess_next h
      · replace ht : t = responded (hostRead off (took s rest)).2
          (.data (hostRead off (took s rest)).1) := ht
        rcases hostRead_state off (took s rest) with hs | hs
        · exact .answered _ rest _ s.draws hev (by simp) (by rw [ht, hs]; rfl)
        · exact .answered _ rest _ (s.draws + 1) hev (by simp) (by rw [ht, hs]; rfl)
      · exact .answered _ rest (.busError Config.busErrorResponse) s.draws hev (by simp) ht
    | write off width v =>
      replace h : busWrite off width v (took s rest) = .next t := h
      obtain ⟨hw, ⟨rfl, ha, ht⟩ | ⟨hn, ht⟩⟩ := busAccess_next h
      · exact .wrote off v rest hev hw ha ht
      · refine .answered _ rest (.busError Config.busErrorResponse) s.draws hev ⟨by simp, by simp, ?_⟩ ht
        intro o x hx he
        obtain ⟨rfl, rfl, -⟩ := Event.write.inj he
        exact hn ⟨rfl, hx⟩

end Sys2Proof.Machine
end

