-- ==== Sys2Proof/Laws/Registers.lean ====
section
/-!
SUPPORT. What the offsets of the window name, what a register write leaves alone, and which step can
change a field of the state.
-/

namespace Sys2Proof.Machine

theorem target_of_buf {off : Nat} (h : 0x10000 ≤ off) : target off = .buf (off - 0x10000) := if_pos h

theorem target_of_kstate {off : Nat} (h : 0x200 ≤ off) (h' : off < 0x2C8) :
    target off = .kstate ((off - 0x200) / 4) := by
  have hb : ¬ Config.bufOffset ≤ off := by show ¬ 0x10000 ≤ off; omega
  rw [target, if_neg hb, if_pos ⟨h, h'⟩]

/-- An offset in a byte window names the bytes of its register. -/
theorem target_of_byteWindow {off base size : Nat} {r : ByteReg} (hp : (base, size, r) ∈ byteWindows)
    (h : base ≤ off) (h' : off < base + size) : target off = .bytes r (off - base) := by
  have place : ∀ p ∈ byteWindows, 0x80 ≤ p.1 ∧ p.1 + p.2.1 ≤ 0x10000 ∧
      (p.1 + p.2.1 ≤ 0x200 ∨ 0x2C8 ≤ p.1) := by decide
  have disjoint : ∀ p ∈ byteWindows, ∀ q ∈ byteWindows,
      p = q ∨ p.1 + p.2.1 ≤ q.1 ∨ q.1 + q.2.1 ≤ p.1 := by decide
  obtain ⟨hl, hu, hk⟩ := place _ hp
  have hw : wordRegisters.find? (fun p => p.1 == off) = none := List.find?_eq_none.2 fun p hp' => by
    have : p.1 < 0x80 := (by decide : ∀ p ∈ wordRegisters, p.1 < 0x80) p hp'
    simp only [beq_iff_eq]; omega
  have hb : byteWindows.find? (fun p => decide (p.1 ≤ off ∧ off < p.1 + p.2.1)) = some (base, size, r) := by
    cases hf : byteWindows.find? (fun p => decide (p.1 ≤ off ∧ off < p.1 + p.2.1)) with
    | none => exact absurd (List.find?_eq_none.1 hf _ hp) (by simp [h, h'])
    | some p =>
      have hin := List.find?_some hf
      simp only [decide_eq_true_eq] at hin
      rcases disjoint p (List.mem_of_find?_eq_some hf) _ hp with rfl | hd | hd
      · rfl
      all_goals simp only at hd; omega
  have h1 : ¬ Config.bufOffset ≤ off := by show ¬ 0x10000 ≤ off; simp only at hu; omega
  have h2 : ¬ (0x200 ≤ off ∧ off < 0x2C8) := by simp only at hk; omega
  rw [target, if_neg h1, if_neg h2, hw, hb]

/-- What an offset of the window can name (the register map of `10_state.md`). -/
theorem target_cases (off : Nat) :
    (0x10000 ≤ off ∧ target off = .buf (off - 0x10000)) ∨
    (0x200 ≤ off ∧ off < 0x2C8 ∧ target off = .kstate ((off - 0x200) / 4)) ∨
    (off < 0x10000 ∧ ¬ (0x200 ≤ off ∧ off < 0x2C8) ∧
      ((∃ p ∈ wordRegisters, p.1 = off ∧ target off = p.2) ∨
      (∃ p ∈ byteWindows, p.1 ≤ off ∧ off < p.1 + p.2.1 ∧ target off = .bytes p.2.2 (off - p.1)) ∨
      target off = .reserved)) := by
  by_cases h : 0x10000 ≤ off
  · exact .inl ⟨h, target_of_buf h⟩
  by_cases h' : 0x200 ≤ off ∧ off < 0x2C8
  · exact .inr (.inl ⟨h'.1, h'.2, target_of_kstate h'.1 h'.2⟩)
  refine .inr (.inr ⟨by omega, h', ?_⟩)
  have hb : ¬ Config.bufOffset ≤ off := h
  rw [target, if_neg hb, if_neg h']
  cases hf : wordRegisters.find? (fun p => p.1 == off) with
  | some p => exact .inl ⟨p, List.mem_of_find?_eq_some hf, by simpa using List.find?_some hf, rfl⟩
  | none =>
    right
    cases hg : byteWindows.find? (fun p => decide (p.1 ≤ off ∧ off < p.1 + p.2.1)) with
    | some p =>
      have hp := List.find?_some hg
      simp only [decide_eq_true_eq] at hp
      exact .inl ⟨p, List.mem_of_find?_eq_some hg, hp.1, hp.2, rfl⟩
    | none => exact .inr rfl

/-- What no register write of the map changes: the key schedule and the registers that are
read-only, STATUS, and the latch. -/
theorem writeTarget_frame (s : State) (v : Word) (t : Target) :
    let u := writeTarget s v t
    (u.rk = s.rk ∧ u.nr = s.nr ∧ u.keyed = s.keyed) ∧
    (u.blkOut = s.blkOut ∧ u.gcmJ0 = s.gcmJ0 ∧ u.gcmCtr = s.gcmCtr ∧ u.gcmTag = s.gcmTag) ∧
    (u.done = s.done ∧ u.err = s.err ∧ u.ovr = s.ovr ∧ u.authOk = s.authOk) ∧
    (u.errCode = s.errCode ∧ u.errParam = s.errParam ∧ u.lastCmd = s.lastCmd ∧ u.latch = s.latch) ∧
    (u.bufDraw = s.bufDraw ∧ u.draws = s.draws ∧ u.events = s.events ∧ u.response = s.response) := by
  cases t
  case bytes r k =>
    cases r <;> exact ⟨⟨rfl, rfl, rfl⟩, ⟨rfl, rfl, rfl, rfl⟩, ⟨rfl, rfl, rfl, rfl⟩,
      ⟨rfl, rfl, rfl, rfl⟩, ⟨rfl, rfl, rfl, rfl⟩⟩
  all_goals exact ⟨⟨rfl, rfl, rfl⟩, ⟨rfl, rfl, rfl, rfl⟩, ⟨rfl, rfl, rfl, rfl⟩,
    ⟨rfl, rfl, rfl, rfl⟩, ⟨rfl, rfl, rfl, rfl⟩⟩

/-- A part `f` of the state that neither the life cycle of a command nor the bus around it touches
changes only by a command that commits, a reset, or a register write while idle. -/
theorem step_changes {α : Type} (f : State → α)
    (htook : ∀ s r, f (took s r) = f s) (hresp : ∀ s r, f (responded s r) = f s)
    (hdrew : ∀ s d, f (drew s d) = f s) (hcomplete : ∀ s, f (complete s) = f s)
    (herror : ∀ e s, f (completeError e s) = f s)
    (hctrl : ∀ (s : State) a b, f { s with ie := a, compat := b } = f s)
    (hstatus : ∀ v s, f (writeStatus v s) = f s)
    (hovr : ∀ s : State, f { s with ovr := true } = f s) (haccept : ∀ w s, f (accept w s) = f s)
    {s t : State} (h : step s = .next t) (hc : f t ≠ f s) :
    (∃ i rest, Runs i s ∧ failureOf i (took s rest) = none ∧
      f t = f (effectOf i (took s rest))) ∨
    Resets s ∨
    (∃ off v rest, s.events = .write off 4 v :: rest ∧ s.busy = false ∧ off % 4 = 0 ∧
      off < 0x20000 ∧ f t = f (writeTarget (took s rest) v (target off))) := by
  cases step_cases h with
  | ran l i rest hl hd he ht =>
    subst ht
    cases hf : failureOf i (took s rest) with
    | some e =>
      rw [hf, settled, herror, htook] at hc
      exact absurd rfl hc
    | none => exact .inl ⟨i, rest, ⟨he.next, l, hl, hd⟩, hf, by rw [settled, hcomplete]⟩
  | illegal l e rest hl hd he ht =>
    rw [ht, herror, htook] at hc
    exact absurd rfl hc
  | idle rest hl he ht =>
    rw [ht, htook] at hc
    exact absurd rfl hc
  | answered e rest r d hev he ht =>
    rw [ht, hresp, hdrew, htook] at hc
    exact absurd rfl hc
  | poweredOn rest hev ht => exact .inr (.inl (.inr ⟨rest, hev⟩))
  | wrote off v rest hev hw ha ht =>
    rw [ht, hresp] at hc ⊢
    cases hostWrite_cases off v (took s rest) with
    | strobe ho hv hu => exact .inr (.inl (.inl ⟨v, ⟨rest, by rw [hev, ho]⟩, hv⟩))
    | ctrl ho hv hu =>
      rw [hu, hctrl, htook] at hc
      exact absurd rfl hc
    | status ho hu =>
      rw [hu, hstatus, htook] at hc
      exact absurd rfl hc
    | overrun h4 hcc hb hu =>
      rw [hu, hovr, htook] at hc
      exact absurd rfl hc
    | accepted ho hb hu =>
      rw [hu, haccept, htook] at hc
      exact absurd rfl hc
    | stored h4 hcc h8 hb hu => exact .inr (.inr ⟨off, v, rest, hev, hb, ha, hw, by rw [hu]⟩)

end Sys2Proof.Machine
end

