-- ==== Sys2Proof/Laws/Streams.lean ====
section
/-!
SUPPORT. The byte strings that the commands compute, byte by byte: what the sponge absorbs and emits,
the stored key schedule, and GCTR's output.
-/

namespace Sys2Proof.Machine

theorem foldl_range_congr {α : Type} {f g : α → Nat → α} {n : Nat} {a : α}
    (h : ∀ a, ∀ j < n, f a j = g a j) : (List.range n).foldl f a = (List.range n).foldl g a := by
  induction n with
  | zero => simp
  | succ n ih =>
    simp only [List.range_succ, List.foldl_append, List.foldl_cons, List.foldl_nil]
    rw [ih fun a j hj => h a j (by omega), h _ n (by omega)]

@[simp] theorem absorb_nil (r : Nat) (a : Lanes) : absorb r [] a = a := by simp [absorb]

/-- Absorbing one block more (R184). -/
theorem absorb_append_block {r : Nat} (hr : 0 < r) (a : Lanes) {p b : Bytes} (hp : p.length % r = 0)
    (hb : b.length = r) : absorb r (p ++ b) a = keccakF (xorIntoState (absorb r p a) b) := by
  obtain ⟨n, hn⟩ := Nat.dvd_of_mod_eq_zero hp
  have hq : p.length / r = n := by rw [hn, Nat.mul_div_cancel_left _ hr]
  have hq' : (p ++ b).length / r = n + 1 := by
    rw [List.length_append, hb, Nat.add_div_right _ hr, hq]
  have hlast : blockOf r (p ++ b) n = b := by
    rw [blockOf, Nat.mul_comm, ← hn, List.drop_left, List.take_of_length_le hb.le]
  have hrest : ∀ j < n, blockOf r (p ++ b) j = blockOf r p j := fun j hj => by
    have : j * r + r ≤ p.length := by
      rw [hn, Nat.mul_comm r, ← Nat.succ_mul]
      exact Nat.mul_le_mul_right r hj
    rw [blockOf, blockOf, List.drop_append_of_le_length (by omega),
      List.take_append_of_le_length (by rw [List.length_drop]; omega)]
  rw [absorb, absorb, hq, hq', List.range_succ, List.foldl_append,
    foldl_range_congr fun a j hj => by rw [hrest j hj]]
  simp only [List.foldl_cons, List.foldl_nil, hlast]

theorem rateBytes_getD {r k : Nat} (a : Lanes) (h : k < r) : (rateBytes r a).getD k 0 = ksByte a k := by
  simp [rateBytes, h]

/-- The state squeezing ends in: no permutation follows the last block (R185, R186). -/
theorem squeeze_state (r n : Nat) (a : Lanes) : (squeeze r n a).2 = keccakF^[n] a := by
  induction n generalizing a with
  | zero => rfl
  | succ n ih => exact ih _

/-- Byte `k` of the squeezed stream (R185). -/
theorem squeeze_getD {r : Nat} (hr : 0 < r) (n : Nat) (a : Lanes) {k : Nat} (h : k < r * (n + 1)) :
    (squeeze r n a).1.getD k 0 = ksByte (keccakF^[k / r] a) (k % r) := by
  induction n generalizing a k with
  | zero =>
    have hk : k < r := by simpa using h
    rw [Nat.div_eq_of_lt hk, Nat.mod_eq_of_lt hk]
    exact rateBytes_getD a hk
  | succ n ih =>
    show (rateBytes r a ++ (squeeze r n (keccakF a)).1).getD k 0 = _
    by_cases hk : k < r
    · rw [Nat.div_eq_of_lt hk, Nat.mod_eq_of_lt hk, List.getD_append _ _ _ _ (by simpa using hk)]
      exact rateBytes_getD a hk
    · obtain ⟨j, rfl⟩ := Nat.exists_eq_add_of_le (Nat.le_of_not_lt hk)
      rw [List.getD_append_right _ _ _ _ (by simp), rateBytes_length, Nat.add_sub_cancel_left,
        ih _ (by rw [Nat.mul_succ] at h; omega), Nat.add_div_left _ hr, Nat.add_mod_left,
        Function.iterate_succ_apply]

theorem ksByte_lanesOfBytes (bs : Bytes) {k : Nat} (hk : k < 200) :
    ksByte (lanesOfBytes bs) k = bs.getD k 0 := by
  unfold ksByte lanesOfBytes
  rw [laneAt_tabulate, if_pos (by omega)]
  have hm : k % 8 < 8 := Nat.mod_lt _ (by decide)
  have e : k = 8 * (k / 8) + k % 8 := by omega
  generalize hi : k / 8 = i at *
  generalize hj : k % 8 = j at *
  subst e
  apply BitVec.eq_of_getLsbD_eq
  intro b hb
  rw [BitVec.getLsbD_extractLsb', getLsbD_joinHalves]
  simp only [leWord, BitVec.getLsbD_append]
  interval_cases j <;> simp only [hb, decide_true, Bool.true_and] <;>
    interval_cases b <;> rfl

/-- XORing a block into the state, byte by byte (R162, R184). -/
theorem ksByte_xorIntoState (a : Lanes) (blk : Bytes) {k : Nat} (hk : k < 200) :
    ksByte (xorIntoState a blk) k = ksByte a k ^^^ blk.getD k 0 := by
  rw [← ksByte_lanesOfBytes blk hk]
  unfold ksByte xorIntoState ofLanes lane
  rw [laneAt_tabulate, if_pos (by omega)]
  have : k / 8 % 5 % 5 + 5 * (k / 8 / 5 % 5) = k / 8 := by omega
  simp only [this]
  apply BitVec.eq_of_getLsbD_eq
  intro b hb
  simp only [BitVec.getLsbD_extractLsb', BitVec.getLsbD_xor, hb, decide_true, Bool.true_and]

theorem scheduleBytes_cons (a : AesWord) (w : List AesWord) :
    scheduleBytes (a :: w) = aesWordBytes a ++ scheduleBytes w := rfl

@[simp] theorem scheduleBytes_length (w : List AesWord) : (scheduleBytes w).length = 4 * w.length := by
  induction w with
  | nil => rfl
  | cons a w ih => rw [scheduleBytes_cons]; simp [ih, aesWordBytes]; omega

/-- The words of the schedule as bytes (R247). -/
theorem scheduleBytes_getD (w : List AesWord) {j b : Nat} (hj : j < w.length) (hb : b < 4) :
    (scheduleBytes w).getD (4 * j + b) 0 = (aesWordBytes (w.getD j zeroWord)).getD b 0 := by
  induction w generalizing j with
  | nil => simp at hj
  | cons a w ih =>
    rw [scheduleBytes_cons]
    cases j with
    | zero => rw [List.getD_append _ _ _ _ (by simp [aesWordBytes]; omega)]; simp
    | succ j =>
      rw [List.getD_append_right _ _ _ _ (by simp [aesWordBytes]; omega)]
      rw [show 4 * (j + 1) + b - (aesWordBytes a).length = 4 * j + b by simp [aesWordBytes]; omega]
      exact ih (by simpa using hj)

/-- Byte `k` of what GCTR has put out after `n` blocks (R284, R285). -/
theorem gctr_prefix_getD (e : Block → Block) (icb : Block) (x : Bytes) (n : Nat) {k : Nat}
    (h : k < 16 * n) (hx : k < x.length) :
    ((List.range n).foldl (gctrStep e x) ([], icb)).1.getD k 0 =
      x.getD k 0 ^^^ byteAt (e (inc32^[k / 16] icb)) (k % 16) := by
  induction n with
  | zero => omega
  | succ n ih =>
    have hl := gctr_prefix e icb x n
    rw [List.range_succ, List.foldl_append]
    simp only [List.foldl_cons, List.foldl_nil, gctrStep]
    by_cases hk : k < 16 * n
    · rw [List.getD_append _ _ _ _ (by omega), ih hk]
    · have hm : ((List.range n).foldl (gctrStep e x) ([], icb)).1.length = 16 * n := by omega
      rw [List.getD_append_right _ _ _ _ (by omega), hm, hl.2,
        show k / 16 = n by omega, show k % 16 = k - 16 * n by omega]
      obtain ⟨j, rfl⟩ := Nat.exists_eq_add_of_le (Nat.le_of_not_lt hk)
      have hj : j < 16 := by omega
      simp only [Nat.add_sub_cancel_left, xorBytes, List.getD_eq_getElem?_getD,
        List.getElem?_zipWith, List.getElem?_take, List.getElem?_drop, hj, if_true, byteAt]
      rw [List.getElem?_eq_getElem hx]
      simp [hj]

end Sys2Proof.Machine
end

