-- ==== Sys2Proof/Machine/Script.lean ====
section
/-!
DEFINITION. The host script notation of `30_encoding.md` R137 and the pseudo-instructions of R138, as
the events they put on the bus.
-/

namespace Sys2Proof.Machine

/-- `WR off, v` (R137). -/
def scriptWr (off : Nat) (v : Word) : Event := .write off 4 v

/-- `RD off` (R137). -/
def scriptRd (off : Nat) : Event := .read off 4

/-- `CMD` of a command (R138): its word written to CMD. -/
def scriptCmd (i : Instr) : Event := scriptWr 0x008 (encode i)

/-- `WAIT` (R138): `k` reads of STATUS that still find BUSY = 1, the engine's step, and the read that
ends the loop. -/
def scriptWait (k : Nat) : List Event := List.replicate k (scriptRd 0x00C) ++ [.engine, scriptRd 0x00C]

/-- `CLRST` (R138): W1C of DONE, ERR and OVR. -/
def scriptClrst : Event := scriptWr 0x00C 0x0000000E

/-- `SRST` (R138): the soft reset strobe. -/
def scriptSrst : Event := scriptWr 0x004 0x80000000

/-- `WRBYTES a, b0 b1 …` (R138): the bytes written to BUF from offset `a` on, missing trailing bytes
of the last word taken as 0. -/
def scriptWrBytes (a : Nat) (bs : Bytes) : List Event :=
  (List.range ((bs.length + 3) / 4)).map fun w =>
    scriptWr (Config.bufOffset + a + 4 * w) (leWord (bs.getD · 0) (4 * w))

/-- `WRBLK off, <16 bytes>` (R138): the four words of a block. -/
def scriptWrBlk (off : Nat) (b : Block) : List Event :=
  (List.range 4).map fun w => scriptWr (off + 4 * w) (leWord (byteAt b) (4 * w))

end Sys2Proof.Machine
end

