-- ==== Sys2Proof/Tests/Slice0.lean ====
section
/-!
SUPPORT. Tests of the model against the worked values of `95_test_vectors.md` and of the rules, and
for each statement with hypotheses a witness that meets them.
-/

namespace Sys2Proof.Tests

open Sys2Proof Sys2Proof.Machine

/-- `n` bytes of the hexadecimal number `v`, first byte most significant. -/
def hexBytes (n v : Nat) : Bytes := (List.range n).map fun k => BitVec.ofNat 8 (v >>> (8 * (n - 1 - k)))

/-- The block written as the hexadecimal number `v`. -/
def hexBlock (v : Nat) : Block := ofBytes 16 (hexBytes 16 v)

/-- A field of the next state, if the outcome is one. -/
def after {α : Type} (o : Host.Outcome State Fault Refusal) (f : State → α) : Option α :=
  match o with
  | .next s => some (f s)
  | .fault _ => none
  | .refused _ => none

/-- The outcome of the next step after the word `w` is accepted in `s`. -/
def run (w : Nat) (s : State) : Host.Outcome State Fault Refusal := step (s.withFetchWord 32 w)

/-! ### Syntax and decoding -/

theorem test_wf_refuses_round_index_256 : Instr.wellFormed (.kround 256) = false := by decide

theorem test_decode_nop : decode 0b00000000000000000000000000000000#32 = .ok .nop := by rfl
theorem test_decode_kzero : decode 0b00000000000000000000000000000001#32 = .ok .kzero := by rfl
theorem test_decode_kperm : decode 0b00000000000000000000000000000010#32 = .ok .kperm := by rfl
theorem test_decode_kround : decode 0b00000000000000000001011100000011#32 = .ok (.kround 23) := by rfl
theorem test_decode_ksponge : decode 0b00000000000000000000000000000100#32 = .ok .ksponge := by rfl
theorem test_decode_akey : decode 0b00000000000000000000000000010000#32 = .ok .akey := by rfl
theorem test_decode_aenc : decode 0b00000000000000000000000000010001#32 = .ok .aenc := by rfl
theorem test_decode_gmul : decode 0b00000000000000000000000000100000#32 = .ok .gmul := by rfl
theorem test_decode_ghash : decode 0b00000000000000000000000000100001#32 = .ok .ghash := by rfl
theorem test_decode_gcmenc : decode 0b00000000000000000000000000110000#32 = .ok .gcmenc := by rfl
theorem test_decode_gcmdec : decode 0b00000000000000000000000000110001#32 = .ok .gcmdec := by rfl
theorem test_decode_refuses_rsv : decode 0x00010002#32 = .error .reservedBits := by rfl
theorem test_decode_refuses_op : decode 0x000000FF#32 = .error .unallocatedOp := by rfl
theorem test_decode_refuses_arg : decode 0x00000102#32 = .error .argNotZero := by rfl
theorem test_table_word : decodeTableWord 32 0x1803 = some (.kround 24) := by rfl

/-! ### The Keccak family -/

theorem test_nop_status : after (run 0x00 .reset) statusWord = some 0x002 := by decide +kernel

theorem test_kzero_clears :
    after (run 0x01 { State.reset with ks := tabulate 25 fun i => BitVec.ofNat 64 (i + 1) }) (·.ks)
      = some zeroLanes := by decide +kernel

/-- K-P2: lanes of Rnd(S, 0) where only lane 0 of S is 1. -/
theorem test_kround_lanes :
    (after (run 0x03 { State.reset with ks := tabulate 25 fun i => if i = 0 then 1 else 0 }) (·.ks)).map
        (fun a => [laneAt a 0, laneAt a 1, laneAt a 4, laneAt a 13, laneAt a 24])
      = some [0, 0x0000100000000000, 0x0000100000008000, 0x202, 4] := by decide +kernel

/-- K-P4. -/
theorem test_kround_bad_round :
    after (run 0x1803 .reset) (fun s => (statusWord s, s.errParam, s.ks))
      = some (0x206, 0x008, zeroLanes) := by decide +kernel

/-- K-P6, lanes 0 and 24 of f(0). -/
theorem test_kperm_zero :
    (after (run 0x02 .reset) (·.ks)).map (fun a => (laneAt a 0, laneAt a 24))
      = some (0xF1258F7940E1DDE7, 0xEAF1FF7B5CECA249) := by decide +kernel

/-- The operands of the KSPONGE checks: M = "abc" at 0, DST 0x100, OUT_LEN 32, SPONGE_CFG 0x0688. -/
def abc : State :=
  { State.reset with
    srcLen := 3, dstAddr := 0x100, outLen := 32, rate := 0x88, suffix := 0x06
    buf := [(0, 0x61), (1, 0x62), (2, 0x63)] }

/-- K-S2, SHA3-256("abc"). -/
theorem test_ksponge_sha3_256_abc :
    after (run 0x04 abc) (fun s => memRead s 0x100 32)
      = some (hexBytes 32 0x3a985da74fe225b2045c172d6bd390bd855f086e3e9d525b46bfe24511431532) := by
  decide +kernel

/-- K-E14. -/
theorem test_ksponge_first_error :
    after (run 0x04 { abc with rate := 0, outLen := 0 }) (fun s => (statusWord s, s.errParam))
      = some (0x306, 0x040) := by decide +kernel

/-! ### The AES family -/

/-- Key 000102…0f, KEYLEN 16. -/
def keySet : State :=
  { State.reset with keyLen := 16, key := tabulate 32 fun i => if i < 16 then BitVec.ofNat 8 i else 0 }

/-- A-7, round key 10. -/
theorem test_akey_round_key_10 :
    after (run 0x10 keySet) (fun s => (s.nr, (s.rk.toList.drop 160).take 16, byteAt s.rk 176))
      = some (10, hexBytes 16 0x13111d7fe3944a17f307a78b4d2b30c5, 0) := by decide +kernel

/-- A-16. -/
theorem test_akey_bad_length :
    after (run 0x10 { keySet with keyLen := 17, keyed := true, nr := 10 })
        (fun s => (statusWord s, s.errParam, s.nr))
      = some (0x816, 0x044, 10) := by decide +kernel

/-- A-7. -/
theorem test_aenc_fips_197_c1 :
    after (run 0x11 { loadKey keySet with blkIn := hexBlock 0x00112233445566778899aabbccddeeff }) (·.blkOut)
      = some (hexBlock 0x69c4e0d86a7b0430d8cdb78070b4c55a) := by decide +kernel

/-- A-15. -/
theorem test_aenc_not_keyed :
    after (run 0x11 .reset) (fun s => (statusWord s, s.errParam)) = some (0x906, 0x048) := by
  decide +kernel

/-! ### The GHASH family -/

/-- G-M1. -/
theorem test_gmul :
    after (run 0x20 { State.reset with
        gcmS := hexBlock 0x0388dace60b6a392f328c2b971b2fe78
        gcmH := hexBlock 0x66e94bd4ef8a2c3b884cfa59ca342b2e }) (·.gcmS)
      = some (hexBlock 0x5e2ec746917062882c85b0685353deb7) := by decide +kernel

/-- G-M6. -/
theorem test_gmul_reduces :
    after (run 0x20 { State.reset with
        gcmS := hexBlock 1, gcmH := hexBlock 0x40000000000000000000000000000000 }) (·.gcmS)
      = some (hexBlock 0xe1000000000000000000000000000000) := by decide +kernel

/-- G-H6: a partial block is zero-padded on the right. -/
theorem test_ghash_partial_block :
    after (run 0x21 { State.reset with
        gcmH := hexBlock 0x66e94bd4ef8a2c3b884cfa59ca342b2e
        srcLen := 2, buf := [(0, 1), (1, 2)] }) (·.gcmS)
      = some (hexBlock 0xb5e73932868caa70c7feb8c75af34086) := by decide +kernel

/-- G-H8. -/
theorem test_ghash_bad_range :
    after (run 0x21 { State.reset with srcAddr := 0xFFF0, srcLen := 0x11 })
        (fun s => (statusWord s, s.errParam))
      = some (0x606, 0x020) := by decide +kernel

/-! ### The GCM family -/

/-- The operands of P3: the 128-bit zero key, IV = 12 zero bytes at 0, the text at 0x10. -/
def gcmSet : State :=
  { loadKey { State.reset with keyLen := 16 } with
    ivLen := 12, srcAddr := 0x10, srcLen := 16, dstAddr := 0x10
    buf := cellsFrom 0 (List.replicate 12 0) ++ cellsFrom 0x10 (List.replicate 16 0) }

/-- P3a (G-2). -/
theorem test_gcmenc_zero_block :
    after (run 0x30 gcmSet) (fun s => (s.gcmTag, s.gcmCtr, memRead s 0x10 16, statusWord s))
      = some (hexBlock 0xab6e47d42cec13bdf53a67b21257bddf, hexBlock 3,
          hexBytes 16 0x0388dace60b6a392f328c2b971b2fe78, 0x012) := by decide +kernel

/-- G-E7. -/
theorem test_gcmenc_overlap :
    after (run 0x30 { gcmSet with dstAddr := 0x18 }) (fun s => (statusWord s, s.errParam))
      = some (0x716, 0x028) := by decide +kernel

/-- The operands of P3b: the ciphertext of P3a in place and its tag expected. -/
def gcmDecSet : State :=
  { gcmSet with
    tagLen := 16, gcmTagx := hexBlock 0xab6e47d42cec13bdf53a67b21257bddf
    buf := cellsFrom 0 (List.replicate 12 0)
      ++ cellsFrom 0x10 (hexBytes 16 0x0388dace60b6a392f328c2b971b2fe78) }

/-- P3b. -/
theorem test_gcmdec_verified :
    after (run 0x31 gcmDecSet) (fun s => (statusWord s, memRead s 0x10 16))
      = some (0x032, List.replicate 16 0) := by decide +kernel

/-- G-T4: byte 3 of the expected tag flipped, TAG_LEN 4. -/
theorem test_gcmdec_auth_fail :
    after (run 0x31 { gcmDecSet with
        tagLen := 4, gcmTagx := hexBlock 0xab6e47d52cec13bdf53a67b21257bddf })
        (fun s => (statusWord s, s.errParam, memRead s 0x10 1, s.gcmS))
      = some (0xC16, 0x110, [0x03], zeroBlock) := by decide +kernel

/-! ### Host scripts and the bus -/

/-- The table of R138. -/
theorem test_script_wrbytes :
    scriptWrBytes 4 [0x61, 0x62, 0x63, 0x64, 0x65]
      = [.write 0x10004 4 0x64636261, .write 0x10008 4 0x00000065] := by decide

theorem test_script_cmd_kround : scriptCmd (.kround 23) = .write 0x008 4 0x1703 := by decide

/-- CLRST of R138 on a failed command: the STATUS word is clear again. -/
theorem test_script_clrst :
    after (step { completeError ⟨.badRate, 0x040⟩ .reset with events := [scriptClrst], ovr := true })
        (fun s => (statusWord s, s.errParam)) = some (0, 0) := by decide +kernel

/-- ID reads as in R41. -/
theorem test_read_id :
    after (step { State.reset with events := [scriptRd 0x000] }) (·.response)
      = some (.data 0x4B414745) := by decide +kernel

/-! ### Witnesses: states and operands that meet the hypotheses of the statements -/

/-- `s` with the events to come. -/
def withEvents (s : State) (es : List Event) : State := { s with events := es }

/-- A block that has accepted the word `w`, with the events to come. -/
def pending (w : Word) (es : List Event) (s : State) : State := withEvents (accept w s) es

theorem witness_DecodeOfEncodeIsTheCommand :
    Instr.wellFormed (.kround 255) = true ∧ Instr.wellFormed (.kround 0) = true ∧
      ∀ i ∈ [Instr.nop, .kzero, .kperm, .ksponge, .akey, .aenc, .gmul, .ghash, .gcmenc, .gcmdec],
        i.wellFormed = true := by decide

theorem witness_EncodeOfDecodeIsTheWord :
    decode 0xFF03#32 = .ok (.kround 255) ∧ decode 0x31#32 = .ok .gcmdec := ⟨rfl, rfl⟩

/-- RSV at its lowest and highest bit, an unallocated OP next to an allocated one, ARG without KROUND. -/
theorem witness_IllegalWordsFailAndChangeNothing :
    decode 0x00010000#32 = .error .reservedBits ∧ decode 0x80000003#32 = .error .reservedBits ∧
      decode 0x00000005#32 = .error .unallocatedOp ∧ decode 0x00000100#32 = .error .argNotZero :=
  ⟨rfl, rfl, rfl, rfl⟩

theorem witness_StepRunsTheLatchedCommand :
    (pending 0x11 [] .reset).latch = some ⟨0x11, false⟩ ∧ decode 0x11#32 = .ok .aenc ∧
      (pending 0x11 [] .reset).events = [] ∧
      (pending 0x11 [.engine, .engine] .reset).events = .engine :: [.engine] ∧
      (pending 0x05 [] .reset).latch = some ⟨0x05, false⟩ ∧
      decode 0x05#32 = .error .unallocatedOp ∧
      (withEvents .reset [.engine]).latch = none ∧ (withEvents .reset [.engine]).events = [.engine] ∧
      State.reset.events = [] := ⟨rfl, rfl, rfl, rfl, rfl, rfl, rfl, rfl, rfl⟩

theorem witness_CmdWriteIsAcceptedOrLost :
    (withEvents .reset [.write 0x008 4 0x02]).events = [.write 0x008 4 0x02] ∧
      (withEvents .reset [.write 0x008 4 0x02]).busy = false ∧
      (pending 0x01 [.write 0x008 4 0x02] .reset).events = [.write 0x008 4 0x02] ∧
      (pending 0x01 [.write 0x008 4 0x02] .reset).busy = true := ⟨rfl, rfl, rfl, rfl⟩

/-- A legal word and an illegal one that fail. -/
theorem witness_ErrorsArePrecise :
    (∃ t, runWord 0x10 .reset = .next t ∧ State.reset.err = false ∧ t.err = true) ∧
      (∃ t, runWord 0x05 .reset = .next t ∧ State.reset.err = false ∧ t.err = true) := by
  refine ⟨⟨_, runWord_of_ok (i := .akey) rfl _ |>.trans (exec_of_failure (e := ⟨.badKeyLen, 0x044⟩) rfl), rfl, rfl⟩,
    ⟨_, runWord_of_error (e := .unallocatedOp) rfl _, rfl, rfl⟩⟩

/-- As above, and GCMDEC, whose list depends on the latched COMPAT. -/
theorem witness_CommandErrorMatrix :
    (∃ t, runWord 0x05 .reset = .next t ∧ State.reset.err = false ∧ t.err = true) ∧
      (∃ t, runWord 0x31 .reset = .next t ∧ State.reset.err = false ∧ t.err = true) :=
  ⟨⟨_, runWord_of_error (e := .unallocatedOp) rfl _, rfl, rfl⟩,
    ⟨_, runWord_of_ok (i := .gcmdec) rfl _ |>.trans (exec_of_failure (e := ⟨.notKeyed, 0x048⟩) rfl), rfl, rfl⟩⟩

theorem witness_CompletionAndStatus :
    State.reset.err = false ∧ State.reset.errCode = .none ∧ State.reset.authOk = false ∧
      (∃ t, runWord 0x00 .reset = .next t ∧ t.err = false) ∧
      (∃ t, runWord 0x05 .reset = .next t ∧ t.err = true) :=
  ⟨rfl, rfl, rfl, ⟨_, rfl, rfl⟩, ⟨_, runWord_of_error (e := .unallocatedOp) rfl _, rfl⟩⟩

theorem witness_BusyBlockBecomesIdle :
    SafeHost (pending 0x30 [.read 0x1FFFF 1, .write 0x0C 4 8, .engine] .reset) ∧
      (pending 0x30 [.read 0x1FFFF 1, .write 0x0C 4 8, .engine] .reset).busy = true :=
  ⟨by unfold SafeHost; decide, rfl⟩

theorem witness_KroundResultAndBadRound : 23 ≤ 23 ∧ 23 < 24 := by decide

theorem witness_RoundStepsOnLanes : 0 < 5 ∧ 4 < 5 ∧ (0 < 1 ∧ 1 < 64) ∧ (0 < 63 ∧ 63 < 64) := by decide

/-- The four cases, each at the ends of its range. -/
theorem witness_PairRotationIsLaneRotation :
    (0 < 64) ∧ (0 < 1 ∧ 1 < 32) ∧ (0 < 31 ∧ 31 < 32) ∧ (32 < 64) ∧ (32 < 33 ∧ 33 < 64) ∧
      (32 < 63 ∧ 63 < 64) := by decide

theorem witness_RoundStepsOnHalves :
    0 < 5 ∧ 4 < 5 ∧ ∀ half ∈ [lowHalf, highHalf], half ∈ [lowHalf, highHalf] :=
  ⟨by decide, by decide, fun _ h => h⟩

theorem witness_KeccakTablesAreGenerated : 0 < 24 ∧ 23 < 24 := by decide

theorem witness_KstateWordsAreLaneHalves : State.reset.busy = false ∧ 0 < 25 ∧ 24 < 25 := by decide

/-- A message one byte short of a block, one two bytes short, and a whole one. -/
theorem witness_PaddingIsWholeBlocks :
    0 < 8 ∧ 8 - (List.replicate 7 (0 : Byte)).length % 8 = 1 ∧
      2 ≤ 8 - (List.replicate 6 (0 : Byte)).length % 8 ∧
      2 ≤ 8 - (List.replicate 8 (0 : Byte)).length % 8 := by decide

/-! The hypotheses of the checks, as the statements have them. -/

abbrev rateOk (s : State) : Prop := ∃ k, 1 ≤ k ∧ k ≤ 24 ∧ s.rate.toNat = 8 * k
abbrev suffixOk (s : State) : Prop := 0x01 ≤ s.suffix.toNat ∧ s.suffix.toNat ≤ 0x7F
abbrev outOk (s : State) : Prop := 1 ≤ s.outLen.toNat
abbrev srcOk (s : State) : Prop := s.srcAddr.toNat + s.srcLen.toNat ≤ 65536
abbrev spongeDstOk (s : State) : Prop := s.dstAddr.toNat + s.outLen.toNat ≤ 65536
abbrev ivLenOk (s : State) : Prop := 1 ≤ s.ivLen.toNat
abbrev ivOk (s : State) : Prop := s.ivAddr.toNat + s.ivLen.toNat ≤ 65536
abbrev aadOk (s : State) : Prop := s.aadAddr.toNat + s.aadLen.toNat ≤ 65536
abbrev textDstOk (s : State) : Prop := s.dstAddr.toNat + s.srcLen.toNat ≤ 65536
abbrev tagLenOk (s : State) : Prop := s.tagLen.toNat ∈ [4, 8, 12, 13, 14, 15, 16]

theorem rateOk_at {s : State} {k : Nat} (h : s.rate.toNat = 8 * k) (h1 : 1 ≤ k) (h2 : k ≤ 24) :
    rateOk s := ⟨k, h1, h2, h⟩

/-- Every operand of KSPONGE at an upper bound. -/
def spongeEdge : State :=
  { State.reset with
    rate := 192, suffix := 0x7F, srcAddr := 0xFFFF, srcLen := 1, dstAddr := 0, outLen := 0x10000 }

/-- Every operand of KSPONGE at a lower bound; the empty message beyond the last byte of BUF. -/
def spongeLow : State :=
  { State.reset with rate := 8, suffix := 1, srcAddr := 0x10000, srcLen := 0, dstAddr := 0xFFFF, outLen := 1 }

theorem witness_KspongeChecksInOrder :
    (¬ rateOk { spongeEdge with rate := 0 } ∧ ¬ rateOk { spongeEdge with rate := 200 } ∧
      ¬ rateOk { spongeEdge with rate := 9 }) ∧
    (rateOk { spongeEdge with suffix := 0x80 } ∧ ¬ suffixOk { spongeEdge with suffix := 0x80 }) ∧
    (rateOk { spongeLow with suffix := 0 } ∧ ¬ suffixOk { spongeLow with suffix := 0 }) ∧
    (rateOk { spongeEdge with outLen := 0 } ∧ suffixOk { spongeEdge with outLen := 0 } ∧
      ¬ outOk { spongeEdge with outLen := 0 }) ∧
    (rateOk { spongeEdge with srcLen := 2 } ∧ suffixOk { spongeEdge with srcLen := 2 } ∧
      outOk { spongeEdge with srcLen := 2 } ∧ ¬ srcOk { spongeEdge with srcLen := 2 }) ∧
    (rateOk { spongeEdge with dstAddr := 1 } ∧ suffixOk { spongeEdge with dstAddr := 1 } ∧
      outOk { spongeEdge with dstAddr := 1 } ∧ srcOk { spongeEdge with dstAddr := 1 } ∧
      ¬ spongeDstOk { spongeEdge with dstAddr := 1 }) := by
  have r : ∀ {s : State}, s.rate = 192 → rateOk s := fun h => rateOk_at (k := 24) (by rw [h]; rfl) (by decide) (by decide)
  have n : ∀ {s : State} {v : Nat}, s.rate.toNat = v → (v = 0 ∨ v = 200 ∨ v = 9) → ¬ rateOk s := by
    rintro s v h hv ⟨k, h1, h2, h3⟩
    omega
  exact ⟨⟨n rfl (by decide), n rfl (by decide), n rfl (by decide)⟩, ⟨r rfl, by decide⟩,
    ⟨rateOk_at (k := 1) rfl (by decide) (by decide), by decide⟩, ⟨r rfl, by decide, by decide⟩,
    ⟨r rfl, by decide, by decide, by decide⟩, ⟨r rfl, by decide, by decide, by decide, by decide⟩⟩

theorem spongeEdge_ok : SpongeOperandsOk spongeEdge := (failureOf_ksponge _).1 (by decide)
theorem spongeLow_ok : SpongeOperandsOk spongeLow := (failureOf_ksponge _).1 (by decide)

theorem witness_KspongeResult :
    SpongeOperandsOk spongeEdge ∧ SpongeOperandsOk spongeLow ∧ 199 < 200 ∧ 0 < 8 ∧
      ([] : Bytes).length % 8 = 0 ∧ (List.replicate 16 (1 : Byte)).length % 8 = 0 ∧
      (List.replicate 8 (1 : Byte)).length = 8 :=
  ⟨spongeEdge_ok, spongeLow_ok, by decide⟩

theorem witness_KspongeMemoryFrame :
    SpongeOperandsOk spongeLow ∧ (∃ t, exec .ksponge spongeLow = .next t) ∧
      ¬ (spongeLow.dstAddr.toNat ≤ 0xFFFE ∧ 0xFFFE < spongeLow.dstAddr.toNat + spongeLow.outLen.toNat) ∧
      0xFFFF < 0x10000 :=
  ⟨spongeLow_ok, exec_next _ _, by decide, by decide⟩

theorem witness_SpongeOutputIsPrefix :
    0 < 136 ∧ 1 ≤ 136 ∧ 136 ≤ 137 ∧ 135 < 136 * (0 + 1) ∧ 136 < 136 * (1 + 1) := by decide

theorem witness_AesTablesAreGenerated :
    (1 : Byte) ≠ 0 ∧ (0 : Byte) = 0 ∧ 1 ≤ 1 ∧ 1 ≤ 9 ∧ 9 ≤ 9 := by decide

/-- The three key lengths; for Nk = 8 a word of each of the three cases, up to the last word. -/
theorem witness_KeyExpansionRecurrence :
    (4 = 4 ∨ 4 = 6 ∨ 4 = 8) ∧ 3 < 4 ∧ 4 ≤ 4 ∧ 4 < 4 * (4 + 7) ∧ 4 % 4 = 0 ∧
    (6 = 4 ∨ 6 = 6 ∨ 6 = 8) ∧ 51 < 4 * (6 + 7) ∧ 51 % 6 ≠ 0 ∧
    (8 = 4 ∨ 8 = 6 ∨ 8 = 8) ∧ 59 < 4 * (8 + 7) ∧ (12 % 8 ≠ 0 ∧ 12 % 8 = 4) ∧
      (59 % 8 ≠ 0 ∧ 59 % 8 ≠ 4) ∧ 43 < (List.replicate 44 zeroWord).length := by decide

theorem witness_CipherStepsOnBytes : 0 < 4 ∧ 3 < 4 := by decide

theorem witness_AkeyResultAndBadKeylen :
    (State.keyLen { State.reset with keyLen := 16 }).toNat = 16 ∧
    (State.keyLen { State.reset with keyLen := 24 }).toNat = 24 ∧
    (State.keyLen { State.reset with keyLen := 32 }).toNat = 32 ∧
    ∀ k ∈ [(0 : BitVec 6), 15, 17, 31, 33, 63],
      ¬ ((State.keyLen { State.reset with keyLen := k }).toNat = 16 ∨
        (State.keyLen { State.reset with keyLen := k }).toNat = 24 ∨
        (State.keyLen { State.reset with keyLen := k }).toNat = 32) := by decide

theorem witness_AkeyKeyPrefixAndZeroTail :
    ∃ t, State.keyLen { State.reset with keyLen := 16 } = 16 ∧
      exec .akey { State.reset with keyLen := 16 } = .next t ∧ 15 < 16 ∧
      16 * (t.nr.toNat + 1) ≤ 176 ∧ 176 < 240 ∧ 43 < 4 * (t.nr.toNat + 1) :=
  ⟨_, rfl, exec_of_no_failure (by decide), by decide, by decide, by decide, by decide⟩

theorem witness_AencResultAndNotKeyed :
    State.keyed { State.reset with keyed := true } = true ∧ State.reset.keyed = false := ⟨rfl, rfl⟩

theorem witness_GfMultIsBilinearWithIdentity : 0 < 16 ∧ 15 < 16 := by decide

theorem witness_GhashPadsAndChains :
    ([] : Bytes).length % 16 = 0 ∧ (List.replicate 16 (1 : Byte)).length % 16 = 0 ∧
      (List.replicate 16 (1 : Byte)).length = 16 ∧ 15 < 16 ∧ 7 < 8 := by decide

/-- A source range that ends with BUF, one that names no byte, and one a byte too long. -/
theorem witness_GmulGhashResults :
    srcOk { State.reset with srcAddr := 0xFFF0, srcLen := 0x10 } ∧
    srcOk { State.reset with srcAddr := 0x10000, srcLen := 0 } ∧
    65536 < (0xFFF0 : Word).toNat + (0x11 : Word).toNat := by decide

theorem witness_InitialAndNextCounterBlock :
    (List.replicate 12 (0 : Byte)).length = 12 ∧ (List.replicate 13 (0 : Byte)).length ≠ 12 ∧
      (List.replicate 1 (0 : Byte)).length ≠ 12 ∧ 0 < 12 ∧ 11 < 12 := by decide

/-- The ranges of a GCM command at their bounds: the IV is the last byte of BUF, the AAD names no
byte, and the output text starts where the text ends. -/
def gcmEdge : State :=
  { State.reset with
    keyed := true, ivAddr := 0xFFFF, ivLen := 1, aadAddr := 0x10000, srcLen := 0x8000, dstAddr := 0x8000 }

theorem gcmEdge_enc : failureOf .gcmenc gcmEdge = none := by decide
theorem gcmEdge_ok : GcmOperandsOk gcmEdge := (failureOf_gcmenc _).1 gcmEdge_enc

/-- `gcmEdge` while a GCMDEC accepted with COMPAT = 1 is pending. -/
def gcmCompat : State := { gcmEdge with latch := some ⟨0x31, true⟩ }

theorem gcmCompat_dec : failureOf .gcmdec gcmCompat = none := by
  rw [failureOf_gcmdec, show failureOf .gcmenc gcmCompat = none by decide]
  rfl

theorem witness_CounterAfterGcmCommand :
    (∃ t, exec .gcmenc gcmEdge = .next t ∧ gcmEdge.err = false ∧ t.err = false) ∧
    (∃ t, exec .gcmdec gcmCompat = .next t ∧ gcmCompat.err = false ∧ t.err = false) :=
  ⟨⟨_, exec_of_no_failure gcmEdge_enc, rfl, rfl⟩, ⟨_, exec_of_no_failure gcmCompat_dec, rfl, rfl⟩⟩

/-- For each check a state that fails it and meets the ones before it. -/
theorem witness_GcmencChecksInOrder :
    State.keyed { gcmEdge with keyed := false } ≠ true ∧
    ¬ ivLenOk { gcmEdge with ivLen := 0 } ∧
    (ivLenOk { gcmEdge with ivLen := 2 } ∧ ¬ ivOk { gcmEdge with ivLen := 2 }) ∧
    (ivOk { gcmEdge with aadLen := 1 } ∧ ¬ aadOk { gcmEdge with aadLen := 1 }) ∧
    (aadOk { gcmEdge with srcAddr := 0x8001 } ∧ ¬ srcOk { gcmEdge with srcAddr := 0x8001 }) ∧
    (srcOk { gcmEdge with dstAddr := 0x8001 } ∧ ¬ textDstOk { gcmEdge with dstAddr := 0x8001 }) ∧
    (textDstOk { gcmEdge with dstAddr := 0x7FFF } ∧ ¬ TextRangesOk { gcmEdge with dstAddr := 0x7FFF }) := by
  refine ⟨by decide, by decide, ⟨by decide, by decide⟩, ⟨by decide, by decide⟩,
    ⟨by decide, by decide⟩, ⟨by decide, by decide⟩, by decide, ?_⟩
  rw [← textRangesOk_iff]
  decide

/-- Each way the text ranges may lie: none, identical, before and after. -/
theorem witness_GcmencResult :
    GcmOperandsOk gcmEdge ∧ GcmOperandsOk { gcmEdge with srcLen := 0, srcAddr := 0x10000 } ∧
      GcmOperandsOk { gcmEdge with srcAddr := 0x8000 } ∧
      GcmOperandsOk { gcmEdge with srcAddr := 0x8000, dstAddr := 0 } :=
  ⟨gcmEdge_ok, (failureOf_gcmenc _).1 (by decide), (failureOf_gcmenc _).1 (by decide),
    (failureOf_gcmenc _).1 (by decide)⟩

/-- The first byte of a second block, and the last byte of a partial one. -/
theorem witness_GctrIsAnInvolution :
    16 < (List.replicate 19 (0 : Byte)).length ∧ 18 < (List.replicate 19 (0 : Byte)).length := by decide

theorem witness_latchedCompat : (pending 0x31 [] .reset).latch = some ⟨0x31, false⟩ := rfl

theorem witness_GcmdecChecksInOrder :
    ¬ GcmOperandsOk { gcmEdge with ivLen := 0 } ∧
    ∀ n ∈ [(0 : BitVec 5), 3, 5, 11, 17, 31], GcmOperandsOk { gcmEdge with tagLen := n } ∧
      latchedCompat { gcmEdge with tagLen := n } = false ∧ ¬ tagLenOk { gcmEdge with tagLen := n } := by
  refine ⟨fun h => absurd ((failureOf_gcmenc _).2 h) (by decide), fun n hn => ⟨gcmEdge_ok, rfl, ?_⟩⟩
  revert n
  decide

/-- The tag that the statements compute for the operands of `s`. -/
def tagOf (s : State) : Block :=
  let e := fun b => cipher b s.rk s.nr.toNat
  let h := e (ofBytes 16 [])
  let j0 := initialCounter h (memRead s s.ivAddr.toNat s.ivLen.toNat)
  xorBlock (e j0) (gcmHash h (memRead s s.aadAddr.toNat s.aadLen.toNat)
    (memRead s s.srcAddr.toNat s.srcLen.toNat))

theorem tagOf_congr {s : State} (n : BitVec 5) (b : Block) :
    tagOf { s with tagLen := n, gcmTagx := b } = tagOf s := rfl

/-- The expected tag right and TAG_LEN at each end, and any tag with COMPAT latched. -/
theorem witness_GcmdecResult :
    (∀ n ∈ [(4 : BitVec 5), 16], ∃ s, GcmOperandsOk s ∧ s.tagLen = n ∧ tagLenOk s ∧
      ∀ k < s.tagLen.toNat, byteAt (tagOf s) k = byteAt s.gcmTagx k) ∧
    (GcmOperandsOk gcmCompat ∧ latchedCompat gcmCompat = true ∧ ¬ tagLenOk gcmCompat) := by
  refine ⟨fun n hn => ⟨{ gcmEdge with tagLen := n, gcmTagx := tagOf gcmEdge }, gcmEdge_ok, rfl, ?_,
    fun k _ => by rw [tagOf_congr]⟩, gcmEdge_ok, rfl, by decide⟩
  revert n
  decide

/-- The last byte that is compared differs, TAG_LEN at each end. -/
theorem witness_AuthFailCommitsNothing :
    ∀ n ∈ [(4 : BitVec 5), 16], ∃ s, GcmOperandsOk s ∧ latchedCompat s = false ∧ s.tagLen = n ∧
      tagLenOk s ∧ ∃ k < s.tagLen.toNat, byteAt (tagOf s) k ≠ byteAt s.gcmTagx k := by
  intro n hn
  have hb : ∀ b : Byte, b ≠ ~~~b := by decide
  refine ⟨{ gcmEdge with tagLen := n, gcmTagx := tabulate 16 fun k => ~~~(byteAt (tagOf gcmEdge) k) },
    gcmEdge_ok, rfl, rfl, ?_, n.toNat - 1, ?_, ?_⟩
  · revert n
    decide
  · revert n
    decide
  · rw [tagOf_congr, byteAt_tabulate, if_pos (by revert n; decide)]
    exact hb _

theorem witness_GcmMemoryFrame :
    (∃ t, exec .gcmenc gcmEdge = .next t) ∧ (∃ t, exec .gcmdec gcmEdge = .next t) ∧
      ∀ a ∈ [0x7FFF, 0x10000],
        ¬ (gcmEdge.dstAddr.toNat ≤ a ∧ a < gcmEdge.dstAddr.toNat + gcmEdge.srcLen.toNat) :=
  ⟨exec_next _ _, exec_next _ _, by decide⟩

/-- Encrypt in place, and decrypt what that left, with its tag. -/
theorem witness_GcmRoundTrip :
    ∃ s u d : State, exec .gcmenc s = .next u ∧ s.err = false ∧ u.err = false ∧
      GcmOperandsOk d ∧ d.err = false ∧ d.rk = s.rk ∧ d.nr = s.nr ∧
      memRead d d.ivAddr.toNat d.ivLen.toNat = memRead s s.ivAddr.toNat s.ivLen.toNat ∧
      memRead d d.aadAddr.toNat d.aadLen.toNat = memRead s s.aadAddr.toNat s.aadLen.toNat ∧
      memRead d d.srcAddr.toNat d.srcLen.toNat = memRead u s.dstAddr.toNat s.srcLen.toNat ∧
      d.gcmTagx = u.gcmTag ∧ tagLenOk d := by
  let s : State := { gcmEdge with srcLen := 17, srcAddr := 0x100, dstAddr := 0x100, aadAddr := 0x200, aadLen := 1 }
  have hs : failureOf .gcmenc s = none := by decide
  let u := complete (effectOf .gcmenc s)
  let d : State := { u with gcmTagx := u.gcmTag, tagLen := 4 }
  have keep : ∀ a n, a + n ≤ 0x100 ∨ 0x111 ≤ a → memRead d a n = memRead s a n := by
    intro a n h
    rw [memRead_congr (t := d) (s := memWrite s 0x100 (gcmText s).1) rfl rfl,
      memRead_memWrite_disjoint _ _ _ _ _ (.inr (by
        rw [gcmText_length, show s.srcLen.toNat = 17 from rfl]
        omega))]
  exact ⟨s, u, d, exec_of_no_failure hs, rfl, rfl, (failureOf_gcmenc s).1 hs, rfl, rfl, rfl,
    keep _ _ (.inr (by decide)), keep _ _ (.inr (by decide)), rfl, rfl, by decide⟩

theorem witness_BusErrorChangesNothing :
    (0x1FFFF < 0x20000 ∧ (1 ≠ 4 ∨ 0x1FFFF % 4 ≠ 0)) ∧ (0x00000 < 0x20000 ∧ (8 ≠ 4 ∨ 0x00000 % 4 ≠ 0)) ∧
      (0x10002 < 0x20000 ∧ (4 ≠ 4 ∨ 0x10002 % 4 ≠ 0)) ∧ 0x20000 ≤ 0x20000 ∧
      (withEvents .reset [.read 0x10002 4]).events = [.read 0x10002 4] ∧
      (withEvents .reset [.write 0x1FFFF 1 0]).events = [.write 0x1FFFF 1 0] ∧
      (0x1FFFC < 0x20000 ∧ 0x1FFFC % 4 = 0) ∧
      (withEvents .reset [.read 0x1FFFC 4]).events = [.read 0x1FFFC 4] ∧
      (withEvents .reset [.write 0x1FFFC 4 1]).events = [.write 0x1FFFC 4 1] := by decide

theorem witness_ReadsHaveNoSideEffects :
    (0x1FFFC < 0x20000 ∧ 0x1FFFC % 4 = 0 ∧ State.reset.busy = false) ∧
    (0x07C < 0x080 ∧ (pending 0x30 [.read 0x07C 4] .reset).events = [.read 0x07C 4]) ∧
    (0x080 ≤ 0x080 ∧ (pending 0x30 [.read 0x080 4] .reset).events = [.read 0x080 4] ∧
      (pending 0x30 [.read 0x080 4] .reset).busy = true) ∧
    (7 < 8 ∧ 3 < 4 ∧ 49 < 50 ∧ 59 < 60 ∧ 0x3FFF < 0x4000) := by decide

theorem witness_OverrunIsSetAndSticky :
    ((pending 0x30 [] .reset).busy = true ∧ 0x008 ≠ 0x004 ∧ 0x008 ≠ 0x00C) ∧
    (∃ s t, step s = .next t ∧ s.ovr = true ∧ t.ovr = false ∧ ∃ v, Writes 0x00C v s) ∧
    (∃ s t, step s = .next t ∧ s.ovr = true ∧ t.ovr = false ∧ Resets s) :=
  ⟨⟨rfl, by decide, by decide⟩,
    ⟨{ State.reset with ovr := true, events := [.write 0x00C 4 8] }, _, rfl, rfl, rfl, 8, [], rfl⟩,
    ⟨{ State.reset with ovr := true, events := [.powerOn] }, _, rfl, rfl, rfl, .inr ⟨[], rfl⟩⟩⟩

theorem witness_PowerOnResetState :
    (pending 0x30 [.powerOn] .reset).events = [.powerOn] := rfl

theorem witness_ControlAndStatusWrites : (0x7FFFFFFF : Word).getLsbD 31 = false := by decide

theorem witness_ParameterRegistersReadBack : State.reset.busy = false ∧
    0x020 ∈ [0x020, 0x024, 0x028, 0x02C, 0x030, 0x034, 0x038, 0x03C] := by decide

/-- The first and the last word of each window. -/
theorem witness_WindowWordsReadBack :
    State.reset.busy = false ∧
    (∀ off ∈ [0x080, 0x0AC, 0x0C0, 0x0DC, 0x110, 0x11C, 0x200, 0x2C4, 0x10000, 0x1FFFC],
      off % 4 = 0 ∧ ((0x080 ≤ off ∧ off < 0x0B0) ∨ (0x0C0 ≤ off ∧ off < 0x0E0) ∨
        (0x110 ≤ off ∧ off < 0x120) ∨ (0x200 ≤ off ∧ off < 0x2C8) ∨ (0x10000 ≤ off ∧ off < 0x20000))) ∧
    (0x1FFF8 % 4 = 0 ∧ 0x1FFF8 < 0x20000 ∧ 0x1FFF8 ≠ 0x1FFFC) ∧
    (7 < 8 ∧ 3 < 4 ∧ 49 < 50 ∧ 0x3FFF < 0x4000) := by decide

/-- The first and the last word of each part of the map. -/
theorem witness_ReadOnlyAndReservedOffsets :
    State.reset.busy = false ∧
    ∀ off ∈ [0x000, 0x010, 0x01C, 0x048, 0x050, 0x07C, 0x0B0, 0x0BC, 0x0E0, 0x10C, 0x120, 0x1FC, 0x2C8,
        0x300, 0x3EC, 0x3F0, 0xFFFC],
      off % 4 = 0 ∧ (off = 0x000 ∨ (0x010 ≤ off ∧ off < 0x020) ∨ off = 0x048 ∨
        (0x050 ≤ off ∧ off < 0x080) ∨ (0x0B0 ≤ off ∧ off < 0x0C0) ∨ (0x0E0 ≤ off ∧ off < 0x110) ∨
        (0x120 ≤ off ∧ off < 0x200) ∨ (0x2C8 ≤ off ∧ off < 0x10000)) := by decide

theorem witness_InterruptOutput :
    ∃ t, runWord 0x05 { State.reset with ie := true } = .next t :=
  ⟨_, runWord_of_error (e := .unallocatedOp) rfl _⟩

/-- An engine step that runs `i` from `s`, whose checks it meets. -/
theorem step_pending {s : State} {l : Latch} {i : Instr} (hl : s.latch = some l) (he : s.events = [])
    (hd : decode l.word = .ok i) (hf : failureOf i s = none) :
    step s = .next (complete (effectOf i s)) := by
  rw [step_of_nil he, engineStep_of_latch hl, runWord_of_ok hd, exec_of_no_failure hf]

theorem witness_KeyScheduleChangesOnlyByAkey :
    ∃ s t, step s = .next t ∧ t.nr ≠ s.nr ∧ t.keyed ≠ s.keyed :=
  ⟨pending 0x10 [] { State.reset with keyLen := 16 }, _, step_pending rfl rfl rfl (by decide),
    by decide, by decide⟩

theorem witness_AuthOkOnlyByGcmdec :
    (∃ s t, step s = .next t ∧ s.authOk = false ∧ t.authOk = true) ∧
    (∃ s t, step s = .next t ∧ s.authOk = true ∧ t.authOk = false) ∧
    (∃ s t, step s = .next t ∧ s.authOk = true ∧ t.authOk = true) :=
  ⟨⟨gcmCompat, _, step_pending rfl rfl rfl gcmCompat_dec, rfl, rfl⟩,
    ⟨{ State.reset with authOk := true, events := [.write 0x008 4 5] }, _, rfl, rfl, rfl⟩,
    ⟨{ State.reset with authOk := true, events := [.write 0x008 2 5] }, _, rfl, rfl, rfl⟩⟩

theorem witness_BlockRegisterWriters :
    (∃ s t, step s = .next t ∧ t.key ≠ s.key) ∧
    (∃ s t, step s = .next t ∧ t.blkIn ≠ s.blkIn) ∧
    (∃ s t, step s = .next t ∧ t.gcmH ≠ s.gcmH) ∧
    (∃ s t, step s = .next t ∧ t.gcmS ≠ s.gcmS) ∧
    (∃ s t, step s = .next t ∧ t.blkOut ≠ s.blkOut) ∧
    (∃ s t, step s = .next t ∧ (t.gcmJ0 ≠ s.gcmJ0 ∨ t.gcmCtr ≠ s.gcmCtr)) ∧
    (∃ s t, step s = .next t ∧ t.gcmTag ≠ s.gcmTag) ∧
    (∃ s t, step s = .next t ∧ t.gcmTagx ≠ s.gcmTagx) := by
  refine ⟨⟨{ State.reset with events := [.write 0x09C 4 1] }, _, rfl, by decide +kernel⟩,
    ⟨{ State.reset with events := [.write 0x0AC 4 1] }, _, rfl, by decide +kernel⟩,
    ⟨{ State.reset with events := [.write 0x0CC 4 1] }, _, rfl, by decide +kernel⟩,
    ⟨{ State.reset with events := [.write 0x0DC 4 1] }, _, rfl, by decide +kernel⟩,
    ⟨pending 0x11 [] { State.reset with keyed := true }, _, step_pending rfl rfl rfl (by decide),
      by decide +kernel⟩, ⟨pending 0x30 [] { gcmEdge with ivLen := 12, ivAddr := 0 }, _,
      step_pending rfl rfl rfl (by decide), .inl fun h => ?_⟩,
    ⟨pending 0x30 [] { gcmEdge with
      gcmTag := tabulate 16 fun k => ~~~(byteAt (gcmTagOf gcmEdge (gcmText gcmEdge).1) k) }, _,
      step_pending rfl rfl rfl (by decide), fun h => ?_⟩,
    ⟨{ State.reset with events := [.write 0x110 4 1] }, _, rfl, by decide +kernel⟩⟩
  · have hb := congrArg (byteAt · 15) h
    revert hb
    decide +kernel
  · have hb := congrArg (byteAt · 0) h
    replace hb : byteAt (gcmTagOf gcmEdge (gcmText gcmEdge).1) 0 =
      byteAt (tabulate 16 fun k => ~~~(byteAt (gcmTagOf gcmEdge (gcmText gcmEdge).1) k)) 0 := hb
    rw [byteAt_tabulate] at hb
    revert hb
    generalize byteAt (gcmTagOf gcmEdge (gcmText gcmEdge).1) 0 = b
    revert b
    decide

theorem witness_LaneFileAndBufferWriters :
    (∃ s t, step s = .next t ∧ t.ks ≠ s.ks) ∧
    (∃ s t, step s = .next t ∧ bufByte t 0xFFFF ≠ bufByte s 0xFFFF) :=
  ⟨⟨{ State.reset with events := [.write 0x2C4 4 1] }, _, rfl, by decide +kernel⟩,
    ⟨{ State.reset with buf := [(0xFFFF, 1)], events := [.write 0x1FFFC 4 0] }, _, rfl, by decide +kernel⟩⟩

theorem witness_SoftResetKeepsBuf :
    (0x80000000 : Word).getLsbD 31 = true ∧ State.reset.latch = none ∧
    (pending 0x04 [] abc).latch = some ⟨0x04, false⟩ ∧ decode 0x04#32 = .ok .ksponge ∧
    (∀ a ∈ [0xFF, 0x120], ¬ ((pending 0x04 [] abc).dstAddr.toNat ≤ a ∧
      a < (pending 0x04 [] abc).dstAddr.toNat + (pending 0x04 [] abc).outLen.toNat)) ∧
    (pending 0x30 [] gcmEdge).latch = some ⟨0x30, false⟩ ∧ decode 0x30#32 = .ok .gcmenc ∧
    ¬ ((pending 0x30 [] gcmEdge).dstAddr.toNat ≤ 0x7FFF ∧
      0x7FFF < (pending 0x30 [] gcmEdge).dstAddr.toNat + (pending 0x30 [] gcmEdge).srcLen.toNat) := by
  refine ⟨by decide, rfl, rfl, rfl, by decide, rfl, rfl, by decide⟩

/-- A state that is not the reset one: a key is loaded and a GCMDEC pending. -/
theorem witness_StepKeepsInvariant :
    ∃ s t, StateInv s ∧ s.keyed = true ∧ s.latch ≠ none ∧ step s = .next t := by
  refine ⟨accept 0x31 (loadKey { gcmEdge with keyLen := 16 }), _, ⟨by decide, ?_, ?_, ?_, ?_⟩, rfl,
    by decide, step_of_nil rfl |>.trans (engineStep_of_latch rfl) |>.trans (runWord_eq _ _)⟩
  · exact ⟨⟨fun h => (by cases h), fun h => absurd rfl h⟩, List.mem_cons_self ..⟩
  · rintro l hl
    obtain rfl := Option.some.inj hl
    exact ⟨rfl, rfl, rfl, rfl⟩
  · intro h
    cases h
  · exact ⟨fun h => (by cases h), fun _ => ⟨4, _, .inl rfl, rfl, rfl, rfl⟩⟩

end Sys2Proof.Tests
end

/-!
PROOFS. The lanes, the rotation and the round steps (O14); the KSTATE words (O18); the memory that
KSPONGE reads and writes (O22); the padding and chaining of GHASH (O32).
-/

namespace Sys2Proof.Machine

/-! ### Lanes by their coordinates (`00_scope.md` R16) -/

@[simp] theorem lane_mod_left (a : Lanes) (x y : Nat) : lane a (x % 5) y = lane a x y := by
  simp [lane]

@[simp] theorem lane_mod_right (a : Lanes) (x y : Nat) : lane a x (y % 5) = lane a x y := by
  simp [lane]

/-- The lane file built from `f` holds `f x y` at `A[x,y]`, the coordinates taken mod 5. -/
@[simp] theorem lane_ofLanes (f : Nat → Nat → Lane) (x y : Nat) :
    lane (ofLanes f) x y = f (x % 5) (y % 5) := by
  have hx : (x % 5 + 5 * (y % 5)) % 5 = x % 5 := by omega
  have hy : (x % 5 + 5 * (y % 5)) / 5 = y % 5 := by omega
  rw [lane, ofLanes, laneAt_tabulate, if_pos (by omega), hx, hy]

theorem lane_congr_mod (a : Lanes) {x x' : Nat} (y : Nat) (h : x % 5 = x' % 5) :
    lane a x y = lane a x' y := by
  rw [← lane_mod_left, h, lane_mod_left]

/-! ### The rotation and the round steps (`40_keccak.md`) -/

@[simp] theorem rotl64_zero (v : Lane) : rotl64 v 0 = v := rfl

theorem rotl64_of_pos (v : Lane) {n : Nat} (h : 0 < n) :
    rotl64 v n = (v <<< n) ||| (v >>> (64 - n)) := if_neg h.ne'

@[simp] theorem columnParity_mod (a : Lanes) (x : Nat) : columnParity a (x % 5) = columnParity a x := by
  simp [columnParity]

@[simp] theorem laneAt_parities_mod (a : Lanes) (x : Nat) :
    laneAt (parities a) (x % 5) = columnParity a x := by
  rw [parities, laneAt_tabulate, if_pos (Nat.mod_lt _ (by decide)), columnParity_mod]

/-- θ adds to a lane the parities of the columns on its two sides (R164). -/
theorem lane_theta (a : Lanes) (x y : Nat) :
    lane (theta a) x y =
      lane a x y ^^^ (columnParity a (x + 4) ^^^ rotl64 (columnParity a (x + 1)) 1) := by
  have h4 : columnParity a (x % 5 + 4) = columnParity a (x + 4) := by
    rw [← columnParity_mod, Nat.mod_add_mod, columnParity_mod]
  have h1 : columnParity a (x % 5 + 1) = columnParity a (x + 1) := by
    rw [← columnParity_mod, Nat.mod_add_mod, columnParity_mod]
  rw [theta, lane_ofLanes, thetaD, laneAt_tabulate, if_pos (Nat.mod_lt _ (by decide)),
    laneAt_parities_mod, laneAt_parities_mod, h4, h1, lane_mod_left, lane_mod_right]

theorem lane_rho (a : Lanes) (x y : Nat) :
    lane (rho a) x y = rotl64 (lane a x y) (rhoOffset (x % 5) (y % 5)) := by
  rw [rho, lane_ofLanes, lane_mod_left, lane_mod_right]

/-- π moves lane (x, y) to (y, 2x + 3y): the inverse of the source position R167 writes, since
y + 3(2x + 3y) = 6x + 10y is x mod 5. -/
theorem lane_pi_dest (a : Lanes) (x y : Nat) : lane (Machine.pi a) y (2 * x + 3 * y) = lane a x y := by
  have source : (y % 5 + 3 * ((2 * x + 3 * y) % 5)) % 5 = x % 5 := by omega
  rw [Machine.pi, lane_ofLanes, lane_mod_right, lane_congr_mod a y source]

theorem lane_chi (a : Lanes) (x y : Nat) :
    lane (chi a) x y = lane a x y ^^^ (~~~(lane a (x + 1) y) &&& lane a (x + 2) y) := by
  have shift (k : Nat) : lane a (x % 5 + k) y = lane a (x + k) y :=
    lane_congr_mod a y (Nat.mod_add_mod x 5 k)
  rw [chi, lane_ofLanes, lane_mod_left]
  simp only [lane_mod_right, shift]

theorem lane_iota (a : Lanes) (ir : Nat) {x y : Nat} (hx : x < 5) (hy : y < 5) :
    lane (iota a ir) x y =
      if x = 0 ∧ y = 0 then lane a 0 0 ^^^ roundConstant ir else lane a x y := by
  rw [iota, lane_ofLanes, Nat.mod_eq_of_lt hx, Nat.mod_eq_of_lt hy]

/-- Settles O14: each round step by its lemma on one lane. -/
theorem roundStepsOnLanes : Obligations.RoundStepsOnLanes := by
  refine ⟨fun _ _ _ => rfl, fun v => ⟨rotl64_zero v, fun n h _ => rotl64_of_pos v h⟩, ?_⟩
  intro a ir x hx y hy
  have hrho : lane (rho a) x y = rotl64 (lane a x y) (rhoOffset x y) := by
    rw [lane_rho, Nat.mod_eq_of_lt hx, Nat.mod_eq_of_lt hy]
  exact ⟨lane_theta a x y, hrho, lane_pi_dest a x y, lane_chi a x y, lane_iota a ir hx hy, rfl⟩

/-! ### The KSTATE words (`10_state.md` R68, R92) -/

theorem ksWord_even (a : Lanes) (i : Nat) : ksWord a (2 * i) = lowHalf (laneAt a i) := by
  rw [ksWord, if_pos (by omega), Nat.mul_div_cancel_left i (by decide)]

theorem ksWord_odd (a : Lanes) (i : Nat) : ksWord a (2 * i + 1) = highHalf (laneAt a i) := by
  rw [ksWord, if_neg (by omega), show (2 * i + 1) / 2 = i by omega]

/-- A read while idle is a read of the register map, and takes no draw (R320). -/
theorem hostRead_idle {s : State} (h : s.busy = false) (off : Nat) :
    hostRead off s = (readTarget s (target off), s) := by
  simp [hostRead, h]

/-- The KSTATE window while idle: word `w` of the lane file stands at 0x200 + 4w (R92). -/
theorem hostRead_kstate_idle {s : State} (h : s.busy = false) {w : Nat} (hw : w < 50) :
    (hostRead (0x200 + 4 * w) s).1 = ksWord s.ks w := by
  rw [hostRead_idle h, target_of_kstate (by omega) (by omega), Nat.add_sub_cancel_left,
    Nat.mul_div_cancel_left w (by decide)]
  rfl

/-- Settles O18: lane `i` is read as the KSTATE words 2i and 2i + 1. -/
theorem kstateWordsAreLaneHalves : Obligations.KstateWordsAreLaneHalves := by
  refine ⟨fun l => ⟨rfl, rfl, joinHalves_halves l⟩, fun _ _ => rfl, ?_⟩
  intro s hs i hi
  have low : (hostRead (0x200 + 8 * i) s).1 = ksWord s.ks (2 * i) := by
    rw [show 0x200 + 8 * i = 0x200 + 4 * (2 * i) by omega, hostRead_kstate_idle hs (by omega)]
  have high : (hostRead (0x204 + 8 * i) s).1 = ksWord s.ks (2 * i + 1) := by
    rw [show 0x204 + 8 * i = 0x200 + 4 * (2 * i + 1) by omega, hostRead_kstate_idle hs (by omega)]
  refine ⟨low.trans (ksWord_even _ i), high.trans (ksWord_odd _ i), ?_, ?_⟩
  · rw [low, ksWord_eq_leWord, show 4 * (2 * i) = 8 * i by omega]
  · rw [high, ksWord_eq_leWord, show 4 * (2 * i + 1) = 8 * i + 4 by omega]

/-! ### KSPONGE and memory (`40_keccak.md` R180, R186, R187) -/

theorem exec_ksponge_of_ok {s : State} (h : SpongeOperandsOk s) :
    exec .ksponge s = .next (complete (spongeEffect s)) :=
  exec_of_no_failure ((failureOf_ksponge s).2 h)

theorem SpongeOperandsOk.rate_pos {s : State} (h : SpongeOperandsOk s) : 0 < s.rate.toNat := by
  obtain ⟨⟨k, hk, -, hr⟩, -⟩ := h
  omega

/-- With legal operands the sponge gives exactly OUT_LEN bytes. -/
theorem SpongeOperandsOk.result_length {s : State} (h : SpongeOperandsOk s) :
    (spongeResult s).1.length = s.outLen.toNat := sponge_length _ h.rate_pos _ _

/-- Neither the output nor the state that KSPONGE leaves depends on the old lane file (R180). -/
theorem spongeEffect_ignores_ks (s : State) (k : Lanes) :
    spongeEffect { s with ks := k } = spongeEffect s := rfl

/-- BUF after KSPONGE is BUF with the output stored at DST. -/
theorem bufByte_complete_spongeEffect (s : State) (a : Nat) :
    bufByte (complete (spongeEffect s)) a =
      bufByte (memWrite s s.dstAddr.toNat (spongeResult s).1) a := rfl

/-- Settles O22: with legal operands KSPONGE is one store of OUT_LEN bytes at DST. -/
theorem kspongeMemoryFrame : Obligations.KspongeMemoryFrame := by
  refine ⟨fun s a n => ⟨memRead_length s a n, fun k hk => by rw [memRead_getD, if_pos hk]⟩,
    bufByte_memWrite, ?_⟩
  intro s t hs ht
  obtain rfl : complete (spongeEffect s) = t :=
    Host.Outcome.next.inj ((exec_ksponge_of_ok hs).symm.trans ht)
  have hlen := hs.result_length
  refine ⟨?_, fun a ha => ?_, fun k => ?_⟩
  · have hread := memRead_memWrite_same s s.dstAddr.toNat (spongeResult s).1
    rwa [hlen] at hread
  · rw [bufByte_complete_spongeEffect, bufByte_memWrite, hlen, if_neg ha]
  · have hk : SpongeOperandsOk { s with ks := k } := hs
    rw [exec_ksponge_of_ok hk, spongeEffect_ignores_ks]

/-! ### GHASH block by block (`41_ghash.md` R223, R224) -/

theorem getD_append_zeros (d : Bytes) (n i : Nat) :
    (d ++ List.replicate n 0).getD i 0 = d.getD i 0 := by
  rcases Nat.lt_or_ge i d.length with h | h
  · rw [List.getD_append _ _ _ _ h]
  · rw [List.getD_append_right _ _ _ _ h, List.getD_eq_default _ _ h, List.getD_eq_getElem?_getD,
      List.getElem?_getD_replicate_default_eq]

/-- Byte `k` of block `j` of a byte string, zero after the string's end. -/
theorem byteAt_paddedBlock (d : Bytes) (j : Nat) {k : Nat} (hk : k < 16) :
    byteAt (paddedBlock d j) k = d.getD (16 * j + k) 0 := by
  rw [paddedBlock, byteAt_ofBytes, if_pos hk]
  simp [List.getD_eq_getElem?_getD, hk]

theorem paddedBlock_append_zeros (d : Bytes) (n j : Nat) :
    paddedBlock (d ++ List.replicate n 0) j = paddedBlock d j :=
  byteAt_ext fun k hk => by
    rw [byteAt_paddedBlock _ _ hk, byteAt_paddedBlock _ _ hk, getD_append_zeros]

/-- The blocks of the first of two strings, when it is whole blocks. -/
theorem paddedBlock_append_left {d : Bytes} (e : Bytes) {m j : Nat} (hd : d.length = 16 * m) (hj : j < m) :
    paddedBlock (d ++ e) j = paddedBlock d j :=
  byteAt_ext fun k hk => by
    rw [byteAt_paddedBlock _ _ hk, byteAt_paddedBlock _ _ hk, List.getD_append _ _ _ _ (by omega)]

/-- The blocks of the second of two strings, when the first is whole blocks. -/
theorem paddedBlock_append_right {d : Bytes} (e : Bytes) {m : Nat} (hd : d.length = 16 * m) (j : Nat) :
    paddedBlock (d ++ e) (m + j) = paddedBlock e j :=
  byteAt_ext fun k hk => by
    rw [byteAt_paddedBlock _ _ hk, byteAt_paddedBlock _ _ hk, List.getD_append_right _ _ _ _ (by omega),
      show 16 * (m + j) + k - d.length = 16 * j + k by omega]

theorem length_append_zeroPad (d : Bytes) :
    (d ++ zeroPad d.length).length = 16 * blockCount d := by
  simp only [zeroPad, blockCount, List.length_append, List.length_replicate]
  omega

/-- The blocks of a byte string, in order, a partial last one zero-padded (R223). -/
def paddedBlocks (d : Bytes) : List Block := (List.range (blockCount d)).map (paddedBlock d)

/-- GHASH folds its block step over the blocks of the string (R223). -/
theorem ghash_eq_foldl_paddedBlocks (h acc : Block) (d : Bytes) :
    ghash h d acc = (paddedBlocks d).foldl (fun acc b => gfMult (xorBlock acc b) h) acc := by
  rw [ghash, paddedBlocks, List.foldl_map]

theorem paddedBlocks_of_length_eq {d : Bytes} (hd : d.length = 16) : paddedBlocks d = [ofBytes 16 d] := by
  have hblock : paddedBlock d 0 = ofBytes 16 d := by
    rw [paddedBlock, Nat.mul_zero, List.drop_zero, List.take_of_length_le hd.le]
  rw [paddedBlocks, blockCount, hd, ← hblock]
  rfl

theorem paddedBlocks_append_zeroPad (d : Bytes) : paddedBlocks (d ++ zeroPad d.length) = paddedBlocks d := by
  have hcount : blockCount (d ++ zeroPad d.length) = blockCount d := by
    rw [blockCount, length_append_zeroPad]
    omega
  rw [paddedBlocks, hcount]
  exact List.map_congr_left fun j _ => paddedBlock_append_zeros d _ j

/-- A string of whole blocks keeps its blocks when another follows it. -/
theorem paddedBlocks_append {d : Bytes} (e : Bytes) (hd : d.length % 16 = 0) :
    paddedBlocks (d ++ e) = paddedBlocks d ++ paddedBlocks e := by
  obtain ⟨m, hm⟩ := Nat.dvd_of_mod_eq_zero hd
  have hcount_left : blockCount d = m := by
    rw [blockCount, hm]
    omega
  have hcount : blockCount (d ++ e) = m + blockCount e := by
    rw [blockCount, blockCount, List.length_append, hm]
    omega
  rw [paddedBlocks, paddedBlocks, paddedBlocks, hcount_left, hcount, List.range_add, List.map_append,
    List.map_map]
  congr 1
  · exact List.map_congr_left fun j hj => paddedBlock_append_left e hm (List.mem_range.mp hj)
  · exact List.map_congr_left fun j _ => paddedBlock_append_right e hm j

@[simp] theorem ghash_nil (h acc : Block) : ghash h [] acc = acc := rfl

/-- One whole block: XORed into the accumulator, the result multiplied by H (R223). -/
theorem ghash_block (h acc : Block) {d : Bytes} (hd : d.length = 16) :
    ghash h d acc = gfMult (xorBlock acc (ofBytes 16 d)) h := by
  rw [ghash_eq_foldl_paddedBlocks, paddedBlocks_of_length_eq hd, List.foldl_cons, List.foldl_nil]

/-- The zero bytes that complete the last block do not change the hash (R223). -/
theorem ghash_append_zeroPad (h acc : Block) (d : Bytes) :
    ghash h (d ++ zeroPad d.length) acc = ghash h d acc := by
  rw [ghash_eq_foldl_paddedBlocks, paddedBlocks_append_zeroPad, ← ghash_eq_foldl_paddedBlocks]

/-- Hashing in two calls, the first over whole blocks (R224). -/
theorem ghash_append (h acc : Block) {d : Bytes} (e : Bytes) (hd : d.length % 16 = 0) :
    ghash h (d ++ e) acc = ghash h e (ghash h d acc) := by
  simp only [ghash_eq_foldl_paddedBlocks, paddedBlocks_append e hd, List.foldl_append]

/-- A string hashed after the zero-padded one before it. -/
theorem ghash_zeroPad_append (h acc : Block) (d e : Bytes) :
    ghash h (d ++ zeroPad d.length ++ e) acc = ghash h e (ghash h d acc) := by
  rw [ghash_append h acc e (by rw [length_append_zeroPad]; omega), ghash_append_zeroPad]

/-- S of GCM as three calls: the AAD, the ciphertext, the length block (R288). -/
theorem gcmHash_eq_chain (h : Block) (a c : Bytes) :
    gcmHash h a c = ghash h (lengthBlock a c) (ghash h c (ghash h a zeroBlock)) := by
  rw [gcmHash, List.append_assoc, List.append_assoc, ghash_zeroPad_append, ← List.append_assoc,
    ghash_zeroPad_append]

theorem zeroBlock_eq_ofBytes : zeroBlock = ofBytes 16 [] := by decide

/-- Byte `k` of a 64-bit big-endian integer (R12). -/
theorem be64_getD (n : Nat) {k : Nat} (hk : k < 8) :
    (be64 n).getD k 0 = BitVec.ofNat 8 (n / 2 ^ (8 * (7 - k))) := by
  simp [be64, List.getD_eq_getElem?_getD, hk, Nat.shiftRight_eq_div_pow]

/-- Settles O32: padding and chaining of GHASH, and GCM's S as the chain of its three parts. -/
theorem ghashPadsAndChains : Obligations.GhashPadsAndChains := by
  refine ⟨fun h acc d hd => ghash_block h acc hd,
    fun d k hk => by rw [byteAt_ofBytes, if_pos hk],
    fun n => ⟨be64_length n, fun k hk => be64_getD n hk⟩, ?_⟩
  intro h acc d e
  have hchain := gcmHash_eq_chain h d e
  rw [zeroBlock_eq_ofBytes] at hchain
  exact ⟨ghash_append_zeroPad h acc d, ghash_nil h acc, fun hd => (ghash_append h acc e hd).symm, hchain⟩

end Sys2Proof.Machine

/-!
PROOFS. The register map: windows that read back (O49), read-only and reserved offsets (O50), the word of
each offset (O45), parameter and configuration registers (O48), CTRL, STATUS and CMD (O47, O60, O6). The
invariant of the state (O59). Which step changes what: the key schedule (O52), the block registers (O54),
the lane file and BUF (O55), AUTH_OK (O53), OVR (O46). Soft reset (O57), the stored key schedule (O28)
and the checks of GCMDEC (O39).
-/

namespace Sys2Proof.Machine

/-! ### The register map, by what an offset names (`10_state.md`) -/

/-- The first offset of a byte register's window. -/
@[simp] def ByteReg.base : ByteReg → Nat
  | .key => 0x080
  | .blkIn => 0x0A0
  | .blkOut => 0x0B0
  | .gcmH => 0x0C0
  | .gcmS => 0x0D0
  | .gcmJ0 => 0x0E0
  | .gcmCtr => 0x0F0
  | .gcmTag => 0x100
  | .gcmTagx => 0x110
  | .rk => 0x300

/-- The bytes of a byte register. -/
@[simp] def ByteReg.size : ByteReg → Nat
  | .key => 32
  | .rk => 240
  | .blkIn | .blkOut | .gcmH | .gcmS | .gcmJ0 | .gcmCtr | .gcmTag | .gcmTagx => 16

/-- The byte registers the host may write. -/
@[simp] def ByteReg.writable : ByteReg → Bool
  | .key | .blkIn | .gcmH | .gcmS | .gcmTagx => true
  | .blkOut | .gcmJ0 | .gcmCtr | .gcmTag | .rk => false

theorem mem_byteWindows (r : ByteReg) : (r.base, r.size, r) ∈ byteWindows := by
  cases r <;> decide

theorem eq_of_mem_byteWindows : ∀ p ∈ byteWindows, p = (p.2.2.base, p.2.2.size, p.2.2) := by decide

/-- A byte register's window is made of words, below BUF and after the word registers. -/
theorem ByteReg.window_bounds (r : ByteReg) :
    r.base % 4 = 0 ∧ r.size % 4 = 0 ∧ 0x080 ≤ r.base ∧ r.base + r.size ≤ 0x3F0 ∧
      (r.base + r.size ≤ 0x120 ∨ 0x300 ≤ r.base) := by
  cases r <;> decide

theorem target_of_byteReg {r : ByteReg} {off : Nat} (h : r.base ≤ off) (h' : off < r.base + r.size) :
    target off = .bytes r (off - r.base) := target_of_byteWindow (mem_byteWindows r) h h'

theorem target_byteReg_add {r : ByteReg} {k : Nat} (h : k < r.size) : target (r.base + k) = .bytes r k := by
  rw [target_of_byteReg (Nat.le_add_right _ _) (Nat.add_lt_add_left h _), Nat.add_sub_cancel_left]

theorem target_kstate_add {w : Nat} (h : w < 50) : target (0x200 + 4 * w) = .kstate w := by
  rw [target_of_kstate (by omega) (by omega), Nat.add_sub_cancel_left,
    Nat.mul_div_cancel_left w (by decide)]

theorem target_buf_add (a : Nat) : target (0x10000 + a) = .buf a := by
  rw [target_of_buf (Nat.le_add_right _ _), Nat.add_sub_cancel_left]

theorem target_of_wordRegister : ∀ p ∈ wordRegisters, target p.1 = p.2 := by decide

/-- What the map's word registers are: below 0x080, and none of them is a window's word. -/
theorem wordRegister_bounds : ∀ p ∈ wordRegisters,
    (p.1 < 0x018 ∨ (0x020 ≤ p.1 ∧ p.1 < 0x050)) ∧ (∀ r k, p.2 ≠ .bytes r k) ∧
      (∀ w, p.2 ≠ .kstate w) ∧ ∀ a, p.2 ≠ .buf a := by
  simp [wordRegisters]

theorem eq_of_target_bytes {off k : Nat} {r : ByteReg} (h : target off = .bytes r k) :
    off = r.base + k ∧ k < r.size := by
  rcases target_cases off with ⟨-, ht⟩ | ⟨-, -, ht⟩ | ⟨-, -, ⟨p, hp, -, ht⟩ | ⟨p, hp, hl, hu, ht⟩ | ht⟩ <;>
    rw [h] at ht
  · cases ht
  · cases ht
  · exact absurd ht.symm ((wordRegister_bounds p hp).2.1 r k)
  · obtain ⟨rfl, rfl⟩ := Target.bytes.inj ht
    rw [eq_of_mem_byteWindows p hp] at hl hu ⊢
    simp only at hl hu ⊢
    omega
  · cases ht

theorem eq_of_target_kstate {off w : Nat} (h : target off = .kstate w) :
    0x200 ≤ off ∧ off < 0x2C8 ∧ w = (off - 0x200) / 4 := by
  rcases target_cases off with ⟨-, ht⟩ | ⟨hl, hu, ht⟩ | ⟨-, -, ⟨p, hp, -, ht⟩ | ⟨p, hp, -, -, ht⟩ | ht⟩ <;>
    rw [h] at ht
  · cases ht
  · exact ⟨hl, hu, Target.kstate.inj ht⟩
  · exact absurd ht.symm ((wordRegister_bounds p hp).2.2.1 w)
  · cases ht
  · cases ht

theorem eq_of_target_buf {off a : Nat} (h : target off = .buf a) : off = 0x10000 + a := by
  rcases target_cases off with ⟨hl, ht⟩ | ⟨-, -, ht⟩ | ⟨-, -, ⟨p, hp, -, ht⟩ | ⟨p, hp, -, -, ht⟩ | ht⟩ <;>
    rw [h] at ht
  · have := Target.buf.inj ht
    omega
  · cases ht
  · exact absurd ht.symm ((wordRegister_bounds p hp).2.2.2 a)
  · cases ht
  · cases ht

/-- The gaps of the map (R108). -/
theorem target_of_reserved {off : Nat}
    (h : (0x018 ≤ off ∧ off < 0x020) ∨ (0x050 ≤ off ∧ off < 0x080) ∨ (0x120 ≤ off ∧ off < 0x200) ∨
      (0x2C8 ≤ off ∧ off < 0x300) ∨ (0x3F0 ≤ off ∧ off < 0x10000)) : target off = .reserved := by
  rcases target_cases off with ⟨hl, -⟩ | ⟨hl, hu, -⟩ | ⟨-, -, ⟨p, hp, ho, -⟩ | ⟨p, hp, hl, hu, -⟩ | ht⟩
  · omega
  · omega
  · have := (wordRegister_bounds p hp).1
    omega
  · rw [eq_of_mem_byteWindows p hp] at hl hu
    have := p.2.2.window_bounds
    simp only at hl hu
    omega
  · exact ht

/-! ### Words of a window: what a read gives after a write (R100, R109) -/

theorem leWord_congr {b b' : Nat → Byte} {k : Nat} (h : ∀ j < 4, b (k + j) = b' (k + j)) :
    leWord b k = leWord b' k := by
  have h0 : b k = b' k := h 0 (by decide)
  rw [leWord, leWord, h0, h 1 (by decide), h 2 (by decide), h 3 (by decide)]

/-- Four bytes that are those of `v` make the word `v` (R100). -/
theorem leWord_eq_of_wordBytes {b : Nat → Byte} {k : Nat} {v : Word}
    (h : ∀ j < 4, b (k + j) = (wordBytes v).getD j 0) : leWord b k = v := by
  have h0 : b k = (wordBytes v).getD 0 0 := h 0 (by decide)
  rw [leWord, h0, h 1 (by decide), h 2 (by decide), h 3 (by decide)]
  exact leWord_wordBytes v

theorem regByte_writeByteReg_same (s : State) {r : ByteReg} (hr : r.writable = true) (k : Nat)
    (bs : Bytes) {j : Nat} (hj : j < r.size) :
    regByte (writeByteReg s r k bs) r j =
      if k ≤ j ∧ j < k + bs.length then bs.getD (j - k) 0 else regByte s r j := by
  cases r
  case key | blkIn | gcmH | gcmS | gcmTagx => exact (byteAt_setBytes _ _ _ _).trans (if_pos hj)
  case blkOut | gcmJ0 | gcmCtr | gcmTag | rk => cases hr

theorem regByte_writeByteReg_other (s : State) {r r' : ByteReg} (h : r' ≠ r) (k : Nat) (bs : Bytes)
    (j : Nat) : regByte (writeByteReg s r k bs) r' j = regByte s r' j := by
  cases r <;> cases r' <;> simp [regByte, writeByteReg] at h ⊢

theorem laneAt_setKsWord (a : Lanes) (w : Nat) (v : Word) {i : Nat} (hi : i < 25) :
    laneAt (setKsWord a w v) i =
      if i = w / 2 then
        if w % 2 = 0 then joinHalves v (highHalf (laneAt a i)) else joinHalves (lowHalf (laneAt a i)) v
      else laneAt a i := by
  rw [setKsWord, laneAt_tabulate, if_pos hi]

theorem ksWord_setKsWord_same (a : Lanes) {w : Nat} (h : w < 50) (v : Word) :
    ksWord (setKsWord a w v) w = v := by
  rw [ksWord, laneAt_setKsWord a w v (by omega), if_pos rfl]
  by_cases hw : w % 2 = 0
  · rw [if_pos hw, if_pos hw, lowHalf_joinHalves]
  · rw [if_neg hw, if_neg hw, highHalf_joinHalves]

theorem ksWord_setKsWord_other (a : Lanes) {w w' : Nat} (h : w' < 50) (hne : w' ≠ w) (v : Word) :
    ksWord (setKsWord a w v) w' = ksWord a w' := by
  rw [ksWord, laneAt_setKsWord a w v (by omega), ksWord]
  by_cases hl : w' / 2 = w / 2
  · by_cases hw : w % 2 = 0
    · have hw' : ¬ w' % 2 = 0 := by omega
      rw [if_pos hl, if_pos hw, if_neg hw', if_neg hw', highHalf_joinHalves]
    · have hw' : w' % 2 = 0 := by omega
      rw [if_pos hl, if_neg hw, if_pos hw', if_pos hw', lowHalf_joinHalves]
  · rw [if_neg hl]

/-- A target that an aligned offset of the window can name: a whole word of its window. -/
def Target.Aligned : Target → Prop
  | .bytes r k => k % 4 = 0 ∧ k + 4 ≤ r.size
  | .kstate w => w < 50
  | .buf a => a % 4 = 0
  | _ => True

/-- The words of the windows that the host may write. -/
def Target.InWritableWindow : Target → Prop
  | .bytes r _ => r.writable = true
  | .kstate _ => True
  | .buf _ => True
  | _ => False

theorem aligned_target {off : Nat} (h : off % 4 = 0) : (target off).Aligned := by
  cases ht : target off
  case bytes r k =>
    obtain ⟨ho, hk⟩ := eq_of_target_bytes ht
    have := r.window_bounds
    show k % 4 = 0 ∧ k + 4 ≤ r.size
    omega
  case kstate w =>
    obtain ⟨hl, hu, hw⟩ := eq_of_target_kstate ht
    show w < 50
    omega
  case buf a =>
    have ho := eq_of_target_buf ht
    show a % 4 = 0
    omega
  all_goals exact trivial

/-- An aligned offset of a window is the only one that names its word. -/
theorem eq_of_target_eq {off off' : Nat} (h : target off' = target off) (ha : off % 4 = 0)
    (ha' : off' % 4 = 0) (hw : (target off).InWritableWindow) : off' = off := by
  cases ht : target off
  case bytes r k =>
    rw [(eq_of_target_bytes ht).1, (eq_of_target_bytes (h.trans ht)).1]
  case kstate w =>
    have := eq_of_target_kstate ht
    have := eq_of_target_kstate (h.trans ht)
    omega
  case buf a =>
    rw [eq_of_target_buf ht, eq_of_target_buf (h.trans ht)]
  all_goals
    rw [ht] at hw
    exact hw.elim

/-- A word written to a window is read back (R109). -/
theorem readTarget_writeTarget_same (s : State) (v : Word) {t : Target} (ha : t.Aligned)
    (hw : t.InWritableWindow) : readTarget (writeTarget s v t) t = v := by
  cases t
  case bytes r k =>
    obtain ⟨-, hk⟩ := ha
    refine leWord_eq_of_wordBytes fun j hj => ?_
    rw [writeTarget, regByte_writeByteReg_same s hw k _ (by omega),
      if_pos (by rw [wordBytes_length]; omega), Nat.add_sub_cancel_left]
  case kstate w => exact ksWord_setKsWord_same s.ks ha v
  case buf a =>
    refine leWord_eq_of_wordBytes fun j hj => ?_
    rw [writeTarget, bufByte_memWrite, if_pos (by rw [wordBytes_length]; omega), Nat.add_sub_cancel_left]
  all_goals exact hw.elim

theorem leWord_regByte_writeTarget (s : State) (v : Word) {r r' : ByteReg} {k k' : Nat}
    (ha : (Target.bytes r k).Aligned) (ha' : (Target.bytes r' k').Aligned) (hw : r.writable = true)
    (hne : Target.bytes r' k' ≠ .bytes r k) :
    leWord (regByte (writeTarget s v (.bytes r k)) r') k' = leWord (regByte s r') k' := by
  obtain ⟨hk, -⟩ := ha
  obtain ⟨hk', hs⟩ := ha'
  refine leWord_congr fun j hj => ?_
  by_cases hr : r' = r
  · subst hr
    have : k' ≠ k := fun h => hne (by rw [h])
    rw [writeTarget, regByte_writeByteReg_same s hw k _ (by omega),
      if_neg (by rw [wordBytes_length]; omega)]
  · exact regByte_writeByteReg_other s hr k _ _

/-- A word written to a window leaves every other word of the map as it was. -/
theorem readTarget_writeTarget_other (s : State) (v : Word) {t t' : Target} (ha : t.Aligned)
    (ha' : t'.Aligned) (hw : t.InWritableWindow) (hne : t' ≠ t) :
    readTarget (writeTarget s v t) t' = readTarget s t' := by
  cases t
  case bytes r k =>
    cases t'
    case bytes r' k' => exact leWord_regByte_writeTarget s v ha ha' hw hne
    all_goals cases r <;> rfl
  case kstate w =>
    cases t'
    case kstate w' => exact ksWord_setKsWord_other s.ks ha' (fun h => hne (by rw [h])) v
    all_goals rfl
  case buf a =>
    cases t'
    case buf a' =>
      have haa : a' ≠ a := fun h => hne (by rw [h])
      have h4 : a % 4 = 0 := ha
      have h4' : a' % 4 = 0 := ha'
      refine leWord_congr fun j hj => ?_
      rw [writeTarget, bufByte_memWrite, if_neg (by rw [wordBytes_length]; omega)]
    all_goals rfl
  all_goals exact hw.elim

/-- The windows of R69: KEY and BLK_IN, GCM_H and GCM_S, GCM_TAGX, KSTATE, BUF. -/
theorem inWritableWindow_target {off : Nat}
    (h : (0x080 ≤ off ∧ off < 0x0B0) ∨ (0x0C0 ≤ off ∧ off < 0x0E0) ∨ (0x110 ≤ off ∧ off < 0x120) ∨
      (0x200 ≤ off ∧ off < 0x2C8) ∨ (0x10000 ≤ off ∧ off < 0x20000)) :
    (target off).InWritableWindow := by
  have inReg (r : ByteReg) (hr : r.writable = true) (hl : r.base ≤ off) (hu : off < r.base + r.size) :
      (target off).InWritableWindow := by
    rw [target_of_byteReg hl hu]
    exact hr
  rcases h with ⟨hl, hu⟩ | ⟨hl, hu⟩ | ⟨hl, hu⟩ | ⟨hl, hu⟩ | ⟨hl, -⟩
  · rcases Nat.lt_or_ge off 0x0A0 with h | h
    · exact inReg .key rfl hl h
    · exact inReg .blkIn rfl h hu
  · rcases Nat.lt_or_ge off 0x0D0 with h | h
    · exact inReg .gcmH rfl hl h
    · exact inReg .gcmS rfl h hu
  · exact inReg .gcmTagx rfl hl hu
  · rw [target_of_kstate hl hu]
    exact trivial
  · rw [target_of_buf hl]
    exact trivial

/-- A write while idle past the control registers is a register write, and the block stays idle. -/
theorem hostWrite_store_idle {s : State} {off : Nat} (v : Word) (h : s.busy = false) (h10 : 0x010 ≤ off) :
    hostWrite off v s = writeTarget s v (target off) ∧ (writeTarget s v (target off)).busy = false := by
  refine ⟨hostWrite_idle h (by omega) (by omega) (by omega), ?_⟩
  obtain ⟨-, -, -, ⟨-, -, -, hl⟩, -⟩ := writeTarget_frame s v (target off)
  rw [State.busy, hl]
  exact h

/-- Settles O49: the word is read back and no other word is touched, and each window's write is named
by its target. -/
theorem windowWordsReadBack : Obligations.WindowWordsReadBack := by
  constructor
  · intro s v off off' hs ha ha' _ hin
    have hw := inWritableWindow_target hin
    obtain ⟨hstore, hidle⟩ := hostWrite_store_idle v hs (off := off) (by omega)
    rw [hstore, hostRead_idle hidle, hostRead_idle hidle, hostRead_idle hs]
    exact ⟨readTarget_writeTarget_same s v (aligned_target ha) hw, fun hne =>
      readTarget_writeTarget_other s v (aligned_target ha) (aligned_target ha') hw
        fun h => hne (eq_of_target_eq h ha ha' hw)⟩
  · intro s v hs
    have regWord (r : ByteReg) (w : Nat) (hw : 4 * w < r.size) :
        hostWrite (r.base + 4 * w) v s = writeByteReg s r (4 * w) (wordBytes v) := by
      rw [(hostWrite_store_idle v hs (by have := r.window_bounds; omega)).1, target_byteReg_add hw]
      rfl
    refine ⟨fun w hw => regWord .key w (by show _ < 32; omega), fun w hw => ?_, fun w hw => ?_,
      fun w hw => ?_⟩
    · have h16 : 4 * w < 16 := by omega
      exact ⟨regWord .blkIn w h16, regWord .gcmH w h16, regWord .gcmS w h16, regWord .gcmTagx w h16⟩
    · rw [(hostWrite_store_idle v hs (by omega)).1, target_kstate_add hw]
      rfl
    · rw [(hostWrite_store_idle v hs (by omega)).1, target_buf_add]
      rfl

/-! ### The words of the register map (`10_state.md` R41 to R58, R108) -/

/-- A read while idle, or below 0x080, is a read of the register map and takes no draw (R107). -/
theorem hostRead_registers {s : State} {off : Nat} (h : s.busy = false ∨ off < 0x080) :
    hostRead off s = (readTarget s (target off), s) := by
  rcases h with h | h
  · exact hostRead_idle h off
  · have hlow : ¬ Config.busyReadOffset ≤ off := Nat.not_le_of_lt h
    simp [hostRead, hlow]

/-- A read from 0x080 on while busy gives a free value and takes one draw (R107). -/
theorem hostRead_busy_window {s : State} {off : Nat} (h : s.busy = true) (h' : 0x080 ≤ off) :
    hostRead off s = (Config.busyRead s.draws, { s with draws := s.draws + 1 }) := by
  have hhigh : Config.busyReadOffset ≤ off := h'
  simp [hostRead, h, hhigh]

/-- A write to a read-only word register changes nothing (R41, R52, R53, R57). -/
theorem writeTarget_wordRegister_readOnly (s : State) (v : Word) : ∀ p ∈ wordRegisters,
    p.1 < 0x020 ∨ p.1 = 0x048 → writeTarget s v p.2 = s := by
  simp [wordRegisters, writeTarget]

theorem writeTarget_bytes_readOnly (s : State) (v : Word) {r : ByteReg} (hr : r.writable = false)
    (k : Nat) : writeTarget s v (.bytes r k) = s := by
  cases r
  case blkOut | gcmJ0 | gcmCtr | gcmTag | rk => rfl
  case key | blkIn | gcmH | gcmS | gcmTagx => cases hr

/-- The windows at these offsets are read-only, or there is none (R61, R64, R65, R66, R71). -/
theorem readOnly_of_base {r : ByteReg} {off : Nat} (hl : r.base ≤ off) (hu : off < r.base + r.size)
    (h : (0x0B0 ≤ off ∧ off < 0x0C0) ∨ (0x0E0 ≤ off ∧ off < 0x110) ∨ 0x120 ≤ off) :
    r.writable = false := by
  cases r
  case blkOut | gcmJ0 | gcmCtr | gcmTag | rk => rfl
  case key | blkIn | gcmH | gcmS | gcmTagx =>
    simp only [ByteReg.base, ByteReg.size] at hl hu
    omega

/-- The read-only registers and the reserved offsets ignore a write (R108). -/
theorem writeTarget_readOnly (s : State) (v : Word) {off : Nat}
    (h : off < 0x020 ∨ off = 0x048 ∨ (0x050 ≤ off ∧ off < 0x080) ∨
      (0x0B0 ≤ off ∧ off < 0x0C0) ∨ (0x0E0 ≤ off ∧ off < 0x110) ∨ (0x120 ≤ off ∧ off < 0x200) ∨
      (0x2C8 ≤ off ∧ off < 0x10000)) : writeTarget s v (target off) = s := by
  rcases target_cases off with
    ⟨hl, -⟩ | ⟨hl, hu, -⟩ | ⟨-, -, ⟨p, hp, ho, ht⟩ | ⟨p, hp, hl, hu, ht⟩ | ht⟩
  · omega
  · omega
  · have := (wordRegister_bounds p hp).1
    rw [ht]
    exact writeTarget_wordRegister_readOnly s v p hp (by omega)
  · rw [eq_of_mem_byteWindows p hp] at hl hu
    have := p.2.2.window_bounds
    simp only at hl hu
    rw [ht]
    exact writeTarget_bytes_readOnly s v (readOnly_of_base hl hu (by omega)) _
  · rw [ht]
    rfl

/-- Settles O50: what these offsets name ignores the write, and the gaps of the map read 0. -/
theorem readOnlyAndReservedOffsets : Obligations.ReadOnlyAndReservedOffsets := by
  intro s v off hs ha h
  refine ⟨?_, fun h0 => ?_, fun hr => ?_⟩
  · rw [hostWrite_idle hs (by omega) (by omega) (by omega)]
    exact writeTarget_readOnly s v (by omega)
  · rw [h0, hostRead_idle hs]
    rfl
  · rw [hostRead_idle hs, target_of_reserved hr]
    rfl

theorem zero_append_bytes_eq_setWidth (a b : Byte) :
    (0#16 ++ b ++ a : BitVec 32) = (b ++ a).setWidth 32 := by
  rw [BitVec.setWidth_eq_append (by decide), BitVec.append_assoc]

/-- The two bytes of SPONGE_CFG as a word (R55). -/
theorem spongeCfgWord_eq_setWidth (a b : Byte) :
    (a.setWidth 32 ||| (b.setWidth 32 <<< 8)) = (b ++ a).setWidth 32 := by
  apply BitVec.eq_of_getLsbD_eq
  intro i hi
  rw [BitVec.getLsbD_or, BitVec.getLsbD_shiftLeft, BitVec.getLsbD_setWidth, BitVec.getLsbD_setWidth,
    BitVec.getLsbD_setWidth, BitVec.getLsbD_append]
  by_cases h8 : i < 8
  · simp [hi, h8]
  · have h : i - 8 < 32 := by omega
    simp [hi, h8, h, BitVec.getLsbD_of_ge _ _ (Nat.le_of_not_lt h8)]

theorem setWidth_extractLsb'_zero (v : Word) (n : Nat) :
    (v.extractLsb' 0 n).setWidth 32 = v &&& BitVec.ofNat 32 (2 ^ n - 1) := by
  apply BitVec.eq_of_getLsbD_eq
  intro i hi
  simp only [BitVec.getLsbD_setWidth, BitVec.getLsbD_extractLsb', BitVec.getLsbD_and, BitVec.getLsbD_ofNat,
    Nat.testBit_two_pow_sub_one, hi, decide_true, Bool.true_and, Nat.zero_add, Bool.and_comm]

theorem spongeCfgWord_extract (v : Word) :
    ((v.extractLsb' 0 8).setWidth 32 ||| ((v.extractLsb' 8 8).setWidth 32 <<< 8)) = v &&& 0x0000FFFF := by
  rw [spongeCfgWord_eq_setWidth, BitVec.extractLsb'_append_extractLsb'_eq_extractLsb' (by decide)]
  exact setWidth_extractLsb'_zero v 16

/-- While idle, a write to a word register stores it there and the next read gives it back (R54 to R58). -/
theorem hostRead_hostWrite_wordRegister {s : State} (hs : s.busy = false) (v : Word) :
    ∀ p ∈ wordRegisters, 0x010 ≤ p.1 →
      hostWrite p.1 v s = writeTarget s v p.2 ∧
      (hostRead p.1 (hostWrite p.1 v s)).1 = readTarget (writeTarget s v p.2) p.2 := by
  intro p hp h10
  obtain ⟨hw, hidle⟩ := hostWrite_store_idle v hs h10
  rw [hw, hostRead_idle hidle, target_of_wordRegister p hp]
  exact ⟨rfl, rfl⟩

/-- Settles O48: each register by its entry of the map. -/
theorem parameterRegistersReadBack : Obligations.ParameterRegistersReadBack := by
  intro s v hs
  have reg (off : Nat) (t : Target) (hp : (off, t) ∈ wordRegisters ∧ 0x010 ≤ off) :=
    hostRead_hostWrite_wordRegister hs v (off, t) hp.1 hp.2
  have h20 := reg 0x020 .srcAddr (by decide)
  have h24 := reg 0x024 .srcLen (by decide)
  have h28 := reg 0x028 .dstAddr (by decide)
  have h2C := reg 0x02C .outLen (by decide)
  have h30 := reg 0x030 .aadAddr (by decide)
  have h34 := reg 0x034 .aadLen (by decide)
  have h38 := reg 0x038 .ivAddr (by decide)
  have h3C := reg 0x03C .ivLen (by decide)
  have h40 := reg 0x040 .spongeCfg (by decide)
  have h44 := reg 0x044 .aesCfg (by decide)
  have h4C := reg 0x04C .gcmCfg (by decide)
  refine ⟨?_, ⟨h20.1, h24.1, h28.1, h2C.1, h30.1, h34.1, h38.1, h3C.1⟩, ⟨h40.1, h44.1, h4C.1⟩, ?_, ?_, ?_⟩
  · simp only [List.forall_mem_cons]
    exact ⟨h20.2, h24.2, h28.2, h2C.2, h30.2, h34.2, h38.2, h3C.2, by simp⟩
  · exact h40.2.trans (spongeCfgWord_extract v)
  · exact h44.2.trans (setWidth_extractLsb'_zero v 6)
  · exact h4C.2.trans (setWidth_extractLsb'_zero v 5)

/-- A word of a byte register's window is its four bytes (R100). -/
theorem readTarget_byteReg (s : State) (r : ByteReg) {k : Nat} (h : k < r.size) :
    readTarget s (target (r.base + k)) = leWord (regByte s r) k := by
  rw [target_byteReg_add h]
  rfl

theorem readTarget_kstate (s : State) {w : Nat} (h : w < 50) :
    readTarget s (target (0x200 + 4 * w)) = leWord (ksByte s.ks) (4 * w) := by
  rw [target_kstate_add h]
  exact ksWord_eq_leWord s.ks w

theorem readTarget_buf (s : State) (a : Nat) :
    readTarget s (target (0x10000 + a)) = leWord (bufByte s) a := by
  rw [target_buf_add]
  rfl

/-- Settles O45: a read below 0x080 or while idle takes no draw, and each offset's word is that of its
target. -/
theorem readsHaveNoSideEffects : Obligations.ReadsHaveNoSideEffects := by
  refine ⟨fun _ _ => rfl, fun s off rest hw ha hev => ⟨fun h => ?_, fun hb h80 => ?_⟩, fun s => ?_⟩
  · rw [step_of_read hw ha hev, hostRead_registers (s := took s rest) h]
    rfl
  · rw [step_of_read hw ha hev, hostRead_busy_window (s := took s rest) hb h80]
    rfl
  · refine ⟨⟨rfl, rfl, rfl, rfl, rfl, rfl⟩, ⟨rfl, rfl, rfl, rfl, rfl, rfl, rfl, rfl⟩,
      ⟨(spongeCfgWord_eq_setWidth _ _).trans (zero_append_bytes_eq_setWidth _ _).symm, rfl, rfl, rfl⟩,
      fun w hw => readTarget_byteReg s .key (by show _ < 32; omega), fun w hw => ?_,
      fun w hw => readTarget_kstate s hw,
      fun w hw => readTarget_byteReg s .rk (by show _ < 240; omega), fun w _ => readTarget_buf s (4 * w)⟩
    have h16 : 4 * w < 16 := by omega
    exact ⟨readTarget_byteReg s .blkIn h16, readTarget_byteReg s .blkOut h16,
      readTarget_byteReg s .gcmH h16, readTarget_byteReg s .gcmS h16,
      readTarget_byteReg s .gcmJ0 h16, readTarget_byteReg s .gcmCtr h16,
      readTarget_byteReg s .gcmTag h16, readTarget_byteReg s .gcmTagx h16⟩

/-- Settles O47: the strobe is 0, so CTRL stores its two bits; STATUS by `writeStatus_eq`. -/
theorem controlAndStatusWrites : Obligations.ControlAndStatusWrites := by
  refine fun s v => ⟨fun hv => ?_, writeStatus_eq v s⟩
  show writeCtrl v s = _
  rw [writeCtrl, if_neg (Bool.eq_false_iff.1 hv)]

/-- Settles O6: the write is the step's event, and idle or busy decides what becomes of the word. -/
theorem cmdWriteIsAcceptedOrLost : Obligations.CmdWriteIsAcceptedOrLost := by
  intro s w rest
  refine ⟨?_, fun hev hb => ?_, fun hev hb => ?_⟩
  · rw [hostRead_registers (.inr (by decide))]
    rfl
  · rw [step_of_write (by decide) (by decide) hev, hostWrite_cmd (s := took s rest) hb]
    rfl
  · rw [step_of_write (by decide) (by decide) hev,
      hostWrite_busy (s := took s rest) hb (by decide) (by decide)]
    rfl

/-! ### STATUS and CTRL bit by bit (`10_state.md` R42, R45) -/

theorem getLsbD_flagBit {k : Nat} (hk : k < 32) (b : Bool) (i : Nat) :
    (flagBit k b).getLsbD i = (b && decide (i = k)) := by
  unfold flagBit
  cases b
  · simp
  · rw [if_pos rfl, ← BitVec.twoPow_eq, BitVec.getLsbD_twoPow]
    simp [hk, eq_comm]

theorem getLsbD_ctrlWord (s : State) (i : Nat) :
    (ctrlWord s).getLsbD i = ((s.ie && decide (i = 0)) || (s.compat && decide (i = 1))) := by
  rw [ctrlWord, BitVec.getLsbD_or, getLsbD_flagBit (by decide), getLsbD_flagBit (by decide)]

theorem getLsbD_statusWord (s : State) {i : Nat} (hi : i < 32) :
    (statusWord s).getLsbD i =
      ((s.busy && decide (i = 0)) || (s.done && decide (i = 1)) || (s.err && decide (i = 2))
        || (s.ovr && decide (i = 3)) || (s.keyed && decide (i = 4)) || (s.authOk && decide (i = 5))
        || (!decide (i < 8) && s.errCode.toByte.getLsbD (i - 8))) := by
  have hi' : i - 8 < 32 := by omega
  simp only [statusWord, BitVec.getLsbD_or, BitVec.getLsbD_shiftLeft, BitVec.getLsbD_setWidth, hi, hi',
    getLsbD_flagBit (k := 0) (by decide), getLsbD_flagBit (k := 1) (by decide),
    getLsbD_flagBit (k := 2) (by decide), getLsbD_flagBit (k := 3) (by decide),
    getLsbD_flagBit (k := 4) (by decide), getLsbD_flagBit (k := 5) (by decide), decide_true, Bool.true_and]

/-- Past its flags a STATUS word holds ERRCODE from bit 8 on, and zeros (R45). -/
theorem getLsbD_statusWord_high (s : State) {i : Nat} (hi : i < 32) (h6 : 6 ≤ i) :
    (statusWord s).getLsbD i = (!decide (i < 8) && s.errCode.toByte.getLsbD (i - 8)) := by
  rw [getLsbD_statusWord s hi]
  simp [show i ≠ 0 by omega, show i ≠ 1 by omega, show i ≠ 2 by omega, show i ≠ 3 by omega,
    show i ≠ 4 by omega, show i ≠ 5 by omega]

theorem statusWord_bits_6_7 (s : State) : (statusWord s).extractLsb' 6 2 = 0 := by
  apply BitVec.eq_of_getLsbD_eq
  intro i hi
  have h8 : 6 + i < 8 := by omega
  rw [BitVec.getLsbD_extractLsb', getLsbD_statusWord_high s (by omega) (by omega)]
  simp [h8]

theorem statusWord_errCode (s : State) : (statusWord s).extractLsb' 8 8 = s.errCode.toByte := by
  apply BitVec.eq_of_getLsbD_eq
  intro i hi
  rw [BitVec.getLsbD_extractLsb', getLsbD_statusWord_high s (by omega) (by omega)]
  simp [hi]

theorem statusWord_bits_16_31 (s : State) : (statusWord s).extractLsb' 16 16 = 0 := by
  apply BitVec.eq_of_getLsbD_eq
  intro i hi
  rw [BitVec.getLsbD_extractLsb', getLsbD_statusWord_high s (by omega) (by omega),
    BitVec.getLsbD_of_ge _ (16 + i - 8) (by omega)]
  simp

theorem ctrlWord_bits_2_31 (s : State) : (ctrlWord s).extractLsb' 2 30 = 0 := by
  apply BitVec.eq_of_getLsbD_eq
  intro i hi
  have h1 : 2 + i ≠ 1 := by omega
  rw [BitVec.getLsbD_extractLsb', getLsbD_ctrlWord]
  simp [h1]

/-- Settles O60: each flag by the bit lemma, the fields by their lemmas, the numbers by evaluation. -/
theorem statusAndControlLayout : Obligations.StatusAndControlLayout := by
  refine ⟨fun s => ⟨⟨?_, ?_, ?_, ?_, ?_, ?_, statusWord_bits_6_7 s, statusWord_errCode s,
    statusWord_bits_16_31 s⟩, ?_, ?_, ctrlWord_bits_2_31 s⟩, rfl⟩
  case refine_7 | refine_8 =>
    rw [getLsbD_ctrlWord]
    simp
  all_goals
    rw [getLsbD_statusWord s (by decide)]
    simp

/-! ### The invariant of the state (`10_state.md` R48 to R53, R57, R70, R71; `60_exceptions.md` R340) -/

/-- No part of the invariant speaks of the draws, the events to come or the response. -/
theorem StateInv.took {s : State} (h : StateInv s) (rest : List Event) : StateInv (took s rest) :=
  ⟨h.memory, h.error, h.latch, h.auth, h.key⟩

theorem StateInv.drew {s : State} (h : StateInv s) (d : Nat) : StateInv (drew s d) :=
  ⟨h.memory, h.error, h.latch, h.auth, h.key⟩

theorem StateInv.responded {s : State} (h : StateInv s) (r : Response) : StateInv (responded s r) :=
  ⟨h.memory, h.error, h.latch, h.auth, h.key⟩

theorem latchOk_of_idle {s : State} (h : s.latch = none) : LatchOk s :=
  fun l hl => absurd (h.symm.trans hl) (Option.some_ne_none l).symm

/-- The empty key schedule of a state without a key (R380). -/
theorem keyScheduleOk_of_empty {s : State} (hk : s.keyed = false) (hn : s.nr = 0)
    (hr : s.rk = Vector.replicate 240 0) : KeyScheduleOk s :=
  ⟨fun _ => ⟨hn, hr⟩, fun h => absurd (hk.symm.trans h) Bool.false_ne_true⟩

theorem StateInv.powerOnReset (s : State) : StateInv (powerOnReset s) where
  memory := rfl
  error := ⟨⟨fun h => (Bool.false_ne_true h).elim, fun h => (h rfl).elim⟩, List.mem_cons_self ..⟩
  latch := latchOk_of_idle rfl
  auth := fun h => (Bool.false_ne_true h).elim
  key := keyScheduleOk_of_empty rfl rfl rfl

/-- A soft reset keeps the canonical form of BUF, also where it aborts a command (R383). -/
theorem wf_bufAfterReset {s : State} (h : s.buf.wf = true) : (bufAfterReset s).wf = true := by
  unfold bufAfterReset
  split
  · exact h
  · split
    · exact h
    · exact Memory.wf_scramble _ _ _ h

theorem StateInv.softReset {s : State} (h : StateInv s) : StateInv (softReset s) :=
  { StateInv.powerOnReset s with memory := wf_bufAfterReset h.memory }

theorem gcmOperandsOk_of_gcmdec {s : State} (h : failureOf .gcmdec s = none) : GcmOperandsOk s := by
  rw [failureOf_gcmdec, Option.or_eq_none_iff] at h
  exact (failureOf_gcmenc s).1 h.1

/-- The effect of a command whose checks pass stores inside BUF (R105). -/
theorem wf_buf_effectOf {i : Instr} {s : State} (h : s.buf.wf = true) (hf : failureOf i s = none) :
    (effectOf i s).buf.wf = true := by
  have text (hg : GcmOperandsOk s) : (s.buf.store s.dstAddr.toNat (gcmText s).1).wf = true := by
    obtain ⟨-, -, -, -, -, hdst, -⟩ := hg
    exact Memory.wf_store h (by rw [gcmText_length]; exact hdst)
  cases i
  case ksponge =>
    have hok := (failureOf_ksponge s).1 hf
    have hlen := hok.result_length
    obtain ⟨-, -, -, -, hdst⟩ := hok
    exact Memory.wf_store h (by rw [hlen]; exact hdst)
  case gcmenc => exact text ((failureOf_gcmenc s).1 hf)
  case gcmdec => exact text (gcmOperandsOk_of_gcmdec hf)
  all_goals exact h

/-- AKEY loads the expansion of a key of legal length, and no other command touches the schedule. -/
theorem keyScheduleOk_effectOf {i : Instr} {s : State} (h : KeyScheduleOk s)
    (hf : failureOf i s = none) : KeyScheduleOk (effectOf i s) := by
  by_cases hi : i = .akey
  · subst hi
    have hlen := (keyLenLegal_iff s).1 (firstFailure_eq_none.1 hf _ (List.mem_cons_self ..))
    refine ⟨fun hk => absurd hk (by simp [effectOf, loadKey]), fun _ =>
      ⟨keyWords s, keyBytes s, ?_, ?_, rfl, rfl⟩⟩
    · unfold keyWords
      omega
    · rw [keyBytes, keyWords, List.length_take, Vector.length_toList]
      omega
  · obtain ⟨hr, hn, hk⟩ := effectOf_keySchedule hi s
    unfold KeyScheduleOk
    rw [hr, hn, hk]
    exact h

/-- While a command is latched AUTH_OK is as acceptance left it (R51). -/
theorem StateInv.authOk_of_latch {s : State} (h : StateInv s) {l : Latch} (hl : s.latch = some l) :
    s.authOk = false := by
  obtain ⟨-, -, -, ha⟩ := h.latch l hl
  exact ha

/-- The completion of a legal error: ERR goes with its code, and AUTH_OK is still as acceptance left
it (R325). -/
theorem StateInv.completeError {s : State} (h : StateInv s) (ha : s.authOk = false) {e : CmdError}
    (he : e.code ≠ .none ∧ e.param ∈ errParamsOf e.code) : StateInv (completeError e s) where
  memory := h.memory
  error := ⟨⟨fun _ => he.1, fun _ => rfl⟩, he.2⟩
  latch := latchOk_of_idle rfl
  auth := fun ht => absurd (ha.symm.trans ht) Bool.false_ne_true
  key := h.key

/-- The completion of a latched command whose checks pass: only GCMDEC sets AUTH_OK, and acceptance
has cleared ERR (R326, R51). -/
theorem StateInv.complete_effectOf {s : State} (h : StateInv s) {l : Latch} {i : Instr}
    (hl : s.latch = some l) (hd : decode l.word = .ok i) (hf : failureOf i s = none) :
    StateInv (complete (effectOf i s)) := by
  obtain ⟨hword, -, herr, hauth⟩ := h.latch l hl
  obtain ⟨-, -, -, fe, -, fc, fp, fl, -⟩ := effectOf_frame i s
  refine ⟨wf_buf_effectOf h.memory hf, ?_, latchOk_of_idle rfl, ?_,
    keyScheduleOk_effectOf h.key hf⟩
  · unfold ErrorOk
    rw [complete_err, complete_errCode, complete_errParam, fe, fc, fp]
    exact h.error
  · intro ht
    rw [complete_authOk] at ht
    rw [complete_err, complete_keyed, complete_lastCmd, fe, fl, ← hword]
    by_cases hi : i = .gcmdec
    · subst hi
      obtain ⟨hkeyed, -⟩ := gcmOperandsOk_of_gcmdec hf
      exact ⟨herr, hkeyed, hd⟩
    · rw [effectOf_authOk hi, hauth] at ht
      cases ht

/-! ### What a register write leaves alone, by its target -/

theorem writeTarget_ks (s : State) (v : Word) {t : Target} (h : ∀ w, t ≠ .kstate w) :
    (writeTarget s v t).ks = s.ks := by
  cases t
  case kstate w => exact absurd rfl (h w)
  case bytes r k => cases r <;> rfl
  all_goals rfl

theorem writeTarget_buf (s : State) (v : Word) {t : Target} (h : ∀ a, t ≠ .buf a) :
    (writeTarget s v t).buf = s.buf := by
  cases t
  case buf a => exact absurd rfl (h a)
  case bytes r k => cases r <;> rfl
  all_goals rfl

/-- A register write stores inside its window: an aligned BUF word lies in BUF (R103). -/
theorem wf_buf_writeTarget {s : State} {off : Nat} (v : Word) (h : s.buf.wf = true)
    (hw : off < Config.windowSize) (ha : off % 4 = 0) :
    (writeTarget s v (target off)).buf.wf = true := by
  by_cases hb : ∃ a, target off = .buf a
  · obtain ⟨a, ht⟩ := hb
    have hoff := eq_of_target_buf ht
    rw [ht]
    refine Memory.wf_store h ?_
    rw [wordBytes_length]
    unfold Config.windowSize at hw
    unfold Config.bufSize
    omega
  · rw [writeTarget_buf s v (not_exists.1 hb)]
    exact h

theorem StateInv.writeTarget {s : State} (h : StateInv s) (v : Word) {off : Nat}
    (hw : off < Config.windowSize) (ha : off % 4 = 0) : StateInv (writeTarget s v (target off)) := by
  obtain ⟨⟨hr, hn, hk⟩, -, ⟨hd, he, -, hau⟩, ⟨hc, hp, hl, hla⟩, -⟩ := writeTarget_frame s v (target off)
  refine ⟨wf_buf_writeTarget v h.memory hw ha, ?_, ?_, ?_, ?_⟩
  · unfold ErrorOk
    rw [he, hc, hp]
    exact h.error
  · unfold LatchOk
    rw [hla, hl, hd, he, hau]
    exact h.latch
  · unfold AuthOk
    rw [hau, he, hk, hl]
    exact h.auth
  · unfold KeyScheduleOk
    rw [hk, hn, hr]
    exact h.key

/-- A write of STATUS clears ERR with its code and its parameter, and sets nothing (R48). -/
theorem StateInv.writeStatus {s : State} (h : StateInv s) (v : Word) : StateInv (writeStatus v s) := by
  rw [writeStatus_eq]
  refine ⟨h.memory, ?_, fun l hl => ?_, fun ha => ?_, h.key⟩
  · cases hv : v.getLsbD 2
    · simpa [ErrorOk, hv] using h.error
    · simp [ErrorOk, errParamsOf]
  · obtain ⟨hw, hd, he, hau⟩ := h.latch l hl
    exact ⟨hw, by simp [hd], by simp [he], hau⟩
  · obtain ⟨he, hk, hd⟩ := h.auth ha
    exact ⟨by simp [he], hk, hd⟩

/-- Acceptance starts without an error and without AUTH_OK, with the word latched (R321). -/
theorem StateInv.accept {s : State} (h : StateInv s) (w : Word) : StateInv (accept w s) where
  memory := h.memory
  error := ⟨⟨fun he => (Bool.false_ne_true he).elim, fun hn => (hn rfl).elim⟩, List.mem_cons_self ..⟩
  latch := fun _ hl => by
    obtain rfl := Option.some.inj hl
    exact ⟨rfl, rfl, rfl, rfl⟩
  auth := fun ha => (Bool.false_ne_true ha).elim
  key := h.key

theorem StateInv.hostWrite {s : State} (h : StateInv s) (v : Word) {off : Nat}
    (hw : off < Config.windowSize) (ha : off % 4 = 0) : StateInv (hostWrite off v s) := by
  cases hostWrite_cases off v s with
  | strobe _ _ ht => rw [ht]; exact h.softReset
  | ctrl _ _ ht => rw [ht]; exact ⟨h.memory, h.error, h.latch, h.auth, h.key⟩
  | status _ ht => rw [ht]; exact h.writeStatus v
  | overrun _ _ _ ht => rw [ht]; exact ⟨h.memory, h.error, h.latch, h.auth, h.key⟩
  | accepted _ _ ht => rw [ht]; exact h.accept v
  | stored _ _ _ _ ht => rw [ht]; exact h.writeTarget v hw ha

/-- Settles O59: each kind of step keeps the invariant, by the lemma on its operation. -/
theorem stepKeepsInvariant : Obligations.StepKeepsInvariant := by
  intro s t h hstep
  cases step_cases hstep with
  | ran l i rest hl hd _ ht =>
    rw [ht]
    cases hf : failureOf i (took s rest) with
    | some e => exact (h.took rest).completeError (h.authOk_of_latch hl) (failureOf_legal hf)
    | none => exact (h.took rest).complete_effectOf hl hd hf
  | illegal l e rest hl _ _ ht =>
    rw [ht]
    exact (h.took rest).completeError (h.authOk_of_latch hl) (by decide)
  | idle rest _ _ ht => rw [ht]; exact h.took rest
  | answered e rest r d _ _ ht => rw [ht]; exact ((h.took rest).drew d).responded r
  | wrote off v rest _ hw ha ht => rw [ht]; exact ((h.took rest).hostWrite v hw ha).responded .written
  | poweredOn rest _ ht => rw [ht]; exact .powerOnReset _

/-! ### Which step changes what (`10_state.md` R49 to R71) -/

/-- The part of the state that neither the life cycle of a command nor the bus around it touches: the
state with the fields that they write blanked. -/
def persistent (s : State) : State :=
  { s with
    ie := false, compat := false, done := false, err := false, ovr := false, authOk := false
    errCode := .none, errParam := 0, lastCmd := 0, latch := none
    draws := 0, events := [], response := .none }

/-- What is read from the persistent part changes only by a command's effect, a register write while
idle, or a reset. -/
theorem step_changes_persistent {α : Type} (g : State → α) (hg : ∀ s, g (persistent s) = g s)
    {s t : State} (h : step s = .next t) (hc : g t ≠ g s) :
    (∃ i rest, Runs i s ∧ failureOf i (took s rest) = none ∧
      g (effectOf i (took s rest)) ≠ g (took s rest)) ∨
    (∃ off v rest, Writes off v s ∧ s.busy = false ∧ off % 4 = 0 ∧
      g (writeTarget (took s rest) v (target off)) ≠ g (took s rest)) ∨
    Resets s := by
  have hsame {u u' : State} (hu : persistent u = persistent u') : g u = g u' := by
    rw [← hg u, hu, hg]
  have htook (rest : List Event) : g (took s rest) = g s := hsame rfl
  rcases step_changes g (fun _ _ => hsame rfl) (fun _ _ => hsame rfl) (fun _ _ => hsame rfl)
    (fun _ => hsame rfl) (fun _ _ => hsame rfl) (fun _ _ _ => hsame rfl)
    (fun v u => by rw [writeStatus_eq]; exact hsame rfl) (fun _ => hsame rfl) (fun _ _ => hsame rfl) h hc
    with ⟨i, rest, hr, hf, hu⟩ | hr | ⟨off, v, rest, hev, hb, ha, -, hu⟩
  · exact .inl ⟨i, rest, hr, hf, by rwa [htook, ← hu]⟩
  · exact .inr (.inr hr)
  · exact .inr (.inl ⟨off, v, rest, ⟨rest, hev⟩, hb, ha, by rwa [htook, ← hu]⟩)

/-- The key schedule as one value. -/
def keySchedule (s : State) : Vector Byte 240 × BitVec 4 × Bool := (s.rk, s.nr, s.keyed)

theorem keySchedule_effectOf {i : Instr} (h : i ≠ .akey) (s : State) :
    keySchedule (effectOf i s) = keySchedule s := by
  obtain ⟨hr, hn, hk⟩ := effectOf_keySchedule h s
  rw [keySchedule, hr, hn, hk, keySchedule]

theorem keySchedule_writeTarget (s : State) (v : Word) (t : Target) :
    keySchedule (writeTarget s v t) = keySchedule s := by
  obtain ⟨⟨hr, hn, hk⟩, -⟩ := writeTarget_frame s v t
  rw [keySchedule, hr, hn, hk, keySchedule]

/-- Settles O52: no host write reaches the schedule, and AKEY's is the only effect that does. -/
theorem keyScheduleChangesOnlyByAkey : Obligations.KeyScheduleChangesOnlyByAkey := by
  intro s t h hc
  have hne : keySchedule t ≠ keySchedule s := by
    simpa only [keySchedule, ne_eq, Prod.mk.injEq, Classical.not_and_iff_not_or_not] using hc
  rcases step_changes_persistent keySchedule (fun _ => rfl) h hne with
    ⟨i, rest, hr, -, hu⟩ | ⟨off, v, rest, -, -, -, hu⟩ | hr
  · by_cases hi : i = .akey
    · exact .inl (hi ▸ hr)
    · exact absurd (keySchedule_effectOf hi _) hu
  · exact absurd (keySchedule_writeTarget _ v _) hu
  · exact .inr hr

/-- The commands that write a byte register of the map (R59 to R67, R71). -/
@[simp] def ByteReg.writers : ByteReg → List Instr
  | .key | .blkIn | .gcmTagx => []
  | .blkOut => [.aenc]
  | .gcmS => [.gmul, .ghash, .gcmenc, .gcmdec]
  | .gcmH | .gcmJ0 | .gcmCtr => [.gcmenc, .gcmdec]
  | .gcmTag => [.gcmenc]
  | .rk => [.akey]

theorem effectOf_gcmS {i : Instr} (h : i ∉ [.gmul, .ghash, .gcmenc, .gcmdec]) (s : State) :
    (effectOf i s).gcmS = s.gcmS := by
  cases i
  case gmul | ghash | gcmenc | gcmdec => simp at h
  all_goals rfl

theorem regByte_effectOf {i : Instr} {r : ByteReg} (h : i ∉ r.writers) (s : State) :
    regByte (effectOf i s) r = regByte s r := by
  cases r
  case key | blkIn => cases i <;> rfl
  case gcmTagx => exact congrArg byteAt (effectOf_gcmTagx i s)
  case blkOut => exact congrArg byteAt (effectOf_blkOut (by simpa using h) s)
  case gcmTag => exact congrArg byteAt (effectOf_gcmTag (by simpa using h) s)
  case rk =>
    obtain ⟨hrk, -⟩ := effectOf_keySchedule (by simpa using h) s
    exact congrArg byteAt hrk
  case gcmS => exact congrArg byteAt (effectOf_gcmS h s)
  case gcmH | gcmJ0 | gcmCtr =>
    obtain ⟨henc, hdec⟩ : i ≠ .gcmenc ∧ i ≠ .gcmdec := by simpa using h
    obtain ⟨hj, hc, hh⟩ := effectOf_gcm henc hdec s
    funext k
    simp only [regByte, hj, hc, hh]

/-- A register write reaches a byte register only at its own window, and only where it is writable. -/
theorem regByte_writeTarget {r : ByteReg} {t : Target} (h : r.writable = true → ∀ k, t ≠ .bytes r k)
    (s : State) (v : Word) : regByte (writeTarget s v t) r = regByte s r := by
  cases t
  case bytes r' k =>
    by_cases hr : r = r'
    · subst hr
      have hro : r.writable = false := Bool.eq_false_iff.2 fun hw => h hw k rfl
      rw [writeTarget_bytes_readOnly s v hro]
    · exact funext fun j => regByte_writeByteReg_other s hr k _ j
  all_goals cases r <;> rfl

/-- Who changes a byte register: its commands, the host in its window if it is writable, a reset. -/
theorem step_changes_byteReg {r : ByteReg} {s t : State} (h : step s = .next t)
    (hc : regByte t r ≠ regByte s r) : (∃ i ∈ r.writers, Runs i s) ∨
      (r.writable = true ∧ StoresIn r.base (r.base + r.size) s) ∨ Resets s := by
  have hg (s : State) : regByte (persistent s) r = regByte s r := by cases r <;> rfl
  rcases step_changes_persistent (regByte · r) hg h hc with
    ⟨i, rest, hr, -, hu⟩ | ⟨off, v, rest, hev, hb, -, hu⟩ | hr
  · exact .inl ⟨i, not_not.1 fun hi => hu (regByte_effectOf hi _), hr⟩
  · obtain ⟨hw, hk⟩ := Classical.not_imp.1 fun hn => hu (regByte_writeTarget hn _ _)
    obtain ⟨k, ht⟩ := not_forall_not.1 hk
    obtain ⟨ho, hlt⟩ := eq_of_target_bytes ht
    exact .inr (.inl ⟨hw, off, v, hev, by omega, by omega, hb⟩)
  · exact .inr (.inr hr)

theorem byteAt_injective {n : Nat} : Function.Injective (byteAt : Vector Byte n → Nat → Byte) :=
  fun _ _ h => byteAt_ext fun i _ => congrFun h i

/-- Settles O54: `step_changes_byteReg` at each register. -/
theorem blockRegisterWriters : Obligations.BlockRegisterWriters := by
  intro s t h
  have who (r : ByteReg) (hc : regByte t r ≠ regByte s r) := step_changes_byteReg h hc
  refine ⟨fun hc => ?_, fun hc => ?_, fun hc => ?_, fun hc => ?_, fun hc => ?_, fun hc => ?_, fun hc => ?_,
    fun hc => ?_⟩
  · simpa [or_assoc] using who .key (byteAt_injective.ne hc)
  · simpa [or_assoc] using who .blkIn (byteAt_injective.ne hc)
  · simpa [or_assoc] using who .gcmH (byteAt_injective.ne hc)
  · simpa [or_assoc] using who .gcmS (byteAt_injective.ne hc)
  · simpa [or_assoc] using who .blkOut (byteAt_injective.ne hc)
  · rcases hc with hc | hc
    · simpa [or_assoc] using who .gcmJ0 (byteAt_injective.ne hc)
    · simpa [or_assoc] using who .gcmCtr (byteAt_injective.ne hc)
  · simpa [or_assoc] using who .gcmTag (byteAt_injective.ne hc)
  · simpa [or_assoc] using who .gcmTagx (byteAt_injective.ne hc)

/-! ### Who changes the lane file and BUF (`10_state.md` R69; `20_memory.md` R103) -/

theorem mem_range_of_memWrite_ne {s : State} {a b : Nat} {bs : Bytes}
    (h : bufByte (memWrite s a bs) b ≠ bufByte s b) : a ≤ b ∧ b < a + bs.length := by
  by_contra hn
  exact h (by rw [bufByte_memWrite, if_neg hn])

/-- A command whose checks pass changes no byte of BUF outside its output range (R103, R186). -/
theorem outputRange_of_effectOf_ne {i : Instr} {s : State} {a : Nat} (hf : failureOf i s = none)
    (h : bufByte (effectOf i s) a ≠ bufByte s a) :
    (i = .ksponge ∧ s.dstAddr.toNat ≤ a ∧ a < s.dstAddr.toNat + s.outLen.toNat) ∨
    ((i = .gcmenc ∨ i = .gcmdec) ∧ s.dstAddr.toNat ≤ a ∧ a < s.dstAddr.toNat + s.srcLen.toNat) := by
  have text (h : bufByte (memWrite s s.dstAddr.toNat (gcmText s).1) a ≠ bufByte s a) :
      s.dstAddr.toNat ≤ a ∧ a < s.dstAddr.toNat + s.srcLen.toNat := by
    have := mem_range_of_memWrite_ne h
    rwa [gcmText_length] at this
  cases i
  case ksponge =>
    have := mem_range_of_memWrite_ne (s := s) (bs := (spongeResult s).1) h
    rw [((failureOf_ksponge s).1 hf).result_length] at this
    exact .inl ⟨rfl, this⟩
  case gcmenc => exact .inr ⟨.inl rfl, text h⟩
  case gcmdec => exact .inr ⟨.inr rfl, text h⟩
  all_goals exact absurd rfl h

/-- A host write changes a byte of BUF only by a write of its word (R103). -/
theorem offset_of_bufByte_writeTarget_ne {s : State} {v : Word} {off a : Nat} (ha : off % 4 = 0)
    (h : bufByte (writeTarget s v (target off)) a ≠ bufByte s a) : off = 0x10000 + a / 4 * 4 := by
  by_cases hb : ∃ b, target off = .buf b
  · obtain ⟨b, ht⟩ := hb
    have hoff := eq_of_target_buf ht
    rw [ht] at h
    have := mem_range_of_memWrite_ne h
    rw [wordBytes_length] at this
    omega
  · obtain ⟨-, -, -, -, hdraw, -⟩ := writeTarget_frame s v (target off)
    exact absurd (by rw [bufByte, bufByte, writeTarget_buf s v (not_exists.1 hb), hdraw]) h

/-- Settles O55: the lane file as a register with its window, BUF byte by byte. -/
theorem laneFileAndBufferWriters : Obligations.LaneFileAndBufferWriters := by
  intro s t h
  constructor
  · intro hc
    rcases step_changes_persistent State.ks (fun _ => rfl) h hc with
      ⟨i, rest, hr, -, hu⟩ | ⟨off, v, rest, hev, hb, -, hu⟩ | hr
    · by_cases hi : i ∈ [Instr.kzero, .kperm, .ksponge]
      · simp only [List.mem_cons, List.not_mem_nil, or_false] at hi
        rcases hi with rfl | rfl | rfl
        · exact .inl hr
        · exact .inr (.inl hr)
        · exact .inr (.inr (.inr (.inl hr)))
      · obtain ⟨ir, rfl⟩ := not_forall_not.1 fun hn => hu (effectOf_ks hi hn _)
        exact .inr (.inr (.inl ⟨ir, hr⟩))
    · obtain ⟨w, ht⟩ := not_forall_not.1 fun hn => hu (writeTarget_ks _ v hn)
      obtain ⟨hl, hh, -⟩ := eq_of_target_kstate ht
      exact .inr (.inr (.inr (.inr (.inl ⟨off, v, hev, hl, hh, hb⟩))))
    · exact .inr (.inr (.inr (.inr (.inr hr))))
  · intro a hc
    rcases step_changes_persistent (bufByte · a) (fun _ => rfl) h hc with
      ⟨i, rest, hr, hf, hu⟩ | ⟨off, v, rest, hev, hb, ha, hu⟩ | hr
    · rcases outputRange_of_effectOf_ne hf hu with ⟨rfl, hin⟩ | ⟨rfl | rfl, hin⟩
      · exact .inl ⟨hr, hin⟩
      · exact .inr (.inl ⟨.inl hr, hin⟩)
      · exact .inr (.inl ⟨.inr hr, hin⟩)
    · have hoff := offset_of_bufByte_writeTarget_ne ha hu
      exact .inr (.inr (.inl ⟨off, v, hev, by omega, by omega, hb⟩))
    · exact .inr (.inr (.inr hr))

/-! ### AUTH_OK and OVR (`10_state.md` R49, R51) -/

/-- What a host write makes of AUTH_OK: kept, or cleared by an acceptance or a soft reset. -/
theorem hostWrite_authOk (off : Nat) (v : Word) (s : State) :
    (hostWrite off v s).authOk = s.authOk ∨
    ((hostWrite off v s).authOk = false ∧
      ((off = 0x008 ∧ s.busy = false) ∨ (off = 0x004 ∧ v.getLsbD 31 = true))) := by
  cases hostWrite_cases off v s with
  | strobe ho hv ht => exact .inr ⟨by rw [ht]; rfl, .inr ⟨ho, hv⟩⟩
  | ctrl _ _ ht => exact .inl (by rw [ht])
  | status _ ht => exact .inl (by rw [ht, writeStatus_eq])
  | overrun _ _ _ ht => exact .inl (by rw [ht])
  | accepted ho hb ht => exact .inr ⟨by rw [ht]; rfl, .inl ⟨ho, hb⟩⟩
  | stored _ _ _ _ ht =>
    obtain ⟨-, -, ⟨-, -, -, ha⟩, -⟩ := writeTarget_frame s v (target off)
    exact .inl (by rw [ht, ha])

/-- What a step makes of AUTH_OK (R51). -/
theorem step_authOk {s t : State} (h : step s = .next t) :
    t.authOk = s.authOk ∨ (t.authOk = true ∧ Runs .gcmdec s ∧ t.err = s.err) ∨
    (t.authOk = false ∧ ((∃ v, Writes 0x008 v s ∧ s.busy = false) ∨ Resets s)) := by
  cases step_cases h with
  | ran l i rest hl hd he ht =>
    rw [ht]
    cases hf : failureOf i (took s rest) with
    | some e => exact .inl rfl
    | none =>
      by_cases hi : i = .gcmdec
      · subst hi
        obtain ⟨-, -, -, herr, -⟩ := effectOf_frame .gcmdec (took s rest)
        exact .inr (.inl ⟨rfl, ⟨he.next, l, hl, hd⟩, herr⟩)
      · exact .inl (effectOf_authOk hi _)
  | illegal l e rest _ _ _ ht => exact .inl (by rw [ht]; rfl)
  | idle rest _ _ ht => exact .inl (by rw [ht]; rfl)
  | answered e rest r d _ _ ht => exact .inl (by rw [ht]; rfl)
  | wrote off v rest hev _ _ ht =>
    rw [ht]
    rcases hostWrite_authOk off v (took s rest) with ha | ⟨ha, ⟨rfl, hb⟩ | ⟨rfl, hv⟩⟩
    · exact .inl ha
    · exact .inr (.inr ⟨ha, .inl ⟨v, ⟨rest, hev⟩, hb⟩⟩)
    · exact .inr (.inr ⟨ha, .inr (.inl ⟨v, ⟨rest, hev⟩, hv⟩)⟩)
  | poweredOn rest hev ht => exact .inr (.inr ⟨by rw [ht]; rfl, .inr (.inr ⟨rest, hev⟩)⟩)

theorem hostWrite_strobe {v : Word} (h : v.getLsbD 31 = true) (s : State) :
    hostWrite 0x004 v s = softReset s := if_pos h

theorem step_clears_authOk {s t : State} (h : step s = .next t)
    (hc : (∃ v, Writes 0x008 v s ∧ s.busy = false) ∨ Resets s) : t.authOk = false := by
  rcases hc with ⟨v, ⟨rest, hev⟩, hb⟩ | ⟨v, ⟨rest, hev⟩, hv⟩ | ⟨rest, hev⟩
  · rw [step_of_write (by decide) (by decide) hev, hostWrite_cmd (s := took s rest) hb] at h
    rw [← Host.Outcome.next.inj h]
    rfl
  · rw [step_of_write (by decide) (by decide) hev, hostWrite_strobe hv] at h
    rw [← Host.Outcome.next.inj h]
    rfl
  · rw [step_of_cons hev] at h
    rw [← Host.Outcome.next.inj h]
    rfl

/-- Settles O53: `step_authOk` names every change, and acceptance and reset do clear it. -/
theorem authOkOnlyByGcmdec : Obligations.AuthOkOnlyByGcmdec := by
  refine ⟨fun s t h => ⟨fun hs ht => ?_, fun hs => ⟨fun ht => ?_, step_clears_authOk h⟩⟩, rfl⟩
  · rcases step_authOk h with ha | ⟨-, hr, he⟩ | ⟨ha, -⟩
    · exact absurd (hs.symm.trans (ha.symm.trans ht)) Bool.false_ne_true
    · exact ⟨hr, fun hn => he.trans hn⟩
    · exact absurd (ha.symm.trans ht) Bool.false_ne_true
  · rcases step_authOk h with ha | ⟨ha, -⟩ | ⟨-, hc⟩
    · exact absurd (ht.symm.trans (ha.trans hs)) Bool.false_ne_true
    · exact absurd (ht.symm.trans ha) Bool.false_ne_true
    · exact hc

/-- A host write clears OVR only as W1C of STATUS bit 3 or as the strobe (R49). -/
theorem hostWrite_clears_ovr {off : Nat} {v : Word} {s : State} (hs : s.ovr = true)
    (ht : (hostWrite off v s).ovr = false) :
    (off = 0x00C ∧ v.getLsbD 3 = true) ∨ (off = 0x004 ∧ v.getLsbD 31 = true) := by
  cases hostWrite_cases off v s with
  | strobe ho hv _ => exact .inr ⟨ho, hv⟩
  | ctrl _ _ hu => rw [hu, hs] at ht; cases ht
  | status ho hu =>
    rw [hu, writeStatus_eq] at ht
    exact .inl ⟨ho, by simpa [hs] using ht⟩
  | overrun _ _ _ hu => rw [hu] at ht; cases ht
  | accepted _ _ hu => rw [hu, accept_ovr, hs] at ht; cases ht
  | stored _ _ _ _ hu =>
    obtain ⟨-, -, ⟨-, -, ho, -⟩, -⟩ := writeTarget_frame s v (target off)
    rw [hu, ho, hs] at ht
    cases ht

theorem settled_ovr (i : Instr) (s : State) : (settled (failureOf i s) (effectOf i s) s).ovr = s.ovr := by
  obtain ⟨-, -, -, -, ho, -⟩ := effectOf_frame i s
  cases failureOf i s with
  | some e => rfl
  | none => exact ho

/-- Settles O46: no step but a host write or a power-on reset touches OVR. -/
theorem overrunIsSetAndSticky : Obligations.OverrunIsSetAndSticky := by
  refine ⟨fun s off v hb h4 hc => hostWrite_busy hb h4 hc, fun s t h hs ht => ?_, rfl⟩
  have kept {P : Prop} (hk : t.ovr = s.ovr) : P := by
    rw [ht, hs] at hk
    cases hk
  cases step_cases h with
  | ran l i rest _ _ _ hu => exact kept (by rw [hu, settled_ovr]; rfl)
  | illegal l e rest _ _ _ hu => exact kept (by rw [hu]; rfl)
  | idle rest _ _ hu => exact kept (by rw [hu]; rfl)
  | answered e rest r d _ _ hu => exact kept (by rw [hu]; rfl)
  | wrote off v rest hev _ _ hu =>
    rw [hu] at ht
    rcases hostWrite_clears_ovr (s := took s rest) hs ht with ⟨rfl, hv⟩ | ⟨rfl, hv⟩
    · exact .inl ⟨v, ⟨rest, hev⟩, hv⟩
    · exact .inr (.inl ⟨v, ⟨rest, hev⟩, hv⟩)
  | poweredOn rest hev _ => exact .inr (.inr ⟨rest, hev⟩)

/-! ### Soft reset and BUF (`70_reset_and_hazards.md` R382, R383) -/

theorem outputRange_eq_some {w : Word} {s : State} {r : BufRange} (h : outputRange w s = some r) :
    (decode w = .ok .ksponge ∧ r = spongeOutRange s) ∨
    ((decode w = .ok .gcmenc ∨ decode w = .ok .gcmdec) ∧ r = textOutRange s) := by
  unfold outputRange at h
  split at h
  case h_1 hd => exact .inl ⟨hd, (Option.some.inj h).symm⟩
  case h_2 hd => exact .inr ⟨.inl hd, (Option.some.inj h).symm⟩
  case h_3 hd => exact .inr ⟨.inr hd, (Option.some.inj h).symm⟩
  all_goals cases h

/-- Outside the output range of the command it aborts, a soft reset leaves BUF as it is. -/
theorem lookup_bufAfterReset {s : State} {a : Nat}
    (h : ∀ l r, s.latch = some l → outputRange l.word s = some r → ¬ (r.addr ≤ a ∧ a < r.addr + r.len)) :
    (bufAfterReset s).lookup a = s.buf.lookup a := by
  unfold bufAfterReset
  split
  · rfl
  · next l hl =>
    split
    · rfl
    · next r hr =>
      have := h l r hl hr
      rw [Memory.lookup_scramble, if_neg (by omega)]

/-- Settles O57: the strobe is `softReset`, which aborts no more than the latched command's output. -/
theorem softResetKeepsBuf : Obligations.SoftResetKeepsBuf := by
  intro s v hv
  rw [hostWrite_strobe hv]
  refine ⟨rfl, fun hl => ?_, fun l a hl hsponge htext => ?_⟩
  · show bufAfterReset s = s.buf
    rw [bufAfterReset, hl]
  · have hkeep : (bufAfterReset s).lookup a = s.buf.lookup a := by
      refine lookup_bufAfterReset fun l' r hl' hr => ?_
      obtain rfl : l = l' := Option.some.inj (hl.symm.trans hl')
      rcases outputRange_eq_some hr with ⟨hd, rfl⟩ | ⟨hd, rfl⟩
      · exact hsponge hd
      · exact htext hd
    show ((bufAfterReset s).lookup a).getD _ = _
    rw [hkeep]
    rfl

/-! ### The stored key schedule (`42_aes.md` R246, R247; `10_state.md` R70) -/

theorem foldl_scheduleStep_length (nk : Nat) (l : List Nat) (w : List AesWord) :
    (l.foldl (scheduleStep nk) w).length = w.length + l.length := by
  induction l generalizing w with
  | nil => rfl
  | cons i l ih =>
    rw [List.foldl_cons, ih, scheduleStep, List.length_append, List.length_singleton, List.length_cons]
    omega

/-- The expansion only adds words after those it has. -/
theorem foldl_scheduleStep_append (nk : Nat) (l : List Nat) (w : List AesWord) :
    ∃ rest, l.foldl (scheduleStep nk) w = w ++ rest := by
  induction l generalizing w with
  | nil => exact ⟨[], (List.append_nil w).symm⟩
  | cons i l ih =>
    obtain ⟨rest, hrest⟩ := ih (scheduleStep nk w i)
    exact ⟨_, by rw [List.foldl_cons, hrest, scheduleStep, List.append_assoc]⟩

theorem keyExpansion_length (nk : Nat) (k : Bytes) : (keyExpansion nk k).length = 4 * (nk + 7) := by
  rw [keyExpansion, foldl_scheduleStep_length, List.length_map, List.length_range, List.length_range']
  omega

/-- The first words of the expansion are the key (R246). -/
theorem keyExpansion_getD_of_lt {nk : Nat} (k : Bytes) {i : Nat} (h : i < nk) :
    (keyExpansion nk k).getD i zeroWord = keyWord k i := by
  obtain ⟨rest, hrest⟩ := foldl_scheduleStep_append nk (List.range' nk (4 * (nk + 7) - nk))
    ((List.range nk).map (keyWord k))
  rw [keyExpansion, hrest, List.getD_append _ _ _ _ (by simpa using h)]
  simp [List.getD_eq_getElem?_getD, h]

theorem aesWordBytes_keyWord (k : Bytes) (i : Nat) {b : Nat} (hb : b < 4) :
    (aesWordBytes (keyWord k i)).getD b 0 = k.getD (4 * i + b) 0 := by
  interval_cases b <;> rfl

/-- RK after a key of `nk` words is loaded, word by word (R247). -/
theorem byteAt_rk_loadKey {s : State} {j b : Nat} (hj : j < 4 * (keyWords s + 7)) (hb : b < 4)
    (hk : keyWords s ≤ 8) : byteAt (loadKey s).rk (4 * j + b) =
      (aesWordBytes ((keyExpansion (keyWords s) (keyBytes s)).getD j zeroWord)).getD b 0 := by
  rw [loadKey, byteAt_ofBytes, if_pos (by omega), scheduleBytes_getD _ (by rwa [keyExpansion_length]) hb]

/-- The key stands at the start of RK. -/
theorem byteAt_rk_loadKey_key {s : State} {k : Nat} (hk : k < 4 * keyWords s)
    (hn : 4 * keyWords s ≤ s.keyLen.toNat) (h8 : keyWords s ≤ 8) :
    byteAt (loadKey s).rk k = byteAt s.key k := by
  have e : 4 * (k / 4) + k % 4 = k := Nat.div_add_mod k 4
  have hb := Nat.mod_lt k (show 0 < 4 by decide)
  have hword := byteAt_rk_loadKey (s := s) (j := k / 4) (by omega) hb h8
  rw [keyExpansion_getD_of_lt _ (by omega), aesWordBytes_keyWord _ _ hb, e] at hword
  rw [hword, byteAt_eq_toList_getD, keyBytes, List.getD_eq_getElem?_getD, List.getD_eq_getElem?_getD,
    List.getElem?_take, if_pos (by omega)]

/-- Zeros fill RK after the expanded key (R70). -/
theorem byteAt_rk_loadKey_tail {s : State} {k : Nat} (hk : 16 * (keyWords s + 7) ≤ k) :
    byteAt (loadKey s).rk k = 0 := by
  rw [loadKey, byteAt_ofBytes,
    List.getD_eq_default _ _ (by rw [scheduleBytes_length, keyExpansion_length]; omega)]
  split <;> rfl

theorem exec_akey_of_legal {s : State}
    (h : s.keyLen.toNat = 16 ∨ s.keyLen.toNat = 24 ∨ s.keyLen.toNat = 32) :
    exec .akey s = .next (complete (loadKey s)) := by
  refine exec_of_no_failure (firstFailure_eq_none.2 fun c hc => ?_)
  rw [List.mem_singleton.1 hc]
  exact (keyLenLegal_iff s).2 h

/-- Settles O28: RK after AKEY by its words, its start and its tail. -/
theorem akeyKeyPrefixAndZeroTail : Obligations.AkeyKeyPrefixAndZeroTail := by
  intro s t hlen ht
  obtain rfl : complete (loadKey s) = t := Host.Outcome.next.inj ((exec_akey_of_legal hlen).symm.trans ht)
  have hwords : 4 * keyWords s = s.keyLen.toNat ∧ keyWords s ≤ 8 := by
    unfold keyWords
    omega
  obtain ⟨hn, h8⟩ := hwords
  have hnr : (complete (loadKey s)).nr.toNat = keyWords s + 6 := by
    show (BitVec.ofNat 4 (keyWords s + 6)).toNat = _
    rw [BitVec.toNat_ofNat]
    omega
  rw [hnr]
  refine ⟨rfl, fun k hk => byteAt_rk_loadKey_key (by omega) hn.le h8,
    fun k hk _ => byteAt_rk_loadKey_tail hk, fun j hj => ?_⟩
  have word {b : Nat} (hb : b < 4) := byteAt_rk_loadKey (s := s) (j := j) hj hb h8
  exact ⟨word (b := 0) (by decide), word (b := 1) (by decide), word (b := 2) (by decide),
    word (b := 3) (by decide)⟩

/-! ### The checks of GCMDEC (`43_gcm.md` R300, R301) -/

theorem latchedCompat_of_latch {s : State} {l : Latch} (h : s.latch = some l) :
    latchedCompat s = l.compat := by
  rw [latchedCompat, h]
  rfl

/-- Settles O39: GCMDEC fails with GCMENC's failure, and else its own first check is that of TAG_LEN. -/
theorem gcmdecChecksInOrder : Obligations.GcmdecChecksInOrder := by
  refine ⟨fun s l h => latchedCompat_of_latch h, fun s => ⟨fun hn => ?_, fun hok hc htag => ?_⟩⟩
  · cases hf : failureOf .gcmenc s with
    | none => exact absurd ((failureOf_gcmenc s).1 hf) hn
    | some e =>
      rw [exec_of_failure hf, exec_of_failure (e := e) (by rw [failureOf_gcmdec, hf]; rfl)]
  · have hbad : tagLenLegal s = false := Bool.eq_false_iff.2 fun h => htag ((tagLenLegal_iff s).1 h)
    have hf : failureOf .gcmdec s = some ⟨.badTagLen, offGcmCfg⟩ := by
      rw [failureOf_gcmdec, (failureOf_gcmenc s).2 hok, tagLenCheck, hc, hbad]
      rfl
    rw [exec_of_failure hf]
    rfl

end Sys2Proof.Machine

/-!
PROOFS. Which bus accesses the block performs (O44); that a host whose accesses reach the block is never
refused, and that its events run out with the block idle (O10).
-/

namespace Sys2Proof.Machine

/-! ### The accesses of the bus (`20_memory.md` R101) -/

/-- Settles O44: `busAccess` performs an aligned access, answers an illegal one with the error signal and
refuses one outside the window. -/
theorem busErrorChangesNothing : Obligations.BusErrorChangesNothing := by
  refine ⟨fun s off v rest hw ha => ⟨step_of_read hw ha, step_of_write hw ha⟩, fun s off width v rest =>
    ⟨fun hw hbad => ⟨fun hev => ?_, fun hev => ?_⟩, fun hout => ⟨fun hev => ?_, fun hev => ?_⟩⟩⟩
  · rw [step_of_cons hev, perform, busRead, busAccess_illegal _ _ hw hbad]; rfl
  · rw [step_of_cons hev, perform, busWrite, busAccess_illegal _ _ hw hbad]; rfl
  · rw [step_of_cons hev, perform, busRead, busAccess_outside _ _ _ hout]
  · rw [step_of_cons hev, perform, busWrite, busAccess_outside _ _ _ hout]

/-! ### Progress (`20_memory.md` R101; `44_control.md` R324, R401) -/

/-- An access in the window is never refused, whatever its width and alignment (R101). -/
theorem busAccess_of_inWindow {off : Nat} (width : Nat) (f : State → State) (s : State)
    (h : off < Config.windowSize) : ∃ t, busAccess off width f s = .next t := by
  by_cases ha : width = 4 ∧ off % 4 = 0
  · obtain ⟨rfl, ha⟩ := ha
    exact ⟨_, busAccess_legal f s h ha⟩
  · exact ⟨_, busAccess_illegal f s h (by omega)⟩

@[simp] theorem settled_busy (e : Option CmdError) (u s : State) : (settled e u s).busy = false := by
  cases e <;> rfl

/-- The engine always has a next state, and in it the block is idle (R322, R324). -/
theorem engineStep_next_idle (s : State) : ∃ t, engineStep s = .next t ∧ t.busy = false := by
  cases hl : s.latch with
  | none =>
    refine ⟨s, ?_, (busy_eq_false_iff s).2 hl⟩
    rw [engineStep, hl]
  | some l =>
    refine ⟨_, (engineStep_of_latch hl).trans (runWord_eq l.word s), ?_⟩
    cases decode l.word <;> simp

theorem perform_of_inWindow {e : Event} (h : e.inWindow = true) (s : State) :
    ∃ t, perform e s = .next t := by
  cases e with
  | read off width =>
    rw [perform, busRead]
    exact busAccess_of_inWindow width _ s (of_decide_eq_true h)
  | write off width v =>
    rw [perform, busWrite]
    exact busAccess_of_inWindow width _ s (of_decide_eq_true h)
  | engine =>
    obtain ⟨t, ht, -⟩ := engineStep_next_idle s
    exact ⟨t, ht⟩
  | powerOn => exact ⟨_, rfl⟩

theorem step_of_safeHost {s : State} (h : SafeHost s) : ∃ t, step s = .next t := by
  cases hev : s.events with
  | nil =>
    obtain ⟨t, ht, -⟩ := engineStep_next_idle s
    exact ⟨t, (step_of_nil hev).trans ht⟩
  | cons e rest =>
    have he : e.inWindow = true := h e (by simp [hev])
    obtain ⟨t, ht⟩ := perform_of_inWindow he (took s rest)
    exact ⟨t, (step_of_cons hev).trans ht⟩

theorem hostWrite_events (off : Nat) (v : Word) (s : State) : (hostWrite off v s).events = s.events := by
  cases hostWrite_cases off v s with
  | strobe _ _ ht => rw [ht]; rfl
  | ctrl _ _ ht => rw [ht]
  | status _ ht => rw [ht, writeStatus_eq]
  | overrun _ _ _ ht => rw [ht]
  | accepted _ _ ht => rw [ht]; rfl
  | stored _ _ _ _ ht =>
    obtain ⟨-, -, -, -, -, -, he, -⟩ := writeTarget_frame s v (target off)
    exact (congrArg State.events ht).trans he

theorem settled_effectOf_events (e : Option CmdError) (i : Instr) (s : State) :
    (settled e (effectOf i s) s).events = s.events := by
  obtain ⟨-, -, -, -, -, -, -, -, -, -, -, he, -⟩ := effectOf_frame i s
  cases e with
  | some e => rfl
  | none => exact he

theorem EngineTakes.tail_eq {s : State} {rest : List Event} (h : EngineTakes s rest) :
    s.events.tail = rest := by
  rcases h with ⟨h, rfl⟩ | h
  · rw [h]; rfl
  · rw [h]; rfl

/-- Every step takes exactly the next event: no step, a reset included, changes the others (R320). -/
theorem step_events {s t : State} (h : step s = .next t) : t.events = s.events.tail := by
  cases step_cases h with
  | ran l i rest _ _ he ht => rw [ht, settled_effectOf_events, he.tail_eq]; rfl
  | illegal l e rest _ _ he ht => rw [ht, he.tail_eq]; rfl
  | idle rest _ he ht => rw [ht, he.tail_eq]; rfl
  | answered e rest r d hev _ ht => rw [ht, hev]; rfl
  | wrote off v rest hev _ _ ht =>
    rw [ht, hev]
    exact hostWrite_events off v (took s rest)
  | poweredOn rest hev ht => rw [ht, hev]; rfl

theorem SafeHost.after_step {s t : State} (h : SafeHost s) (hstep : step s = .next t) : SafeHost t := by
  intro e he
  rw [step_events hstep] at he
  exact h e (List.mem_of_mem_tail he)

theorem core_run_succ {M : Host.Core} {s t : M.State} (h : M.step s = .next t) (k : Nat) :
    M.run (k + 1) s = M.run k t := by
  rw [Host.Core.run, h]

/-- Once its events have run out, the engine's step leaves the block idle, whatever the events did (R401). -/
theorem run_events_then_idle {s : State} (h : SafeHost s) :
    ∃ t, Sys2Proof.core.run (s.events.length + 1) s = .next t ∧ t.busy = false := by
  induction hev : s.events generalizing s with
  | nil =>
    obtain ⟨t, ht, hb⟩ := engineStep_next_idle s
    exact ⟨t, core_run_succ (M := Sys2Proof.core) ((step_of_nil hev).trans ht) 0, hb⟩
  | cons e rest ih =>
    obtain ⟨u, hu⟩ := step_of_safeHost h
    have hrest : u.events = rest := by rw [step_events hu, hev, List.tail_cons]
    obtain ⟨t, ht, hb⟩ := ih (h.after_step hu) hrest
    exact ⟨t, (core_run_succ (M := Sys2Proof.core) hu _).trans ht, hb⟩

/-- Settles O10: a safe host stays safe, and running its events and then the engine ends idle. -/
theorem busyBlockBecomesIdle : Obligations.BusyBlockBecomesIdle := by
  intro s hs
  obtain ⟨u, hu⟩ := step_of_safeHost hs
  obtain ⟨t, ht, hb⟩ := run_events_then_idle hs
  exact ⟨⟨u, hu, hs.after_step hu⟩, fun _ => ⟨s.events.length + 1, t, le_rfl, ht, hb⟩⟩

end Sys2Proof.Machine

/-!
PROOFS. Decoding and encoding of command words: each is the inverse of the other (O1, O2), which words are
illegal and what running one does (O3), the sample words (O4).
-/

namespace Sys2Proof.Machine

/-! ### The fields of a command word by its number (`30_encoding.md` R130) -/

theorem opField_eq_mod (w : Word) : opField w = w.toNat % 2 ^ 8 := by
  rw [opField, BitVec.extractLsb'_toNat, Nat.shiftRight_zero]

theorem argField_eq_div_mod (w : Word) : argField w = w.toNat / 2 ^ 8 % 2 ^ 8 := by
  rw [argField, BitVec.extractLsb'_toNat, Nat.shiftRight_eq_div_pow]

theorem rsvField_eq_div (w : Word) : rsvField w = w.toNat / 2 ^ 16 := by
  rw [rsvField, BitVec.extractLsb'_toNat, Nat.shiftRight_eq_div_pow]
  exact Nat.mod_eq_of_lt (by omega)

/-- The three fields are the whole word. -/
theorem toNat_eq_fields (w : Word) :
    w.toNat = opField w + argField w * 0x100 + rsvField w * 0x10000 := by
  rw [opField_eq_mod, argField_eq_div_mod, rsvField_eq_div]
  omega

theorem argField_lt (w : Word) : argField w < 256 := (w.extractLsb' 8 8).isLt

/-! ### The opcode map (`30_encoding.md` R131, R133) -/

theorem wellFormed_iff_argOf_lt (i : Instr) : i.wellFormed = true ↔ argOf i < 256 := by
  cases i
  case kround ir => exact decide_eq_true_iff
  all_goals exact iff_of_true rfl (by decide)

/-- Only KROUND has an operand (R131). -/
theorem argOf_eq_zero {i : Instr} (h : opcode i ≠ 0x03) : argOf i = 0 := by
  cases i
  case kround ir => exact absurd rfl h
  all_goals rfl

theorem instrOf_opcode_argOf (i : Instr) : instrOf (opcode i) (argOf i) = some i := by
  cases i <;> rfl

/-- The opcode map names a command by its opcode, and takes ARG only for KROUND. -/
theorem of_instrOf_eq_some {op arg : Nat} {i : Instr} (h : instrOf op arg = some i) :
    op = opcode i ∧ argOf i = if op = 0x03 then arg else 0 := by
  unfold instrOf at h
  iterate 11
    split at h
    · subst op
      obtain rfl := Option.some.inj h
      exact ⟨rfl, rfl⟩
  cases h

/-- Every branch of the map but the last names a command, so only the other opcodes are unallocated. -/
theorem instrOf_eq_none_iff (op arg : Nat) : instrOf op arg = none ↔
    op ∉ [0x00, 0x01, 0x02, 0x03, 0x04, 0x10, 0x11, 0x20, 0x21, 0x30, 0x31] := by
  simp [instrOf, ite_eq_iff]

/-! ### Decoding (`30_encoding.md` R134, R135) -/

/-- A word decodes to `i` exactly when its fields are those of `i`. -/
theorem decode_eq_ok_iff {w : Word} {i : Instr} :
    decode w = .ok i ↔ rsvField w = 0 ∧ opField w = opcode i ∧ argField w = argOf i := by
  constructor
  · intro h
    unfold decode at h
    split at h
    · cases h
    · next hr =>
      split at h
      · cases h
      · next j hj =>
        split at h
        · cases h
        · next harg =>
          obtain rfl := Except.ok.inj h
          obtain ⟨hop, ha⟩ := of_instrOf_eq_some hj
          refine ⟨not_not.1 hr, hop, ?_⟩
          split at ha
          · exact ha.symm
          · next h3 => rw [ha]; exact not_not.1 fun h0 => harg ⟨h3, h0⟩
  · rintro ⟨hr, hop, ha⟩
    have harg : ¬(opcode i ≠ 0x03 ∧ argOf i ≠ 0) := fun h => h.2 (argOf_eq_zero h.1)
    simp only [decode, hr, hop, ha, instrOf_opcode_argOf, if_neg harg, ne_eq, not_true_eq_false, if_false]

/-- A word is illegal exactly when one of its fields is (R135). -/
theorem decode_eq_error_iff (w : Word) : (∃ e, decode w = .error e) ↔
    rsvField w ≠ 0 ∨ instrOf (opField w) (argField w) = none ∨ (opField w ≠ 0x03 ∧ argField w ≠ 0) := by
  unfold decode
  split
  · next hr => exact iff_of_true ⟨_, rfl⟩ (.inl hr)
  · next hr =>
    split
    · next hn => exact iff_of_true ⟨_, rfl⟩ (.inr (.inl hn))
    · next i hi =>
      split
      · next harg => exact iff_of_true ⟨_, rfl⟩ (.inr (.inr harg))
      · next harg => simp [hr, hi, harg]

/-! ### The two round trips (`30_encoding.md` R130, R133) -/

theorem encode_fields (i : Instr) : Laws.EncodeFields.Statement i := by
  cases i with
  | nop => exact Laws.EncodeFields.nop
  | kzero => exact Laws.EncodeFields.kzero
  | kperm => exact Laws.EncodeFields.kperm
  | kround ir => exact Laws.EncodeFields.kround ir
  | ksponge => exact Laws.EncodeFields.ksponge
  | akey => exact Laws.EncodeFields.akey
  | aenc => exact Laws.EncodeFields.aenc
  | gmul => exact Laws.EncodeFields.gmul
  | ghash => exact Laws.EncodeFields.ghash
  | gcmenc => exact Laws.EncodeFields.gcmenc
  | gcmdec => exact Laws.EncodeFields.gcmdec

/-- Settles O1: the fields of the encoding are those of the command, and they decide what it decodes to. -/
theorem decodeOfEncodeIsTheCommand : Obligations.DecodeOfEncodeIsTheCommand := by
  intro i hi
  obtain ⟨hop, harg, hrsv⟩ := encode_fields i hi
  exact decode_eq_ok_iff.2 ⟨hrsv, hop, harg⟩

/-- Settles O2: the word is the number of its fields, and they are those of the command. -/
theorem encodeOfDecodeIsTheWord : Obligations.EncodeOfDecodeIsTheWord := by
  intro w i h
  obtain ⟨hrsv, hop, harg⟩ := decode_eq_ok_iff.1 h
  refine ⟨(wellFormed_iff_argOf_lt i).2 (harg ▸ argField_lt w), ?_⟩
  have hw : w.toNat = opcode i + argOf i * 0x100 := by
    rw [toNat_eq_fields, hrsv, hop, harg, Nat.zero_mul, Nat.add_zero]
  rw [encode, ← hw, BitVec.ofNat_toNat, BitVec.setWidth_eq]

/-- Settles O3: `decode_eq_error_iff` with the fields and the opcodes written out, and the error completion. -/
theorem illegalWordsFailAndChangeNothing : Obligations.IllegalWordsFailAndChangeNothing := by
  refine ⟨fun w => ?_, fun w e s h => runWord_of_error h s⟩
  rw [decode_eq_error_iff, instrOf_eq_none_iff, rsvField_eq_div, opField_eq_mod, argField_eq_div_mod]

/-- Settles O4: each of the six words is the encoding of its command, which decodes to it by O1. -/
theorem sampleWordsDecode : Obligations.SampleWordsDecode :=
  ⟨decodeOfEncodeIsTheCommand .nop rfl, decodeOfEncodeIsTheCommand (.kround 23) rfl,
    decodeOfEncodeIsTheCommand .ksponge rfl, decodeOfEncodeIsTheCommand .aenc rfl,
    decodeOfEncodeIsTheCommand .ghash rfl, decodeOfEncodeIsTheCommand .gcmdec rfl⟩

end Sys2Proof.Machine

/-!
PROOFS. The Keccak commands: KROUND (O12) and its sequence (O13), the rotation and the round steps on
32-bit halves (O15, O16), the ROM tables (O17), the padding (O19), the checks of KSPONGE (O20), its result
(O21) and its output stream (O23).
-/

namespace Sys2Proof.Machine

/-! ### KROUND and KPERM (`40_keccak.md` R176, R177) -/

theorem exec_kround_of_le {ir : Nat} (h : ir ≤ 23) (s : State) :
    exec (.kround ir) s = .next (complete (roundKs ir s)) :=
  exec_of_no_failure (by rw [failureOf, decide_eq_true h]; rfl)

theorem exec_kround_of_gt {ir : Nat} (h : 23 < ir) (s : State) :
    exec (.kround ir) s = .next (completeError ⟨.badRound, offCmd⟩ s) :=
  exec_of_failure (by rw [failureOf, decide_eq_false (Nat.not_le.2 h)]; rfl)

/-- Settles O12: the single check of KROUND holds exactly for the indexes up to 23. -/
theorem kroundResultAndBadRound : Obligations.KroundResultAndBadRound :=
  fun s _ => ⟨fun h => exec_kround_of_le h s, fun h => exec_kround_of_gt h s⟩

/-- KROUND `ir` issued after the outcome `o`, which a fault or a refusal would end. -/
def thenKround (o : Host.Outcome State Fault Refusal) (ir : Nat) : Host.Outcome State Fault Refusal :=
  match o with
  | .next t => exec (.kround ir) t
  | o => o

/-- KROUND 0 to `n` leave the state that `n + 1` rounds give; every other field is as after one command. -/
theorem foldl_thenKround (s : State) {n : Nat} (h : n ≤ 23) :
    (List.range (n + 1)).foldl thenKround (.next s) =
      .next (complete { s with ks := (List.range (n + 1)).foldl keccakRound s.ks }) := by
  induction n with
  | zero => exact exec_kround_of_le h s
  | succ n ih =>
    rw [List.range_succ, List.foldl_append, List.foldl_append, ih (by omega)]
    exact exec_kround_of_le h _

/-- Settles O13: `foldl_thenKround` up to index 23, whose fold of rounds is KeccakF by definition (R161). -/
theorem kroundSequenceEqualsKperm : Obligations.KroundSequenceEqualsKperm :=
  fun s => foldl_thenKround s le_rfl

/-! ### Rotation on halves (`40_keccak.md` R163) -/

/-- The bits that a left shift by `n` and the right shift that completes it put together: below `n` the
top bits of `b`, from `n` on the low bits of `a`. -/
theorem getLsbD_funnel {w : Nat} (a b : BitVec w) {n i : Nat} (hn : n ≤ w) (hi : i < w) :
    ((a <<< n) ||| (b >>> (w - n))).getLsbD i =
      if i < n then b.getLsbD (w - n + i) else a.getLsbD (i - n) := by
  rw [BitVec.getLsbD_or, BitVec.getLsbD_shiftLeft, BitVec.getLsbD_ushiftRight]
  split
  · simp [*]
  · rw [BitVec.getLsbD_of_ge b (w - n + i) (by omega)]
    simp [*]

/-- Bit `i` of a rotated lane (R14). -/
theorem getLsbD_rotl64 (v : Lane) {n i : Nat} (hn : n < 64) (hi : i < 64) :
    (rotl64 v n).getLsbD i = if i < n then v.getLsbD (64 - n + i) else v.getLsbD (i - n) := by
  rcases Nat.eq_zero_or_pos n with rfl | hpos
  · rfl
  · rw [rotl64_of_pos v hpos, getLsbD_funnel v v hn.le hi]

/-- A rotation by less than a half moves the top bits of each half into the other one. -/
theorem rotl64_joinHalves (lo hi : Word) {n : Nat} (hn : n < 32) :
    rotl64 (joinHalves lo hi) n =
      joinHalves ((lo <<< n) ||| (hi >>> (32 - n))) ((hi <<< n) ||| (lo >>> (32 - n))) := by
  apply BitVec.eq_of_getLsbD_eq
  intro i hi64
  rw [getLsbD_rotl64 _ (by omega) hi64]
  simp only [getLsbD_joinHalves]
  rcases Nat.lt_or_ge i 32 with hlow | hhigh
  · rw [if_pos hlow, getLsbD_funnel lo hi hn.le hlow, if_neg (show ¬64 - n + i < 32 by omega),
      if_pos (show i - n < 32 by omega), show 64 - n + i - 32 = 32 - n + i by omega]
  · rw [if_neg (show ¬i < 32 by omega), getLsbD_funnel hi lo hn.le (by omega), if_neg (show ¬i < n by omega),
      show i - n - 32 = i - 32 - n by omega, show 32 - n + (i - 32) = i - n by omega]
    exact if_congr (by omega) rfl rfl

/-- A rotation by a half and more exchanges the halves first. -/
theorem rotl64_joinHalves_add (lo hi : Word) {m : Nat} (hm : m < 32) :
    rotl64 (joinHalves lo hi) (32 + m) = rotl64 (joinHalves hi lo) m := by
  apply BitVec.eq_of_getLsbD_eq
  intro i hi64
  rw [getLsbD_rotl64 _ (by omega) hi64, getLsbD_rotl64 _ (by omega) hi64]
  simp only [getLsbD_joinHalves]
  rcases Nat.lt_or_ge i m with hwrap | hm'
  · rw [if_pos (show i < 32 + m by omega), if_pos (show 64 - (32 + m) + i < 32 by omega), if_pos hwrap,
      if_neg (show ¬64 - m + i < 32 by omega), show 64 - (32 + m) + i = 64 - m + i - 32 by omega]
  · rcases Nat.lt_or_ge i (32 + m) with hcross | hrest
    · rw [if_pos hcross, if_neg (show ¬64 - (32 + m) + i < 32 by omega), if_neg (show ¬i < m by omega),
        if_pos (show i - m < 32 by omega), show 64 - (32 + m) + i - 32 = i - m by omega]
    · rw [if_neg (show ¬i < 32 + m by omega), if_pos (show i - (32 + m) < 32 by omega),
        if_neg (show ¬i < m by omega), if_neg (show ¬i - m < 32 by omega), Nat.sub_sub, Nat.add_comm 32]

theorem rotlPair_zero (lo hi : Word) : rotlPair lo hi 0 = (lo, hi) := rfl

theorem rotlPair_of_lt (lo hi : Word) {n : Nat} (hpos : 0 < n) (hn : n < 32) :
    rotlPair lo hi n = ((lo <<< n) ||| (hi >>> (32 - n)), (hi <<< n) ||| (lo >>> (32 - n))) := by
  rw [rotlPair, if_neg hpos.ne', if_pos hn]

theorem rotlPair_half (lo hi : Word) : rotlPair lo hi 32 = (hi, lo) := rfl

theorem rotlPair_of_gt (lo hi : Word) {n : Nat} (hn : 32 < n) : rotlPair lo hi n =
    ((hi <<< (n - 32)) ||| (lo >>> (32 - (n - 32))), (lo <<< (n - 32)) ||| (hi >>> (32 - (n - 32)))) := by
  rw [rotlPair, if_neg (by omega), if_neg (by omega), if_neg (by omega)]

/-- The pair form and the lane form of the rotation agree (R163). -/
theorem joinHalves_rotlPair (lo hi : Word) {n : Nat} (hn : n < 64) :
    joinHalves (rotlPair lo hi n).1 (rotlPair lo hi n).2 = rotl64 (joinHalves lo hi) n := by
  rcases Nat.lt_trichotomy n 32 with hlt | rfl | hgt
  · rcases Nat.eq_zero_or_pos n with rfl | hpos
    · rfl
    · rw [rotlPair_of_lt lo hi hpos hlt, rotl64_joinHalves lo hi hlt]
  · rw [rotlPair_half, rotl64_joinHalves_add lo hi (m := 0) (by decide), rotl64_zero]
  · obtain ⟨m, rfl⟩ := Nat.exists_eq_add_of_lt hgt
    rw [rotlPair_of_gt lo hi hgt, Nat.add_assoc, rotl64_joinHalves_add lo hi (by omega),
      rotl64_joinHalves hi lo (by omega), Nat.add_sub_cancel_left]

/-- Settles O15: the four cases of the pair rotation, and `joinHalves_rotlPair`. -/
theorem pairRotationIsLaneRotation : Obligations.PairRotationIsLaneRotation := by
  intro lo hi n hn
  exact ⟨fun h => h ▸ rotlPair_zero lo hi, fun hpos hlt => rotlPair_of_lt lo hi hpos hlt,
    fun h => h ▸ rotlPair_half lo hi, fun hgt => rotlPair_of_gt lo hi hgt, joinHalves_rotlPair lo hi hn⟩

/-! ### The round steps on halves (`40_keccak.md` R165, R168, R169) -/

/-- What a half of a lane must do for χ and ι to act on it alone; both halves do. -/
structure IsBitwise (half : Lane → Word) : Prop where
  xor : ∀ a b, half (a ^^^ b) = half a ^^^ half b
  and : ∀ a b, half (a &&& b) = half a &&& half b
  not : ∀ a, half (~~~a) = ~~~(half a)

theorem isBitwise_extractLsb' {n : Nat} (h : n + 32 ≤ 64) :
    IsBitwise fun l : Lane => l.extractLsb' n 32 where
  xor a b := by ext i hi; simp
  and a b := by ext i hi; simp
  not a := by ext i hi; simp [show n + i < 64 by omega]

theorem isBitwise_lowHalf : IsBitwise lowHalf := isBitwise_extractLsb' (by decide)

theorem isBitwise_highHalf : IsBitwise highHalf := isBitwise_extractLsb' (by decide)

theorem IsBitwise.columnParity {half : Lane → Word} (h : IsBitwise half) (a : Lanes) (x : Nat) :
    half (columnParity a x) = columnParityHalf half a x := by
  simp only [Machine.columnParity, columnParityHalf, h.xor]

theorem IsBitwise.lane_chi {half : Lane → Word} (h : IsBitwise half) (a : Lanes) (x y : Nat) :
    half (lane (chi a) x y) =
      half (lane a x y) ^^^ (~~~(half (lane a (x + 1) y)) &&& half (lane a (x + 2) y)) := by
  rw [Machine.lane_chi, h.xor, h.and, h.not]

theorem IsBitwise.lane_iota {half : Lane → Word} (h : IsBitwise half) (a : Lanes) (ir : Nat) {x y : Nat}
    (hx : x < 5) (hy : y < 5) :
    half (lane (iota a ir) x y) =
      if x = 0 ∧ y = 0 then half (lane a 0 0) ^^^ half (roundConstant ir) else half (lane a x y) := by
  rw [Machine.lane_iota a ir hx hy, apply_ite half, h.xor]

/-- The rotation by one that θ applies to a column parity, on its halves. -/
theorem rotl64_one (v : Lane) : rotl64 v 1 =
    joinHalves ((lowHalf v <<< 1) ||| (highHalf v >>> 31)) ((highHalf v <<< 1) ||| (lowHalf v >>> 31)) := by
  conv_lhs => rw [← joinHalves_halves v]
  exact rotl64_joinHalves _ _ (by decide)

/-- Settles O16: `D` of θ by its halves, and the bitwise steps by `IsBitwise`. -/
theorem roundStepsOnHalves : Obligations.RoundStepsOnHalves := by
  intro a ir x hx y hy
  refine ⟨?_, ?_, fun half hhalf => ?_⟩
  · rw [lane_theta, rotl64_one]
    simp only [isBitwise_lowHalf.xor, lowHalf_joinHalves, isBitwise_lowHalf.columnParity,
      isBitwise_highHalf.columnParity]
    rfl
  · rw [lane_theta, rotl64_one]
    simp only [isBitwise_highHalf.xor, highHalf_joinHalves, isBitwise_lowHalf.columnParity,
      isBitwise_highHalf.columnParity]
    rfl
  · have h : IsBitwise half := by
      rcases List.mem_pair.1 hhalf with rfl | rfl
      exacts [isBitwise_lowHalf, isBitwise_highHalf]
    exact ⟨h.lane_chi a x y, h.lane_iota a ir hx hy⟩

/-! ### The ROM tables and their generators (`40_keccak.md` R166, R170, R171) -/

/-- The bit `rc(t)` is read after `t mod 255` shifts; for a multiple of 255 it is the first bit of the seed. -/
theorem rcBit_eq_iterate (t : Nat) : rcBit t = (lfsrShift^[t % 255]
    [true, false, false, false, false, false, false, false]).getD 0 false := by
  unfold rcBit
  split
  · next h => rw [h]; rfl
  · rw [List.foldl_const, List.length_range]

/-- The terms of a generated constant are distinct powers of two up to 2^63, so their sum fits a lane. -/
theorem toNat_generatedRoundConstant (ir : Nat) : (generatedRoundConstant ir).toNat =
    ((List.range 7).map fun j => if rcBit (j + 7 * ir) then 2 ^ (2 ^ j - 1) else 0).sum := by
  have hterm : ∀ j ∈ List.range 7, (if rcBit (j + 7 * ir) then 2 ^ (2 ^ j - 1) else 0) ≤ 2 ^ (2 ^ j - 1) :=
    fun j _ => by split <;> simp
  have hsum := List.sum_le_sum hterm
  have hmax : ((List.range 7).map fun j => 2 ^ (2 ^ j - 1)).sum < 2 ^ 64 := by decide
  rw [generatedRoundConstant, ← List.sum_eq_foldl, BitVec.toNat_ofNat, Nat.mod_eq_of_lt (by omega)]

theorem roundConstant_eq_generated : ∀ ir < 24, roundConstant ir = generatedRoundConstant ir := by decide

/-- One step of the walk of R166. -/
def rhoWalkStep (q : Nat × Nat) : Nat × Nat := (q.2, (2 * q.1 + 3 * q.2) % 5)

/-- The walk lists its positions by iterating its step. -/
theorem rhoWalk_eq (n : Nat) (acc : List (Nat × Nat)) (p : Nat × Nat) :
    rhoWalk n acc p = acc ++ (List.range n).map fun t => rhoWalkStep^[t] p := by
  induction n generalizing acc p with
  | zero => simp [rhoWalk]
  | succ n ih =>
    rw [rhoWalk, ih, List.range_succ_eq_map, List.map_cons, List.map_map, List.append_assoc]
    rfl

theorem rhoWalk_getD {n t : Nat} (h : t < n) (p d : Nat × Nat) :
    (rhoWalk n [] p).getD t d = rhoWalkStep^[t] p := by
  simp [rhoWalk_eq, List.getD_eq_getElem?_getD, h]

theorem rhoOffset_walk : ∀ t < 24,
    rhoOffset (rhoWalkStep^[t] (1, 0)).1 (rhoWalkStep^[t] (1, 0)).2 = generatedRhoOffset t := by decide

/-- Settles O17: the tables by evaluation, and each generator by its lemma. -/
theorem keccakTablesAreGenerated : Obligations.KeccakTablesAreGenerated := by
  refine ⟨by decide, by decide, fun _ _ _ _ _ _ _ _ => rfl, rcBit_eq_iterate, fun ir hir => ?_, rfl,
    fun t ht => ?_⟩
  · have hgen := roundConstant_eq_generated ir hir
    exact ⟨hgen, hgen ▸ toNat_generatedRoundConstant ir⟩
  · rw [rhoWalk_getD ht]
    exact ⟨rfl, rhoOffset_walk t ht, rfl⟩

/-! ### The sponge (`40_keccak.md` R180 to R186) -/

theorem padMessage_of_one {m : Bytes} {r : Nat} (h : r - m.length % r = 1) (d : Byte) :
    padMessage m r d = m ++ [d ||| 0x80] := by
  simp only [padMessage, h, if_true]

theorem padMessage_of_two_le {m : Bytes} {r : Nat} (h : 2 ≤ r - m.length % r) (d : Byte) :
    padMessage m r d = m ++ [d] ++ List.replicate (r - m.length % r - 2) 0 ++ [0x80] :=
  if_neg (by omega)

/-- pad10*1 fills the last block, or adds a whole one (R183). -/
theorem padMessage_length (m : Bytes) {r : Nat} (hr : 0 < r) (d : Byte) :
    (padMessage m r d).length = m.length + (r - m.length % r) := by
  have hpos : 0 < r - m.length % r := Nat.sub_pos_of_lt (Nat.mod_lt _ hr)
  rcases Nat.eq_or_lt_of_le (Nat.succ_le_of_lt hpos) with h1 | h2
  · rw [padMessage_of_one h1.symm, ← h1]
    simp
  · rw [padMessage_of_two_le h2]
    simp only [List.length_append, List.length_replicate, List.length_singleton]
    omega

/-- Settles O19: the two cases of the padding; with it the message is `length / r + 1` blocks. -/
theorem paddingIsWholeBlocks : Obligations.PaddingIsWholeBlocks := by
  intro m r d hr
  have hmod := Nat.mod_lt m.length hr
  have hdiv := Nat.div_add_mod m.length r
  have hblocks : m.length + (r - m.length % r) = r * (m.length / r + 1) := by
    rw [Nat.mul_succ]
    omega
  rw [padMessage_length m hr]
  exact ⟨fun h => padMessage_of_one h d, fun h => padMessage_of_two_le h d, ⟨_, hblocks⟩, by omega, by omega⟩

/-- The first check of KSPONGE that fails, by the order of R181. -/
theorem failureOf_ksponge_eq (s : State) : failureOf .ksponge s =
    if rateLegal s then
      if suffixLegal s then
        if decide (1 ≤ s.outLen.toNat) then
          if (srcRange s).valid then
            if (spongeOutRange s).valid then none else some ⟨.badRange, offDstAddr⟩
          else some ⟨.badRange, offSrcAddr⟩
        else some ⟨.badOutLen, offOutLen⟩
      else some ⟨.badSuffix, offSpongeCfg⟩
    else some ⟨.badRate, offSpongeCfg⟩ := rfl

/-- Settles O20: the checks before the failing one hold, and the error it names completes the command. -/
theorem kspongeChecksInOrder : Obligations.KspongeChecksInOrder := by
  intro s
  have rate := rateLegal_iff s
  have suffix := suffixLegal_iff s
  have out : decide (1 ≤ s.outLen.toNat) = true ↔ 1 ≤ s.outLen.toNat := decide_eq_true_iff
  have src := BufRange.valid_iff (srcRange s)
  have dst := BufRange.valid_iff (spongeOutRange s)
  refine ⟨fun hr => ?_, fun hr hs => ?_, fun hr hs ho => ?_, fun hr hs ho hi => ?_, fun hr hs ho hi hd => ?_⟩
  · exact exec_of_failure (e := ⟨.badRate, offSpongeCfg⟩) (by
      rw [failureOf_ksponge_eq, if_neg (mt rate.1 hr)])
  · exact exec_of_failure (e := ⟨.badSuffix, offSpongeCfg⟩) (by
      rw [failureOf_ksponge_eq, if_pos (rate.2 hr), if_neg (mt suffix.1 hs)])
  · exact exec_of_failure (e := ⟨.badOutLen, offOutLen⟩) (by
      rw [failureOf_ksponge_eq, if_pos (rate.2 hr), if_pos (suffix.2 hs), if_neg (mt out.1 ho)])
  · exact exec_of_failure (e := ⟨.badRange, offSrcAddr⟩) (by
      rw [failureOf_ksponge_eq, if_pos (rate.2 hr), if_pos (suffix.2 hs), if_pos (out.2 ho),
        if_neg (mt src.1 hi)])
  · exact exec_of_failure (e := ⟨.badRange, offDstAddr⟩) (by
      rw [failureOf_ksponge_eq, if_pos (rate.2 hr), if_pos (suffix.2 hs), if_pos (out.2 ho),
        if_pos (src.2 hi), if_neg (mt dst.1 hd)])

/-- Settles O21: each absorbed block by `absorb_append_block`, and the effect of KSPONGE written out. -/
theorem kspongeResult : Obligations.KspongeResult := by
  refine ⟨fun a blk k hk => ksByte_xorIntoState a blk hk,
    fun r a hr => ⟨absorb_nil r a, fun p b hp hb => absorb_append_block hr a hp hb⟩, fun s hs => ?_⟩
  exact ⟨exec_ksponge_of_ok hs, hs.result_length⟩

/-- The output of a sponge, byte by byte (R185). -/
theorem sponge_fst_eq_map (m : Bytes) {r : Nat} (hr : 0 < r) (d : Byte) (n : Nat) :
    (sponge m r d n).1 = (List.range n).map fun k =>
      ksByte (keccakF^[k / r] (absorb r (padMessage m r d) zeroLanes)) (k % r) := by
  apply List.ext_getElem
  · rw [sponge_length m hr, List.length_map, List.length_range]
  · intro k hk _
    rw [sponge_length m hr] at hk
    have hbyte := squeeze_getD hr (squeezeSteps r n) (absorb r (padMessage m r d) zeroLanes)
      (hk.trans_le (le_squeeze_total hr n))
    rw [List.getElem_map, List.getElem_range, ← hbyte, ← List.getD_eq_getElem _ 0]
    simp [sponge, List.getD_eq_getElem?_getD, hk]

/-- Settles O23: the squeezed stream, and a sponge's output as the bytes of it up to its length. -/
theorem spongeOutputIsPrefix : Obligations.SpongeOutputIsPrefix := by
  refine ⟨fun r n a hr => ⟨squeeze_length r n a, fun k hk => squeeze_getD hr n a hk, squeeze_state r n a⟩,
    fun m r d n => rfl, fun m r d n n' hr _ hn => ?_⟩
  rw [sponge_fst_eq_map m hr, sponge_fst_eq_map m hr, ← List.map_take, List.take_range, Nat.min_eq_left hn]

end Sys2Proof.Machine

/-!
PROOFS. The product of GF(2^128): its identity, zero, product with x and bilinearity (O30), that it is
commutative and associative (O31); the commands GMUL and GHASH (O33).
-/

namespace Sys2Proof.Machine

/-! ### GMUL and GHASH (`41_ghash.md` R226, R228) -/

theorem exec_gmul (s : State) : exec .gmul s = .next (complete (gmulEffect s)) := exec_of_no_failure rfl

/-- The one check of GHASH, on its source range (R228). -/
theorem failureOf_ghash_eq (s : State) :
    failureOf .ghash s = if (srcRange s).valid then none else some ⟨.badRange, offSrcAddr⟩ := by
  rw [failureOf, rangeCheck]
  cases (srcRange s).valid <;> rfl

/-- Settles O33: GMUL has no check, and GHASH the one on its source range. -/
theorem gmulGhashResults : Obligations.GmulGhashResults := by
  intro s
  refine ⟨exec_gmul s, fun h => ?_, fun h => ?_⟩
  · exact exec_of_no_failure (by rw [failureOf_ghash_eq, if_pos ((srcRange s).valid_iff.2 h)])
  · exact exec_of_failure (e := ⟨.badRange, offSrcAddr⟩) (by
      rw [failureOf_ghash_eq, (srcRange s).valid_eq_false_iff.2 h]; rfl)

/-! ### A block and its integer, bit by bit (`00_scope.md` R12, R13) -/

/-- The bits of the integer of a big-endian byte string: byte `i / 8` from its end, bit `i % 8`. -/
theorem testBit_foldl_bytes (bs : Bytes) (i : Nat) :
    (bs.foldl (fun n (b : Byte) => n * 256 + b.toNat) 0).testBit i = (bs.reverse.getD (i / 8) 0).getLsbD (i % 8) := by
  induction bs using List.reverseRecOn generalizing i with
  | nil => simp
  | append_singleton bs b ih =>
    rw [List.foldl_concat, Nat.mul_comm, show ∀ n, 256 * n = 2 ^ 8 * n from fun _ => rfl,
      Nat.testBit_two_pow_mul_add _ b.isLt, List.reverse_concat]
    by_cases hi : i < 8
    · rw [if_pos hi, Nat.div_eq_of_lt hi, Nat.mod_eq_of_lt hi]
      rfl
    · rw [if_neg hi, ih, show i / 8 = (i - 8) / 8 + 1 by omega, show i % 8 = (i - 8) % 8 by omega]
      rfl

/-- Integer bit `i` of a block is bit `i % 8` of byte `15 - i / 8`. -/
theorem getLsbD_blockInt (b : Block) {i : Nat} (hi : i < 128) :
    (blockInt b).getLsbD i = (byteAt b (15 - i / 8)).getLsbD (i % 8) := by
  have hbyte : b.toList.reverse.getD (i / 8) 0 = byteAt b (15 - i / 8) := by
    rw [byteAt_eq_toList_getD, List.getD_eq_getElem?_getD, List.getD_eq_getElem?_getD,
      List.getElem?_reverse (by rw [Vector.length_toList]; omega), Vector.length_toList]
  rw [blockInt, BitVec.getLsbD_ofNat, testBit_foldl_bytes, hbyte, decide_eq_true hi, Bool.true_and]

theorem byteAt_intBlock (v : BitVec 128) {k : Nat} (hk : k < 16) :
    byteAt (intBlock v) k = v.extractLsb' (8 * (15 - k)) 8 := by
  rw [intBlock, byteAt_tabulate, if_pos hk]

@[simp] theorem intBlock_blockInt (b : Block) : intBlock (blockInt b) = b :=
  byteAt_ext fun k hk => BitVec.eq_of_getLsbD_eq fun j hj => by
    rw [byteAt_intBlock _ hk, BitVec.getLsbD_extractLsb', decide_eq_true hj, Bool.true_and,
      getLsbD_blockInt _ (by omega), show 15 - (8 * (15 - k) + j) / 8 = k by omega,
      show (8 * (15 - k) + j) % 8 = j by omega]

@[simp] theorem blockInt_intBlock (v : BitVec 128) : blockInt (intBlock v) = v :=
  BitVec.eq_of_getLsbD_eq fun i hi => by
    rw [getLsbD_blockInt _ hi, byteAt_intBlock _ (by omega), BitVec.getLsbD_extractLsb',
      decide_eq_true (Nat.mod_lt i (by decide)), Bool.true_and]
    congr 1
    omega

@[simp] theorem blockInt_xorBlock (a b : Block) : blockInt (xorBlock a b) = blockInt a ^^^ blockInt b :=
  BitVec.eq_of_getLsbD_eq fun i hi => by
    rw [BitVec.getLsbD_xor, getLsbD_blockInt _ hi, getLsbD_blockInt _ hi, getLsbD_blockInt _ hi,
      byteAt_xorBlock, BitVec.getLsbD_xor]

theorem intBlock_xor (v w : BitVec 128) : intBlock (v ^^^ w) = xorBlock (intBlock v) (intBlock w) := by
  rw [← intBlock_blockInt (xorBlock _ _), blockInt_xorBlock, blockInt_intBlock, blockInt_intBlock]

/-! ### Multiplication by x -/

/-- An operation on field elements that keeps their sum. -/
def XorAdditive (f : BitVec 128 → BitVec 128) : Prop := ∀ v w, f (v ^^^ w) = f v ^^^ f w

theorem XorAdditive.map_zero {f : BitVec 128 → BitVec 128} (hf : XorAdditive f) : f 0 = 0 := by
  simpa using hf 0 0

theorem XorAdditive.iterate {f : BitVec 128 → BitVec 128} (hf : XorAdditive f) (n : Nat) :
    XorAdditive f^[n] := by
  intro v w
  induction n with
  | zero => rfl
  | succ n ih => simp only [Function.iterate_succ_apply', ih, hf _ _]

theorem gfShift_eq_xor (v : BitVec 128) :
    gfShift v = (v >>> 1) ^^^ (if v.getLsbD 0 then gfReduction else 0) := by
  unfold gfShift
  split
  · rfl
  · exact BitVec.xor_zero.symm

theorem gfShift_xorAdditive : XorAdditive gfShift := by
  intro v w
  rw [gfShift_eq_xor, gfShift_eq_xor, gfShift_eq_xor, BitVec.ushiftRight_xor_distrib, BitVec.getLsbD_xor]
  have hreduce (a b : Bool) : (if a ^^ b then gfReduction else 0) =
      (if a then gfReduction else 0) ^^^ (if b then gfReduction else 0) := by
    cases a <;> cases b <;> simp
  rw [hreduce]
  ac_rfl

/-- `x^k · x = x^(k+1)` as long as no bit is shifted out. -/
theorem gfShift_twoPow {k : Nat} (hk : k < 127) :
    gfShift (BitVec.twoPow 128 (k + 1)) = BitVec.twoPow 128 k := by
  have hbit : (BitVec.twoPow 128 (k + 1)).getLsbD 0 = false := by simp
  rw [gfShift, if_neg (by rw [hbit]; decide)]
  refine BitVec.eq_of_getLsbD_eq fun i hi => ?_
  rw [BitVec.getLsbD_ushiftRight, BitVec.getLsbD_twoPow, BitVec.getLsbD_twoPow,
    decide_eq_true (show k + 1 < 128 by omega), decide_eq_true (show k < 128 by omega), Nat.add_comm 1 i]
  simp

theorem gfShift_iterate_one {n : Nat} (hn : n < 128) :
    gfShift^[n] (BitVec.twoPow 128 127) = BitVec.twoPow 128 (127 - n) := by
  induction n with
  | zero => rfl
  | succ n ih =>
    rw [Function.iterate_succ_apply', ih (by omega), show 127 - n = 127 - (n + 1) + 1 by omega,
      gfShift_twoPow (by omega)]

/-! ### The product as a sum of shifts (`41_ghash.md` R221) -/

/-- The sum of `y·x^k` over the first `n` coefficients `k` of `x`: Z after `n` iterations of R221. -/
def gfSum (x y : BitVec 128) : Nat → BitVec 128
  | 0 => 0
  | n + 1 => gfSum x y n ^^^ (if x.getLsbD (127 - n) then gfShift^[n] y else 0)

theorem foldl_gfIteration (x y : BitVec 128) (n : Nat) :
    (List.range n).foldl (gfIteration x) (0, y) = (gfSum x y n, gfShift^[n] y) := by
  induction n with
  | zero => rfl
  | succ n ih =>
    rw [List.range_succ, List.foldl_concat, ih, gfIteration, gfSum, Function.iterate_succ_apply']
    split <;> simp

theorem gfMultInt_eq_gfSum (x y : BitVec 128) : gfMultInt x y = gfSum x y 128 := by
  rw [gfMultInt, foldl_gfIteration]

theorem gfSum_xor (x v w : BitVec 128) (n : Nat) : gfSum x (v ^^^ w) n = gfSum x v n ^^^ gfSum x w n := by
  induction n with
  | zero => exact BitVec.xor_zero.symm
  | succ n ih =>
    simp only [gfSum, ih, gfShift_xorAdditive.iterate n v w]
    split
    · ac_rfl
    · simp

/-- The sum is built from shifts and XOR alone, so a map that keeps both passes through it. -/
theorem gfSum_commute {f : BitVec 128 → BitVec 128} (hf : XorAdditive f) (hshift : Function.Commute f gfShift)
    (x y : BitVec 128) (n : Nat) : f (gfSum x y n) = gfSum x (f y) n := by
  induction n with
  | zero => exact hf.map_zero
  | succ n ih =>
    rw [gfSum, gfSum, hf, ih, apply_ite f, hf.map_zero, (hshift.iterate_right n).eq]

theorem getLsbD_ite_twoPow (c : Bool) {k : Nat} (hk : k < 128) (i : Nat) :
    (if c then BitVec.twoPow 128 k else 0).getLsbD i = (decide (k = i) && c) := by
  cases c <;> simp [hk]

/-- After `n` iterations on the identity, Z holds the first `n` coefficients of `x`. -/
theorem getLsbD_gfSum_one (x : BitVec 128) {n : Nat} (hn : n ≤ 128) {i : Nat} (hi : i < 128) :
    (gfSum x (BitVec.twoPow 128 127) n).getLsbD i = (decide (128 ≤ i + n) && x.getLsbD i) := by
  induction n with
  | zero => simp [gfSum, hi]
  | succ n ih =>
    rw [gfSum, gfShift_iterate_one (by omega), BitVec.getLsbD_xor, ih (by omega),
      getLsbD_ite_twoPow _ (by omega)]
    by_cases h : 127 - n = i
    · rw [h, decide_eq_false (show ¬ 128 ≤ i + n by omega), decide_eq_true rfl,
        decide_eq_true (show 128 ≤ i + (n + 1) by omega), Bool.false_and, Bool.false_xor]
    · rw [decide_eq_false h, Bool.false_and, Bool.xor_false,
        decide_eq_decide.2 (show 128 ≤ i + n ↔ 128 ≤ i + (n + 1) by omega)]

/-! ### The laws of the product on integers (`41_ghash.md` R222) -/

theorem gfMultInt_xorAdditive (x : BitVec 128) : XorAdditive (gfMultInt x) := by
  intro v w
  simp only [gfMultInt_eq_gfSum, gfSum_xor]

theorem gfMultInt_one (x : BitVec 128) : gfMultInt x (BitVec.twoPow 128 127) = x :=
  BitVec.eq_of_getLsbD_eq fun i hi => by
    rw [gfMultInt_eq_gfSum, getLsbD_gfSum_one x le_rfl hi, decide_eq_true (by omega), Bool.true_and]

theorem gfMultInt_commute_of_shift {f : BitVec 128 → BitVec 128} (hf : XorAdditive f)
    (hshift : Function.Commute f gfShift) (x : BitVec 128) : Function.Commute f (gfMultInt x) := by
  intro y
  simp only [gfMultInt_eq_gfSum]
  exact gfSum_commute hf hshift x y 128

theorem gfShift_commute_gfMultInt (x : BitVec 128) : Function.Commute gfShift (gfMultInt x) :=
  gfMultInt_commute_of_shift gfShift_xorAdditive (.refl _) x

/-- `w·(x·y) = x·(w·y)`: the maps `y ↦ x·y` commute with one another. -/
theorem gfMultInt_left_comm (w x y : BitVec 128) :
    gfMultInt w (gfMultInt x y) = gfMultInt x (gfMultInt w y) :=
  gfMultInt_commute_of_shift (gfMultInt_xorAdditive w) (gfShift_commute_gfMultInt w).symm x y

/-- Both products are the two maps applied to the identity. -/
theorem gfMultInt_comm (x y : BitVec 128) : gfMultInt x y = gfMultInt y x := by
  have h := gfMultInt_left_comm x y (BitVec.twoPow 128 127)
  rwa [gfMultInt_one, gfMultInt_one] at h

theorem gfMultInt_assoc (x y z : BitVec 128) :
    gfMultInt (gfMultInt x y) z = gfMultInt x (gfMultInt y z) := by
  rw [gfMultInt_comm, gfMultInt_left_comm, gfMultInt_comm z]

/-- The product with x is one shift. -/
theorem gfMultInt_x (v : BitVec 128) : gfMultInt v (BitVec.twoPow 128 126) = gfShift v := by
  rw [← gfShift_twoPow (k := 126) (by decide), ← (gfShift_commute_gfMultInt v).eq, gfMultInt_one]

/-! ### The laws of the product on blocks -/

theorem gfMult_comm (x y : Block) : gfMult x y = gfMult y x := by
  rw [gfMult, gfMultInt_comm, gfMult]

theorem gfMult_assoc (x y z : Block) : gfMult (gfMult x y) z = gfMult x (gfMult y z) := by
  simp only [gfMult, blockInt_intBlock, gfMultInt_assoc]

/-- Settles O31: multiplications by a fixed block commute with one another, and there is an identity. -/
theorem gfMultCommutesAndAssociates : Obligations.GfMultCommutesAndAssociates :=
  fun x y z => ⟨gfMult_comm x y, gfMult_assoc x y z⟩

theorem gfMult_xorBlock_right (x y z : Block) :
    gfMult x (xorBlock y z) = xorBlock (gfMult x y) (gfMult x z) := by
  rw [gfMult, blockInt_xorBlock, gfMultInt_xorAdditive, intBlock_xor, ← gfMult, ← gfMult]

theorem gfMult_xorBlock_left (x y z : Block) :
    gfMult (xorBlock x y) z = xorBlock (gfMult x z) (gfMult y z) := by
  rw [gfMult_comm, gfMult_xorBlock_right, gfMult_comm z, gfMult_comm z]

theorem gfMult_one_right (x : Block) : gfMult x (ofBytes 16 [0x80]) = x := by
  have hone : blockInt (ofBytes 16 [0x80]) = BitVec.twoPow 128 127 := by decide
  rw [gfMult, hone, gfMultInt_one, intBlock_blockInt]

theorem gfMult_zero_right (x : Block) : gfMult x (ofBytes 16 []) = ofBytes 16 [] := by
  have hzero : blockInt (ofBytes 16 []) = 0 := by decide
  rw [← intBlock_blockInt (ofBytes 16 []), hzero, gfMult, blockInt_intBlock,
    (gfMultInt_xorAdditive _).map_zero]

theorem gfMult_x_right (x : Block) : gfMult x (ofBytes 16 [0x40]) = intBlock (gfShift (blockInt x)) := by
  have hx : blockInt (ofBytes 16 [0x40]) = BitVec.twoPow 128 126 := by decide
  rw [gfMult, hx, gfMultInt_x]

/-- The reduction constant is the block `E1 00 … 00` (R221). -/
theorem byteAt_intBlock_gfReduction :
    ∀ k < 16, byteAt (intBlock gfReduction) k = if k = 0 then 0xE1#8 else 0#8 := by decide

/-- The integer of a block shifted right by one: each byte takes the last bit of the byte before it. -/
theorem byteAt_intBlock_ushiftRight (b : Block) {k : Nat} (hk : k < 16) :
    byteAt (intBlock (blockInt b >>> 1)) k =
      (byteAt b k >>> 1) ^^^ (if k = 0 then 0#8 else byteAt b (k - 1) <<< (7 : Nat)) := by
  refine BitVec.eq_of_getLsbD_eq fun j hj => ?_
  rw [byteAt_intBlock _ hk, BitVec.getLsbD_extractLsb', decide_eq_true hj, Bool.true_and,
    BitVec.getLsbD_ushiftRight, BitVec.getLsbD_xor, BitVec.getLsbD_ushiftRight]
  rcases Nat.lt_or_ge j 7 with hj7 | hj7
  · have hshift : (if k = 0 then 0#8 else byteAt b (k - 1) <<< (7 : Nat)).getLsbD j = false := by
      split <;> simp [hj7]
    rw [hshift, Bool.xor_false, getLsbD_blockInt _ (by omega),
      show 15 - (1 + (8 * (15 - k) + j)) / 8 = k by omega,
      show (1 + (8 * (15 - k) + j)) % 8 = 1 + j by omega]
  · obtain rfl : j = 7 := by omega
    rw [BitVec.getLsbD_of_ge (byteAt b k) _ (by omega), Bool.false_xor]
    split
    · exact BitVec.getLsbD_of_ge _ _ (by omega)
    · rw [getLsbD_blockInt _ (by omega), show 15 - (1 + (8 * (15 - k) + 7)) / 8 = k - 1 by omega,
        show (1 + (8 * (15 - k) + 7)) % 8 = 0 by omega]
      simp

/-- The product with x, byte by byte (R220, R221). -/
theorem byteAt_gfMult_x (b : Block) {k : Nat} (hk : k < 16) :
    byteAt (gfMult b (ofBytes 16 [0x40])) k = (byteAt b k >>> 1) ^^^
      (if k = 0 then (if (byteAt b 15).getLsbD 0 then 0xE1#8 else 0#8) else byteAt b (k - 1) <<< (7 : Nat)) := by
  have hlast : (blockInt b).getLsbD 0 = (byteAt b 15).getLsbD 0 := getLsbD_blockInt b (by decide)
  have hreduce (c : Bool) : byteAt (intBlock (if c then gfReduction else 0)) k =
      if k = 0 then (if c then 0xE1#8 else 0#8) else 0#8 := by
    cases c
    · rw [byteAt_intBlock _ hk]
      simp
    · exact byteAt_intBlock_gfReduction k hk
  rw [gfMult_x_right, gfShift_eq_xor, hlast, intBlock_xor, byteAt_xorBlock,
    byteAt_intBlock_ushiftRight b hk, hreduce]
  split <;> simp

/-- Settles O30: the laws in the second factor from the sum of shifts, those in the first factor from them
by commutativity; the product with x is one shift. -/
theorem gfMultIsBilinearWithIdentity : Obligations.GfMultIsBilinearWithIdentity := by
  refine ⟨fun x y k _ => byteAt_xorBlock x y k, fun x k hk => byteAt_gfMult_x x hk, fun x => ?_, ?_, ?_,
    fun x y z => ⟨gfMult_xorBlock_left x y z, gfMult_xorBlock_right x y z⟩⟩
  · have hone := gfMult_one_right x
    have hzero := gfMult_zero_right x
    exact ⟨hone, (gfMult_comm _ x).trans hone, hzero, (gfMult_comm _ x).trans hzero⟩
  · rw [gfMult_x_right]
    decide
  · rw [gfMult_x_right]
    decide

end Sys2Proof.Machine

/-!
PROOFS. AES: the product of GF(2^8) and the generated tables (O24), the recurrence of the key expansion
(O25), the round steps on bytes (O26), the commands AKEY (O27) and AENC (O29).
-/

namespace Sys2Proof.Machine

/-! ### The product of GF(2^8) (`42_aes.md` R240) -/

/-- A term of a sum that is present when one of two bits is set, and cancels when both are. -/
theorem ite_xor (b c : Bool) (v : Byte) :
    (if b ^^ c then v else 0) = (if b then v else 0) ^^^ if c then v else 0 := by
  cases b <;> cases c <;> simp

theorem xtime_xor (a b : Byte) : xtime (a ^^^ b) = xtime a ^^^ xtime b := by
  rw [xtime, xtime, xtime, BitVec.shiftLeft_xor_distrib, BitVec.getLsbD_xor, ite_xor]
  ac_rfl

theorem xtime_ite (b : Bool) (v : Byte) : xtime (if b then v else 0) = if b then xtime v else 0 :=
  apply_ite xtime _ _ _

/-- The sum of `a·x^k` over the bits `k < n` of `m` (R240). -/
def gf8Sum (m a : Byte) : Nat → Byte
  | 0 => 0
  | n + 1 => gf8Sum m a n ^^^ if m.getLsbD n then xtime^[n] a else 0

/-- The product by its iterations: the sum so far, and the power of x that comes next. -/
theorem foldl_gf8_eq_gf8Sum (m a : Byte) (n : Nat) : (List.range n).foldl
    (fun (p : Byte × Byte) k => (if m.getLsbD k then p.1 ^^^ p.2 else p.1, xtime p.2)) (0, a) =
      (gf8Sum m a n, xtime^[n] a) := by
  induction n with
  | zero => rfl
  | succ n ih =>
    rw [List.range_succ, List.foldl_concat, ih, gf8Sum, Function.iterate_succ_apply']
    split <;> simp

theorem gf8Mul_eq_gf8Sum (m a : Byte) : gf8Mul m a = gf8Sum m a 8 :=
  congrArg Prod.fst (foldl_gf8_eq_gf8Sum m a 8)

theorem gf8Sum_xor (m n a : Byte) (k : Nat) : gf8Sum (m ^^^ n) a k = gf8Sum m a k ^^^ gf8Sum n a k := by
  induction k with
  | zero => exact BitVec.xor_zero.symm
  | succ k ih =>
    rw [gf8Sum, gf8Sum, gf8Sum, ih, BitVec.getLsbD_xor, ite_xor]
    ac_rfl

theorem gf8Mul_xor_left (m n a : Byte) : gf8Mul (m ^^^ n) a = gf8Mul m a ^^^ gf8Mul n a := by
  rw [gf8Mul_eq_gf8Sum, gf8Mul_eq_gf8Sum, gf8Mul_eq_gf8Sum, gf8Sum_xor]

/-- Shifting the multiplier moves every term of the sum one power of x up. -/
theorem gf8Sum_shiftLeft (m a : Byte) {n : Nat} (hn : n < 8) :
    gf8Sum (m <<< 1) a (n + 1) = xtime (gf8Sum m a n) := by
  induction n with
  | zero => simp [gf8Sum, xtime]
  | succ n ih =>
    have hbit : (m <<< 1).getLsbD (n + 1) = m.getLsbD n := by
      rw [BitVec.getLsbD_shiftLeft, decide_eq_true hn]
      simp
    rw [gf8Sum, ih (by omega), hbit, gf8Sum, xtime_xor, xtime_ite, Function.iterate_succ_apply']

/-- `x^8 = x^4 + x^3 + x + 1`. -/
theorem xtime_iterate_eight : ∀ a : Byte, xtime^[8] a = gf8Mul 0x1B a := by decide +kernel

theorem gf8Mul_zero_left (a : Byte) : gf8Mul 0 a = 0 := by
  simpa using gf8Mul_xor_left 0 0 a

theorem gf8Mul_ite_left (b : Bool) (m a : Byte) :
    gf8Mul (if b then m else 0) a = if b then gf8Mul m a else 0 := by
  rw [apply_ite (gf8Mul · a), gf8Mul_zero_left]

/-- Doubling the multiplier doubles the product: the bit that the shift loses is `x^8`, which is what
`xtime` adds in its place. -/
theorem gf8Mul_xtime_left (m a : Byte) : gf8Mul (xtime m) a = xtime (gf8Mul m a) := by
  have hshift : gf8Mul (m <<< 1) a = xtime (gf8Sum m a 7) := by
    rw [gf8Mul_eq_gf8Sum, gf8Sum_shiftLeft m a (by decide)]
  have hlast : xtime (xtime^[7] a) = gf8Mul 0x1B a :=
    (Function.iterate_succ_apply' xtime 7 a).symm.trans (xtime_iterate_eight a)
  have hsum : gf8Mul m a = gf8Sum m a 7 ^^^ if m.getLsbD 7 then xtime^[7] a else 0 := gf8Mul_eq_gf8Sum m a
  calc gf8Mul (xtime m) a
      = xtime (gf8Sum m a 7) ^^^ if m.getLsbD 7 then gf8Mul 0x1B a else 0 := by
        rw [xtime, gf8Mul_xor_left, hshift, gf8Mul_ite_left]
    _ = xtime (gf8Mul m a) := by
        rw [hsum, xtime_xor, xtime_ite, hlast]

theorem gf8Mul_one_left (a : Byte) : gf8Mul 1 a = a := BitVec.zero_xor

theorem gf8Mul_two_left (a : Byte) : gf8Mul 2 a = xtime a :=
  (gf8Mul_xtime_left 1 a).trans (congrArg xtime (gf8Mul_one_left a))

theorem gf8Mul_three_left (a : Byte) : gf8Mul 3 a = xtime a ^^^ a := by
  rw [show (3 : Byte) = 2 ^^^ 1 by decide, gf8Mul_xor_left, gf8Mul_two_left, gf8Mul_one_left]

/-! ### The S-box and Rcon (`42_aes.md` R241 to R243) -/

/-- The inverse of the affine map of R242. -/
def affineInv (b : Byte) : Byte := b.rotateLeft 1 ^^^ b.rotateLeft 3 ^^^ b.rotateLeft 6 ^^^ 0x05

/-- Undoing the affine map in the S-box table leaves the inverse; the other facts about `gf8Inv` follow from
the table, so that the power `a^254` is evaluated only here. -/
theorem gf8Inv_eq_affineInv_sbox : ∀ a : Byte, gf8Inv a = affineInv (sbox a) := by decide +kernel

theorem gf8Mul_affineInv_sbox : ∀ a : Byte, a ≠ 0 → gf8Mul a (affineInv (sbox a)) = 1 := by decide +kernel

/-- The affine map of R242 undoes `affineInv`. -/
theorem affine_affineInv : ∀ b : Byte,
    b = affineInv b ^^^ (affineInv b).rotateLeft 1 ^^^ (affineInv b).rotateLeft 2
      ^^^ (affineInv b).rotateLeft 3 ^^^ (affineInv b).rotateLeft 4 ^^^ 0x63 := by decide +kernel

theorem sbox_eq_generatedSbox (a : Byte) : sbox a = generatedSbox a := by
  rw [generatedSbox, gf8Inv_eq_affineInv_sbox]
  exact affine_affineInv (sbox a)

theorem rcon_succ : ∀ j < 10, 1 ≤ j → rcon (j + 1) = xtime (rcon j) := by decide

/-- Settles O24: the product is a sum of doublings, so its laws are those of `xtime`; the S-box and the
inverse determine each other through the affine map. -/
theorem aesTablesAreGenerated : Obligations.AesTablesAreGenerated := by
  refine ⟨fun a => ⟨rfl, fun m n => ⟨gf8Mul_xor_left m n a, gf8Mul_xtime_left m a⟩,
    fun ha => ?_, fun ha => ?_, sbox_eq_generatedSbox a, rfl,
    gf8Mul_one_left a, gf8Mul_two_left a, gf8Mul_three_left a⟩,
    rfl, fun j h1 h9 => rcon_succ j (by omega) h1⟩
  · rw [gf8Inv_eq_affineInv_sbox]
    exact gf8Mul_affineInv_sbox a ha
  · rw [gf8Inv_eq_affineInv_sbox, ha]
    rfl

/-! ### The recurrence of the key expansion (`42_aes.md` R245, R246) -/

/-- The word that iteration `i` puts after the `i` words before it. -/
theorem scheduleStep_getD (nk : Nat) {w : List AesWord} {i : Nat} (hi : w.length = i) :
    (scheduleStep nk w i).getD i zeroWord =
      xorWord (w.getD (i - nk) zeroWord) (scheduleTemp nk i (w.getD (i - 1) zeroWord)) := by
  subst hi
  rw [scheduleStep, List.getD_append_right _ _ _ _ le_rfl, Nat.sub_self]
  rfl

/-- The expansion cut at word `i`: the words before it, and the iteration that makes it. -/
theorem keyExpansion_eq_step_append (nk : Nat) (k : Bytes) {i : Nat} (h : nk ≤ i) (hi : i < 4 * (nk + 7)) :
    ∃ w rest, w.length = i ∧ keyExpansion nk k = scheduleStep nk w i ++ rest := by
  have hsplit : List.range' nk (4 * (nk + 7) - nk) =
      List.range' nk (i - nk) ++ i :: List.range' (i + 1) (4 * (nk + 7) - i - 1) := by
    rw [show 4 * (nk + 7) - nk = (i - nk) + (4 * (nk + 7) - i - 1 + 1) by omega, ← List.range'_append_1,
      List.range'_succ, Nat.add_sub_cancel' h]
  obtain ⟨rest, hrest⟩ := foldl_scheduleStep_append nk (List.range' (i + 1) (4 * (nk + 7) - i - 1))
    (scheduleStep nk ((List.range' nk (i - nk)).foldl (scheduleStep nk) ((List.range nk).map (keyWord k))) i)
  refine ⟨_, rest, ?_, by rw [keyExpansion, hsplit, List.foldl_append, List.foldl_cons, hrest]⟩
  rw [foldl_scheduleStep_length, List.length_map, List.length_range, List.length_range', Nat.add_sub_cancel' h]

/-- The recurrence of R246. -/
theorem keyExpansion_getD_recurrence {nk : Nat} (hnk : 0 < nk) (k : Bytes) {i : Nat} (h : nk ≤ i)
    (hi : i < 4 * (nk + 7)) :
    (keyExpansion nk k).getD i zeroWord = xorWord ((keyExpansion nk k).getD (i - nk) zeroWord)
      (scheduleTemp nk i ((keyExpansion nk k).getD (i - 1) zeroWord)) := by
  obtain ⟨w, rest, hw, hexp⟩ := keyExpansion_eq_step_append nk k h hi
  have before {j : Nat} (hj : j < i) : (keyExpansion nk k).getD j zeroWord = w.getD j zeroWord := by
    rw [hexp, scheduleStep, List.append_assoc, List.getD_append _ _ _ _ (hw ▸ hj)]
  have added : (scheduleStep nk w i).getD i zeroWord = (keyExpansion nk k).getD i zeroWord := by
    rw [hexp, List.getD_append _ _ _ _ (by rw [scheduleStep, List.length_append, hw]; exact Nat.lt_succ_self i)]
  rw [← added, scheduleStep_getD nk hw, before (by omega), before (by omega)]

/-- Settles O25: the key by `keyExpansion_getD_of_lt`, the other words by the recurrence, whose three cases
are those of `scheduleTemp`. -/
theorem keyExpansionRecurrence : Obligations.KeyExpansionRecurrence := by
  refine ⟨fun _ _ => ⟨rfl, rfl, rfl⟩, fun _ _ => rfl,
    fun w => ⟨scheduleBytes_length w, fun j hj => ?_⟩, fun nk k hnk => ?_⟩
  · have stored {b : Nat} (hb : b < 4) := scheduleBytes_getD w hj hb
    exact ⟨stored (b := 0) (by decide), stored (b := 1) (by decide), stored (b := 2) (by decide),
      stored (b := 3) (by decide)⟩
  · exact ⟨keyExpansion_length nk k, fun i hi => keyExpansion_getD_of_lt k hi,
      fun i h hi => keyExpansion_getD_recurrence (by omega) k h hi⟩

/-! ### The round steps on bytes (`42_aes.md` R248 to R252) -/

theorem byteAt_addRoundKey (rk : Vector Byte 240) (rnd : Nat) (s : Block) {k : Nat} (hk : k < 16) :
    byteAt (addRoundKey rk rnd s) k = byteAt s k ^^^ byteAt rk (16 * rnd + k) := by
  rw [addRoundKey, byteAt_tabulate, if_pos hk]

theorem byteAt_subBytes (s : Block) {k : Nat} (hk : k < 16) :
    byteAt (subBytes s) k = sbox (byteAt s k) := by
  rw [subBytes, byteAt_tabulate, if_pos hk]

theorem byteAt_shiftRows (s : Block) {r c : Nat} (hr : r < 4) (hc : c < 4) :
    byteAt (shiftRows s) (r + 4 * c) = byteAt s (r + 4 * ((c + r) % 4)) := by
  rw [shiftRows, byteAt_tabulate, if_pos (by omega), show (r + 4 * c) % 4 = r by omega,
    show (r + 4 * c) / 4 = c by omega]

/-- The four rows of the matrix are one row, rotated. -/
theorem mixRow_rotated (f : Nat → Byte) {r : Nat} (hr : r < 4) :
    mixRow r (f 0) (f 1) (f 2) (f 3) =
      gf8Mul 2 (f r) ^^^ gf8Mul 3 (f ((r + 1) % 4)) ^^^ f ((r + 2) % 4) ^^^ f ((r + 3) % 4) := by
  interval_cases r <;>
    simp only [mixRow, mixMatrix, List.getD_cons_zero, List.getD_cons_succ, gf8Mul_one_left,
      Nat.reduceAdd, Nat.reduceMod] <;> ac_rfl

theorem byteAt_mixColumns (s : Block) {r c : Nat} (hr : r < 4) (hc : c < 4) :
    byteAt (mixColumns s) (r + 4 * c) =
      gf8Mul 2 (byteAt s (r + 4 * c)) ^^^ gf8Mul 3 (byteAt s ((r + 1) % 4 + 4 * c))
        ^^^ byteAt s ((r + 2) % 4 + 4 * c) ^^^ byteAt s ((r + 3) % 4 + 4 * c) := by
  rw [← mixRow_rotated (fun i => byteAt s (i + 4 * c)) hr, mixColumns, byteAt_tabulate, if_pos (by omega)]
  simp only [show (r + 4 * c) % 4 = r by omega, show (r + 4 * c) / 4 = c by omega, Nat.zero_add,
    Nat.add_comm (4 * c)]

/-- Settles O26: each step by its lemma on one byte. -/
theorem cipherStepsOnBytes : Obligations.CipherStepsOnBytes :=
  fun s rk rnd _ hr _ hc => ⟨byteAt_addRoundKey rk rnd s (by omega), byteAt_subBytes s (by omega),
    byteAt_shiftRows s hr hc, byteAt_mixColumns s hr hc⟩

/-! ### AKEY and AENC (`42_aes.md` R260 to R262) -/

theorem exec_akey_of_illegal {s : State}
    (h : ¬ (s.keyLen.toNat = 16 ∨ s.keyLen.toNat = 24 ∨ s.keyLen.toNat = 32)) :
    exec .akey s = .next (completeError ⟨.badKeyLen, offAesCfg⟩ s) := by
  have hbad : keyLenLegal s = false := Bool.eq_false_iff.2 fun hk => h ((keyLenLegal_iff s).1 hk)
  exact exec_of_failure (by rw [failureOf, hbad]; rfl)

/-- Settles O27: AKEY has one check, which holds exactly for the three key lengths. -/
theorem akeyResultAndBadKeylen : Obligations.AkeyResultAndBadKeylen :=
  fun _ => ⟨exec_akey_of_legal, exec_akey_of_illegal⟩

theorem exec_aenc_of_keyed {s : State} (h : s.keyed = true) :
    exec .aenc s = .next (complete (aencEffect s)) :=
  exec_of_no_failure (by rw [failureOf, keyedCheck, h]; rfl)

theorem exec_aenc_of_not_keyed {s : State} (h : s.keyed = false) :
    exec .aenc s = .next (completeError ⟨.notKeyed, offAesNr⟩ s) :=
  exec_of_failure (by rw [failureOf, keyedCheck, h]; rfl)

/-- Settles O29: the rounds of the cipher are `middleRound`, and AENC has one check, KEYED. -/
theorem aencResultAndNotKeyed : Obligations.AencResultAndNotKeyed :=
  ⟨fun _ _ _ => rfl, fun _ => ⟨exec_aenc_of_keyed, exec_aenc_of_not_keyed⟩⟩

end Sys2Proof.Machine

/-!
PROOFS. The counter block and GCTR (O34, O35); the checks of the GCM commands (O37); what they commit and
what they leave alone (O36, O38, O40, O41, O42); GCMDEC of what GCMENC produced (O43).
-/

namespace Sys2Proof.Machine

/-! ### J0 and inc32 (`43_gcm.md` R282, R283) -/

theorem byteAt_inc32_of_lt (x : Block) {k : Nat} (hk : k < 12) : byteAt (inc32 x) k = byteAt x k := by
  rw [inc32, byteAt_tabulate, if_pos (by omega), if_pos hk]

theorem byteAt_inc32_of_le (x : Block) {k : Nat} (hk : 12 ≤ k) (hk' : k < 16) :
    byteAt (inc32 x) k = (counterOf x + 1).extractLsb' (8 * (15 - k)) 8 := by
  rw [inc32, byteAt_tabulate, if_pos hk', if_neg (by omega)]

/-- The counter of inc32 is the old one plus 1: its four bytes put together again, most significant first. -/
theorem counterOf_inc32 (x : Block) : counterOf (inc32 x) = counterOf x + 1 := by
  have byte (k : Nat) (hk : 12 ≤ k ∧ k < 16) := byteAt_inc32_of_le x hk.1 hk.2
  rw [counterOf, byte 12 (by decide), byte 13 (by decide), byte 14 (by decide), byte 15 (by decide)]
  exact leWord_wordBytes _

/-- Settles O34: the two cases of J0, and inc32 as the successor of the counter word. -/
theorem initialAndNextCounterBlock : Obligations.InitialAndNextCounterBlock := by
  refine ⟨fun h iv => ⟨fun hl => if_pos hl, fun hl => ?_⟩, fun x => ⟨fun k hk => byteAt_inc32_of_lt x hk, ?_⟩⟩
  · rw [initialCounter, if_neg hl, zeroPad, zeroBlock_eq_ofBytes]
  · exact (congrArg BitVec.toNat (counterOf_inc32 x)).trans (BitVec.toNat_add _ _)

/-! ### GCTR (`43_gcm.md` R284, R285) -/

/-- Byte `k` of GCTR's output: the text XOR the keystream. -/
theorem gctr_getD (e : Block → Block) (icb : Block) (x : Bytes) {k : Nat} (hk : k < x.length) :
    (gctr e icb x).1.getD k 0 = x.getD k 0 ^^^ byteAt (e (inc32^[k / 16] icb)) (k % 16) :=
  gctr_prefix_getD e icb x _ (by rw [blockCount]; omega) hk

/-- GCTR from the same counter block undoes itself: the keystream does not depend on the text (R307). -/
theorem gctr_gctr (e : Block → Block) (icb : Block) (x : Bytes) :
    gctr e icb (gctr e icb x).1 = (x, (gctr e icb x).2) := by
  refine Prod.ext (List.ext_getElem (by simp) fun k h hx => ?_) (by simp [gctr_counter, blockCount])
  rw [← List.getD_eq_getElem _ 0 h, ← List.getD_eq_getElem _ 0 hx, gctr_getD _ _ _ (by simpa using hx),
    gctr_getD _ _ _ hx, BitVec.xor_assoc, BitVec.xor_self, BitVec.xor_zero]

/-- Settles O35: the output of GCTR byte by byte, and GCTR applied twice. -/
theorem gctrIsAnInvolution : Obligations.GctrIsAnInvolution := by
  refine ⟨fun e icb x k hk => gctr_getD e icb x hk, gctr_counter, fun e icb x => ?_⟩
  rw [gctr_gctr]
  exact ⟨rfl, gctr_length e icb x, rfl⟩

/-! ### The checks (`43_gcm.md` R291, R300 to R304) -/

/-- The first check of GCMENC that fails, by the order of R291. -/
theorem failureOf_gcmenc_eq (s : State) : failureOf .gcmenc s =
    if s.keyed = true then
      if 1 ≤ s.ivLen.toNat then
        if s.ivAddr.toNat + s.ivLen.toNat ≤ 65536 then
          if s.aadAddr.toNat + s.aadLen.toNat ≤ 65536 then
            if s.srcAddr.toNat + s.srcLen.toNat ≤ 65536 then
              if s.dstAddr.toNat + s.srcLen.toNat ≤ 65536 then
                if textRangesOk s = true then none else some ⟨.overlap, 0x028⟩
              else some ⟨.badRange, 0x028⟩
            else some ⟨.badRange, 0x020⟩
          else some ⟨.badRange, 0x030⟩
        else some ⟨.badRange, 0x038⟩
      else some ⟨.badIvLen, 0x03C⟩
    else some ⟨.notKeyed, 0x048⟩ := by
  simp only [failureOf, gcmChecks, firstFailure, keyedCheck, rangeCheck, BufRange.valid_iff, ivRange, aadRange,
    srcRange, textOutRange, decide_eq_true_eq]
  rfl

/-- A failing command with the error written out field by field (R325). -/
theorem exec_of_failure_fields {i : Instr} {s : State} {code : ErrCode} {param : Word}
    (h : failureOf i s = some ⟨code, param⟩) :
    exec i s = .next { s with latch := none, done := true, err := true, errCode := code, errParam := param } :=
  exec_of_failure h

/-- Settles O37: the branches of `failureOf_gcmenc_eq`, one by one. -/
theorem gcmencChecksInOrder : Obligations.GcmencChecksInOrder := by
  intro s
  refine ⟨fun hk => ?_, fun hk hl => ?_, fun hk hl hi => ?_, fun hk hl hi ha => ?_, fun hk hl hi ha hs => ?_,
    fun hk hl hi ha hs hd => ?_, fun hk hl hi ha hs hd ht => ?_⟩
  all_goals
    apply exec_of_failure_fields
    rw [failureOf_gcmenc_eq]
  · rw [if_neg hk]
  · rw [if_pos hk, if_neg hl]
  · rw [if_pos hk, if_pos hl, if_neg hi]
  · rw [if_pos hk, if_pos hl, if_pos hi, if_neg ha]
  · rw [if_pos hk, if_pos hl, if_pos hi, if_pos ha, if_neg hs]
  · rw [if_pos hk, if_pos hl, if_pos hi, if_pos ha, if_pos hs, if_neg hd]
  · rw [if_pos hk, if_pos hl, if_pos hi, if_pos ha, if_pos hs, if_pos hd, if_neg (mt (textRangesOk_iff s).1 ht)]

/-- The tag that GCMDEC computes, over the ciphertext at SRC, agrees with GCM_TAGX in the bytes compared. -/
def TagMatches (s : State) : Prop :=
  ∀ k < s.tagLen.toNat, byteAt (gcmTagOf s (readRange s (srcRange s))) k = byteAt s.gcmTagx k

theorem tagLen_le_of_legal {s : State} (h : s.tagLen.toNat ∈ [4, 8, 12, 13, 14, 15, 16]) :
    s.tagLen.toNat ≤ 16 := by
  simp only [List.mem_cons, List.not_mem_nil, or_false] at h
  omega

theorem tagCheck_iff {s : State} (hl : s.tagLen.toNat ∈ [4, 8, 12, 13, 14, 15, 16]) :
    (tagCheck s).1 = true ↔ latchedCompat s = true ∨ TagMatches s := by
  rw [tagCheck, Bool.or_eq_true, ctEqual, beq_iff_eq, take_eq_iff _ _ (tagLen_le_of_legal hl), TagMatches]

/-- GCMDEC accepts the tag: COMPAT is latched, or TAG_LEN is legal and the tag right (R302, R303). -/
def TagAccepted (s : State) : Prop :=
  latchedCompat s = true ∨ (s.tagLen.toNat ∈ [4, 8, 12, 13, 14, 15, 16] ∧ TagMatches s)

theorem failureOf_gcmdec_of_accepted {s : State} (h : GcmOperandsOk s) (hv : TagAccepted s) :
    failureOf .gcmdec s = none := by
  have hlen : (tagLenCheck s).1 = true := by
    rw [tagLenCheck, Bool.or_eq_true, tagLenLegal_iff]
    exact hv.imp_right And.left
  have htag : (tagCheck s).1 = true := by
    rcases hv with hc | ⟨hl, hm⟩
    · rw [tagCheck, hc, Bool.true_or]
    · exact (tagCheck_iff hl).2 (.inr hm)
  rw [failureOf_gcmdec, (failureOf_gcmenc s).2 h, Option.none_or, firstFailure_eq_none]
  simp [hlen, htag]

/-- With COMPAT not latched the wrong tag is the one failure left (R304). -/
theorem failureOf_gcmdec_of_wrong_tag {s : State} (h : GcmOperandsOk s) (hc : latchedCompat s = false)
    (hl : s.tagLen.toNat ∈ [4, 8, 12, 13, 14, 15, 16]) (hm : ¬ TagMatches s) :
    failureOf .gcmdec s = some ⟨.authFail, 0x110⟩ := by
  have hlen : tagLenCheck s = (true, ⟨.badTagLen, offGcmCfg⟩) := by
    rw [tagLenCheck, hc, (tagLenLegal_iff s).2 hl]
    rfl
  have htag : tagCheck s = (false, ⟨.authFail, offGcmTagx⟩) :=
    Prod.ext (Bool.eq_false_iff.2 fun ht => ((tagCheck_iff hl).1 ht).elim (by simp [hc]) hm) rfl
  rw [failureOf_gcmdec, (failureOf_gcmenc s).2 h, hlen, htag]
  rfl

/-! ### What the commands commit (`43_gcm.md` R281, R286, R292, R302 to R304) -/

theorem exec_gcmenc_of_ok {s : State} (h : GcmOperandsOk s) :
    exec .gcmenc s = .next (complete (gcmencEffect s)) :=
  exec_of_no_failure ((failureOf_gcmenc s).2 h)

theorem exec_gcmdec_of_accepted {s : State} (h : GcmOperandsOk s) (hv : TagAccepted s) :
    exec .gcmdec s = .next (complete (gcmdecEffect s)) :=
  exec_of_no_failure (failureOf_gcmdec_of_accepted h hv)

/-- Settles O38: with legal operands GCMENC commits its effect. -/
theorem gcmencResult : Obligations.GcmencResult := by
  intro s hs
  rw [← zeroBlock_eq_ofBytes, exec_gcmenc_of_ok hs, gcmencEffect, gcmCommit, complete]
  rfl

/-- Settles O40: with legal operands and an accepted tag GCMDEC commits its effect. -/
theorem gcmdecResult : Obligations.GcmdecResult := by
  intro s hs
  simp only [← zeroBlock_eq_ofBytes]
  intro hv
  rw [exec_gcmdec_of_accepted hs hv, gcmdecEffect, gcmCommit, complete]
  rfl

/-- Settles O41: the wrong tag is the first check that fails, and nothing but the error is recorded. -/
theorem authFailCommitsNothing : Obligations.AuthFailCommitsNothing := by
  intro s hs hc
  simp only [← zeroBlock_eq_ofBytes]
  rintro hl ⟨k, hk, hne⟩
  have hwrong : ¬ TagMatches s := fun hm => hne (hm k hk)
  exact exec_of_failure_fields (failureOf_gcmdec_of_wrong_tag hs hc hl hwrong)

/-- A command that leaves ERR clear has committed its effect. -/
theorem committed_of_err_eq_false {i : Instr} {s t : State} (h : exec i s = .next t) (ht : t.err = false) :
    failureOf i s = none ∧ t = complete (effectOf i s) := by
  rcases exec_cases h with ⟨e, -, rfl⟩ | hok
  · cases ht
  · exact hok

/-- GCTR starts at inc32(J0) and takes one counter block for each text block (R284, R286). -/
theorem gcmText_counter (s : State) :
    (gcmText s).2 = inc32^[(s.srcLen.toNat + 15) / 16 + 1] (gcmJ0Of s) := by
  rw [gcmText, gctr_counter, blockCount, readRange_length, Function.iterate_succ_apply]
  rfl

/-- Settles O36: both commands commit J0 and the counter of `gcmText_counter`. -/
theorem counterAfterGcmCommand : Obligations.CounterAfterGcmCommand := by
  intro s t i hi h _ ht
  obtain ⟨-, rfl⟩ := committed_of_err_eq_false h ht
  rcases hi with rfl | rfl
  · exact gcmText_counter s
  · exact gcmText_counter s

/-- Settles O42: a failing command keeps BUF, a committing one changes its output range alone. -/
theorem gcmMemoryFrame : Obligations.GcmMemoryFrame := by
  intro s t i hi h a ha
  rcases exec_cases h with ⟨e, -, rfl⟩ | ⟨hf, rfl⟩
  · rfl
  · by_contra hne
    rcases outputRange_of_effectOf_ne hf hne with ⟨rfl, -⟩ | ⟨-, hin⟩
    · simp at hi
    · exact ha hin

/-! ### GCMDEC of what GCMENC produced (`43_gcm.md` R307) -/

/-- The text at DST after a GCM command that commits is the output of GCTR. -/
theorem memRead_dst_of_gcm {s : State} {i : Instr} (hi : i = .gcmenc ∨ i = .gcmdec) :
    memRead (complete (effectOf i s)) s.dstAddr.toNat s.srcLen.toNat = (gcmText s).1 := by
  have hbuf : (complete (effectOf i s)).buf = (memWrite s s.dstAddr.toNat (gcmText s).1).buf := by
    rcases hi with rfl | rfl <;> rfl
  have hread := memRead_memWrite_same s s.dstAddr.toNat (gcmText s).1
  rw [gcmText_length] at hread
  obtain ⟨-, -, -, -, -, -, -, -, -, hdraw, -⟩ := effectOf_frame i s
  rw [memRead_congr hbuf hdraw, hread]

/-- Two states with the same key schedule and the same bytes at their IV and AAD ranges: what a GCM
command derives from these. -/
structure SameKeyIvAad (d s : State) : Prop where
  rk : d.rk = s.rk
  nr : d.nr = s.nr
  iv : readRange d (ivRange d) = readRange s (ivRange s)
  aad : readRange d (aadRange d) = readRange s (aadRange s)

namespace SameKeyIvAad

variable {d s : State} (h : SameKeyIvAad d s)
include h

theorem encryptBlock_eq : encryptBlock d = encryptBlock s := by
  funext x
  rw [encryptBlock, h.rk, h.nr, encryptBlock]

theorem gcmSubkey_eq : gcmSubkey d = gcmSubkey s := by
  rw [gcmSubkey, h.encryptBlock_eq, gcmSubkey]

theorem gcmJ0Of_eq : gcmJ0Of d = gcmJ0Of s := by
  rw [gcmJ0Of, h.gcmSubkey_eq, h.iv, gcmJ0Of]

theorem gcmHashOf_eq (c : Bytes) : gcmHashOf d c = gcmHashOf s c := by
  rw [gcmHashOf, h.gcmSubkey_eq, h.aad, gcmHashOf]

theorem gcmTagOf_eq (c : Bytes) : gcmTagOf d c = gcmTagOf s c := by
  rw [gcmTagOf, h.encryptBlock_eq, h.gcmJ0Of_eq, h.gcmHashOf_eq, gcmTagOf]

/-- GCTR over the other state's output text gives back its text, and ends at the same counter. -/
theorem gcmText_eq (hc : readRange d (srcRange d) = (gcmText s).1) :
    gcmText d = (readRange s (srcRange s), (gcmText s).2) := by
  rw [gcmText, h.encryptBlock_eq, h.gcmJ0Of_eq, hc]
  exact gctr_gctr _ _ _

end SameKeyIvAad

/-- Settles O43: the tag over the same ciphertext is the same, so GCMDEC commits; its GCTR undoes the
one of GCMENC. -/
theorem gcmRoundTrip : Obligations.GcmRoundTrip := by
  intro s u d hu _ huErr hd hdErr hrk hnr hiv haad hsrc htag hlen
  obtain ⟨-, rfl⟩ := committed_of_err_eq_false hu huErr
  have same : SameKeyIvAad d s := ⟨hrk, hnr, hiv, haad⟩
  have hc : readRange d (srcRange d) = (gcmText s).1 := hsrc.trans (memRead_dst_of_gcm (.inl rfl))
  obtain ⟨hplain, hctr⟩ := Prod.ext_iff.1 (same.gcmText_eq hc)
  have hmatch : TagMatches d := fun k _ => by
    rw [hc, same.gcmTagOf_eq, htag]
    rfl
  refine ⟨_, exec_gcmdec_of_accepted hd (.inr ⟨hlen, hmatch⟩), hdErr, rfl, ?_,
    same.gcmSubkey_eq, same.gcmJ0Of_eq, ?_, hctr⟩
  · exact (memRead_dst_of_gcm (.inr rfl)).trans hplain
  · show gcmHashOf d (readRange d (srcRange d)) = gcmHashOf s (gcmText s).1
    rw [hc, same.gcmHashOf_eq]

end Sys2Proof.Machine

/-!
PROOFS. The life cycle of a command: what STATUS reads after its completion (O9), what the engine's step
runs (O5), and the commands that have no check and no operand (O11).
-/

namespace Sys2Proof.Machine

/-! ### Completion and STATUS (`44_control.md` R324 to R326; `60_exceptions.md` R340) -/

/-- Every word is completed, with an error or with the effect of a command (R322, R324). -/
theorem runWord_completes (w : Word) (s : State) :
    (∃ e, runWord w s = .next (completeError e s)) ∨
      ∃ i, runWord w s = .next (complete (effectOf i s)) := by
  cases hd : decode w with
  | error e => exact .inl ⟨_, runWord_of_error hd s⟩
  | ok i =>
    rw [runWord_of_ok hd]
    cases hf : failureOf i s with
    | some e => exact .inl ⟨e, exec_of_failure hf⟩
    | none => exact .inr ⟨i, exec_of_no_failure hf⟩

@[simp] theorem flagBit_false (k : Nat) : flagBit k false = 0#32 := rfl

/-- The STATUS word of success (R326). -/
theorem statusWord_complete {s : State} (he : s.err = false) (hc : s.errCode = .none) :
    statusWord (complete s) =
      0x02 ||| flagBit 4 s.keyed ||| flagBit 5 s.authOk ||| flagBit 3 s.ovr := by
  have hdone : flagBit 1 true = 0x02 := rfl
  have hnone : (ErrCode.none.toByte.setWidth 32 <<< 8 : Word) = 0 := rfl
  simp only [statusWord, complete_busy, complete_done, complete_err, complete_ovr, complete_keyed,
    complete_authOk, complete_errCode, he, hc, flagBit_false, hdone, hnone, BitVec.zero_or, BitVec.or_zero]
  ac_rfl

/-- The STATUS word of an error (R340). -/
theorem statusWord_completeError (e : CmdError) {s : State} (ha : s.authOk = false) :
    statusWord (completeError e s) =
      0x06 ||| (e.code.toByte.setWidth 32 <<< 8) ||| flagBit 3 s.ovr ||| flagBit 4 s.keyed := by
  have hflags : flagBit 1 true ||| flagBit 2 true = 0x06 := rfl
  simp only [statusWord, completeError_busy, completeError_done, completeError_err, completeError_ovr,
    completeError_keyed, completeError_authOk, completeError_errCode, ha, flagBit_false, hflags,
    BitVec.zero_or, BitVec.or_zero]
  ac_rfl

/-- Settles O9: the two ways a word completes, each with its STATUS word; a command's effect leaves ERR and
its code as they were. -/
theorem completionAndStatus : Obligations.CompletionAndStatus := by
  intro w s
  rcases runWord_completes w s with ⟨e, ht⟩ | ⟨i, ht⟩
  · exact ⟨_, ht, rfl, rfl, fun _ _ ha =>
      ⟨fun h => absurd h.symm Bool.false_ne_true, fun _ => statusWord_completeError e ha⟩⟩
  · obtain ⟨-, -, -, ferr, -, fcode, -⟩ := effectOf_frame i s
    refine ⟨_, ht, rfl, rfl, fun he hc _ => ⟨fun _ => ?_, fun h => ?_⟩⟩
    · exact statusWord_complete (ferr.trans he) (fcode.trans hc)
    · exact absurd ((ferr.trans he).symm.trans h) Bool.false_ne_true

/-! ### The engine's step (`44_control.md` R320, R322) -/

theorem step_of_engine {s : State} {rest : List Event} (h : s.events = .engine :: rest) :
    step s = engineStep (took s rest) := step_of_cons h

theorem engineStep_of_idle {s : State} (h : s.latch = none) : engineStep s = .next s := by
  rw [engineStep, h]

theorem engineStep_of_ok {s : State} {l : Latch} {i : Instr} (hl : s.latch = some l)
    (hd : decode l.word = .ok i) : engineStep s = exec i s :=
  (engineStep_of_latch hl).trans (runWord_of_ok hd s)

theorem engineStep_of_error {s : State} {l : Latch} {e : DecodeError} (hl : s.latch = some l)
    (hd : decode l.word = .error e) : engineStep s = .next (completeError ⟨.illegalCmd, offCmd⟩ s) :=
  (engineStep_of_latch hl).trans (runWord_of_error hd s)

/-- Settles O5: the step is `engineStep`, whether no event is left or the engine's is taken, and that is
decided by the latch and the word in it. -/
theorem stepRunsTheLatchedCommand : Obligations.StepRunsTheLatchedCommand := by
  refine ⟨fun w i s hd => runWord_of_ok hd s, fun s hl => ⟨fun he => ?_, fun rest he => ?_⟩,
    fun s l hl => ⟨fun i hd => ⟨fun he => ?_, fun rest he => ?_⟩,
      fun e hd => ⟨fun he => ?_, fun rest he => ?_⟩⟩⟩
  · exact (step_of_nil he).trans (engineStep_of_idle hl)
  · exact (step_of_engine he).trans (engineStep_of_idle hl)
  · exact (step_of_nil he).trans (engineStep_of_ok hl hd)
  · exact (step_of_engine he).trans (engineStep_of_ok hl hd)
  · exact (step_of_nil he).trans (engineStep_of_error hl hd)
  · exact (step_of_engine he).trans (engineStep_of_error hl hd)

/-! ### NOP, KZERO and KPERM (`44_control.md` R330; `40_keccak.md` R175, R176) -/

/-- Settles O11: none of the three has a check, so each commits its effect. -/
theorem nopKzeroKpermResults : Obligations.NopKzeroKpermResults :=
  fun _ => ⟨exec_of_no_failure rfl, exec_of_no_failure rfl, exec_of_no_failure rfl⟩

end Sys2Proof.Machine

/-!
PROOFS. Errors, resets and the interrupt: a failing word changes only STATUS and ERRPARAM (O7) and reports
an error of its command (O8); the interrupt output (O51); the state after power-on (O56).
-/

namespace Sys2Proof.Machine

/-! ### Failing words (`60_exceptions.md` R342, R346) -/

/-- No command's effect sets ERR, so a word that ends with ERR = 1 ended by an error completion (R323). -/
theorem runWord_failure_cases {w : Word} {s t : State} (h : runWord w s = .next t) (hs : s.err = false)
    (ht : t.err = true) :
    (∃ d, decode w = .error d ∧ t = completeError ⟨.illegalCmd, offCmd⟩ s) ∨
      ∃ i e, decode w = .ok i ∧ failureOf i s = some e ∧ t = completeError e s := by
  rcases runWord_cases h with hbad | hfail | ⟨i, -, -, rfl⟩
  · exact .inl hbad
  · exact .inr hfail
  · obtain ⟨-, -, -, ferr, -⟩ := effectOf_frame i s
    rw [complete_err, ferr, hs] at ht
    exact absurd ht Bool.false_ne_true

/-- Settles O7: either way of failing is `completeError`, which writes those fields alone. -/
theorem errorsArePrecise : Obligations.ErrorsArePrecise := by
  intro w s t h hs ht
  rcases runWord_failure_cases h hs ht with ⟨-, -, rfl⟩ | ⟨-, -, -, -, rfl⟩ <;> rfl

/-- What a check reports when it fails: its code and its parameter. -/
def reported (c : Bool × CmdError) : ErrCode × Word := (c.2.code, c.2.param)

theorem firstFailure_reported {checks : List (Bool × CmdError)} {e : CmdError}
    (h : firstFailure checks = some e) : (e.code, e.param) ∈ checks.map reported :=
  List.mem_map_of_mem (firstFailure_mem h)

/-- With COMPAT latched GCMDEC skips its own two checks (R303). -/
theorem firstFailure_tagChecks_of_compat {s : State} (h : latchedCompat s = true) :
    firstFailure [tagLenCheck s, tagCheck s] = none := by
  rw [tagLenCheck, tagCheck, h, Bool.true_or, Bool.true_or]
  rfl

/-- The row of R342's matrix for a command lists what its checks report. -/
theorem failureOf_mem_errorsOf {i : Instr} {s : State} {e : CmdError} (h : failureOf i s = some e) :
    (e.code, e.param) ∈ errorsOf (latchedCompat s) i := by
  cases i with
  | nop => cases h
  | kzero => cases h
  | kperm => cases h
  | gmul => cases h
  | kround ir => exact firstFailure_reported h
  | ksponge => exact firstFailure_reported h
  | akey => exact firstFailure_reported h
  | aenc => exact firstFailure_reported h
  | ghash => exact firstFailure_reported h
  | gcmenc => exact firstFailure_reported h
  | gcmdec =>
    rw [failureOf_gcmdec, Option.or_eq_some_iff] at h
    rcases h with hgcm | ⟨-, htag⟩
    · exact List.mem_append_left _ (firstFailure_reported hgcm)
    · cases hc : latchedCompat s with
      | true => simp [firstFailure_tagChecks_of_compat hc] at htag
      | false => exact List.mem_append_right _ (firstFailure_reported htag)

/-- Settles O8: an illegal word by its error completion, a command by its row of the matrix. -/
theorem commandErrorMatrix : Obligations.CommandErrorMatrix := by
  intro w s t h hs ht
  rcases runWord_failure_cases h hs ht with ⟨d, hd, rfl⟩ | ⟨i, e, hd, hf, rfl⟩
  · rw [hd]
    exact ⟨rfl, rfl⟩
  · rw [hd]
    exact failureOf_mem_errorsOf hf

/-! ### The interrupt output (`60_exceptions.md` R360, R361) -/

theorem irq_iff (s : State) : irq s = true ↔ s.ie = true ∧ (s.done = true ∨ s.ovr = true) := by
  rw [irq, Bool.and_eq_true, Bool.or_eq_true]

/-- A completion sets DONE and leaves IE as it was (R324). -/
theorem runWord_done_ie {w : Word} {s t : State} (h : runWord w s = .next t) :
    t.done = true ∧ t.ie = s.ie := by
  rcases runWord_cases h with ⟨-, -, rfl⟩ | ⟨-, -, -, -, rfl⟩ | ⟨i, -, -, rfl⟩
  · exact ⟨rfl, rfl⟩
  · exact ⟨rfl, rfl⟩
  · exact ⟨rfl, (effectOf_frame i s).1⟩

/-- Clearing ERR alone is its acknowledgement (R351). -/
theorem hostWrite_status_err (s : State) : hostWrite 0x00C 0x4 s = acknowledgeError s := rfl

/-- Settles O51: a completion sets DONE, and acknowledging an error touches none of IRQ's three flags. -/
theorem interruptOutput : Obligations.InterruptOutput := by
  refine fun s => ⟨irq_iff s, fun w t h hie => ?_, ?_⟩
  · obtain ⟨hdone, hkeep⟩ := runWord_done_ie h
    exact (irq_iff t).2 ⟨hkeep.trans hie, .inl hdone⟩
  · rw [hostWrite_status_err]
    rfl

/-! ### Power-on reset (`70_reset_and_hazards.md` R371, R380) -/

theorem step_of_powerOn {s : State} {rest : List Event} (h : s.events = .powerOn :: rest) :
    step s = .next (powerOnReset (took s rest)) := step_of_cons h

theorem byteAt_zeros (n k : Nat) : byteAt (Vector.replicate n 0) k = 0 := by
  rw [byteAt_replicate, ite_self]

theorem ksByte_zeroLanes (k : Nat) : ksByte zeroLanes k = 0 := by
  rw [ksByte, zeroLanes, laneAt_replicate, ite_self]
  exact BitVec.extractLsb'_zero

/-- Settles O56: the power-on event is `powerOnReset`, and the state after reset register by
register; the eight block registers are all `zeroBlock`. -/
theorem powerOnResetState : Obligations.PowerOnResetState := by
  refine ⟨fun s rest h => step_of_powerOn h, rfl, rfl, rfl, rfl, rfl, rfl, rfl, rfl, rfl, rfl, rfl, rfl, rfl,
    rfl, rfl, rfl, rfl, rfl, byteAt_zeros 32, fun b hb k => ?_, ksByte_zeroLanes, byteAt_zeros 240,
    rfl, rfl, rfl⟩
  have hzero : b = zeroBlock := List.eq_of_mem_replicate (n := 8) hb
  rw [hzero]
  exact byteAt_zeros 16 k

end Sys2Proof.Machine

namespace Sys2Proof.Machine

/-- Settles O58: power-on reset gives the state after reset but for the draws and the events to come,
and no part of the invariant speaks of those. -/
theorem resetMeetsInvariant : Obligations.ResetMeetsInvariant :=
  have ⟨hmemory, herror, hlatch, hauth, hkey⟩ := StateInv.powerOnReset .reset
  ⟨hmemory, herror, hlatch, hauth, hkey⟩

end Sys2Proof.Machine
